-- ==== Sys2Proof/Word.lean ====
section
/-! DEFINITION. The words of the block: bytes, command and effect words, binary32 patterns, counts, register
numbers, channels, and one value per channel. -/

namespace Sys2Proof

/-- A register byte or a PCM byte. -/
abbrev Byte := BitVec 8

/-- A 32-bit command word (30_encoding.md R59) or effect word (R64). -/
abbrev Word := BitVec 32

/-- The bit pattern of an IEEE 754 binary32 value. Samples are only copied or made by `f32` (44_mixer_chip.md
R115), so the pattern is all the model needs. -/
abbrev F32 := BitVec 32

/-- The 24-bit COUNT field (30_encoding.md R59). -/
abbrev Count := BitVec 24

/-- A register number, R0 to R15 (10_state.md R14). -/
abbrev RegNum := Fin 16

/-- Sixteen bytes, byte `i` for register `i`: a register file, a LOAD_REGS payload, a frame's bytes. -/
abbrev Bytes16 := Vector Byte 16

/-- The three channels (00_scope.md R13). -/
inductive Ch where
  | A | B | C
deriving DecidableEq, Repr

/-- The channel's number: A, B, C are 0, 1, 2. -/
def Ch.num : Ch → Nat
  | .A => 0
  | .B => 1
  | .C => 2

/-- One value per channel. -/
structure PerCh (α : Type) where
  a : α
  b : α
  c : α
deriving DecidableEq, Repr

namespace PerCh

variable {α : Type}

/-- The value of one channel. -/
def get (p : PerCh α) : Ch → α
  | .A => p.a
  | .B => p.b
  | .C => p.c

/-- Replace the value of one channel. -/
def set (p : PerCh α) (ch : Ch) (x : α) : PerCh α :=
  match ch with
  | .A => { p with a := x }
  | .B => { p with b := x }
  | .C => { p with c := x }

/-- The same value on every channel. -/
def all (x : α) : PerCh α := ⟨x, x, x⟩

end PerCh

end Sys2Proof
end

