-- ==== Sys2Proof/Config.lean ====
section
/-! DEFINITION. The parameters the model takes as arguments (00_scope.md R8, 10_state.md R34), the spec's
defaults for them, and the free values of a Randomized reset. -/

namespace Sys2Proof

/-- The two modes of RESET (44_mixer_chip.md R107). -/
inductive ResetMode where
  | randomized
  | deterministic
deriving DecidableEq, Repr

/-- A frame: sixteen bytes, byte `i` for register `i`, and the effect words that annotate it
(30_encoding.md R63). -/
structure Frame where
  bytes : Bytes16
  fx    : List Word
deriving DecidableEq, Repr

/-- A frame of zero bytes without effect words. -/
def Frame.blank : Frame := ⟨Vector.replicate 16 0, []⟩

/-- The parameters of one instance (00_scope.md R8). They are fixed at construction and no command changes them
(10_state.md R34); `State` carries them, so that a statement about every state holds for every choice of them. -/
structure Config where
  masterClock      : Nat
  sampleRate       : Nat
  tickRate         : Nat
  levelTable       : Vector Nat 32
  noisePrescale    : Nat
  noiseReseed      : BitVec 17
  dcWindow         : Nat
  frameR13SkipFf   : Bool
  resetMode        : ResetMode
  rbRequestedSize  : Nat
  rbSampleRate     : Nat
  rbChannelCount   : Nat
  /-- OPEN in the spec (92_eei_decisions.md D50): the number of sleeps RB_WRITE_BLK may take. -/
  rbRetryLimit     : Nat
  /-- OPEN in the spec (D50): the length of one sleep; no rule reads it. -/
  rbRetrySleep     : Nat
  frames           : List Frame
  loopPoint        : Option Nat
  /-- LOOP_ENABLED as the host gave it; `none` when the host gave none (D39). -/
  loopEnabledGiven : Option Bool
  drumBank         : List (List Byte)
deriving DecidableEq, Repr

namespace Config

/-- The default level table, 1.5 dB a step (44_mixer_chip.md R87). -/
def defaultLevelTable : Vector Nat 32 :=
  #v[0, 369, 438, 521, 619, 735, 874, 1039,
     1234, 1467, 1744, 2072, 2463, 2927, 3479, 4135,
     4914, 5841, 6942, 8250, 9806, 11654, 13851, 16462,
     19565, 23253, 27636, 32845, 39037, 46395, 55141, 65535]

/-- The defaults of 00_scope.md R8. DESIGN CHOICE (log 2) for what the host sets and the spec gives no default
for: one blank frame, no loop point, no drum samples, a ring request of 1024 (rate 44,100, one channel), a retry
limit of 4 and a sleep of 0. -/
def default : Config where
  masterClock      := 2000000
  sampleRate       := 44100
  tickRate         := 50
  levelTable       := defaultLevelTable
  noisePrescale    := 2
  noiseReseed      := 0x00001
  dcWindow         := 512
  frameR13SkipFf   := true
  resetMode        := .randomized
  rbRequestedSize  := 1024
  rbSampleRate     := 44100
  rbChannelCount   := 1
  rbRetryLimit     := 4
  rbRetrySleep     := 0
  frames           := [Frame.blank]
  loopPoint        := none
  loopEnabledGiven := none
  drumBank         := []

/-- Free value (log 3): the draw of `tcnt` in [0, 4095] for a channel in the `n`-th Randomized reset
(44_mixer_chip.md R107, 93_implementation_defined.md U2). -/
opaque drawTcnt : Nat → Ch → BitVec 12

/-- Free value (log 3): the draw of `tout` for a channel in the `n`-th Randomized reset. -/
opaque drawTout : Nat → Ch → Bool

/-- Free value (log 3): the draw of `ncnt` in [0, 63] in the `n`-th Randomized reset. -/
opaque drawNcnt : Nat → BitVec 6

/-- Free value (log 3): one less than the draw of `lfsr` in [1, 2^17 - 1] in the `n`-th Randomized reset. -/
opaque drawLfsr : Nat → Fin 131071

end Config

end Sys2Proof
end

