-- ==== Sys2Proof/Syntax.lean ====
section
/-! DEFINITION. The instructions: one constructor per row of spec/opcode_table.json. The first thirty are the
command words of 30_encoding.md R60 with their payloads; the last four are the effect words of R64. -/

namespace Sys2Proof

inductive Instr where
  -- chip commands, 0x01 to 0x0E
  | writeReg (addr : RegNum) (data : Byte)
  | readReg (addr : RegNum)
  | loadRegs (p : Bytes16)
  | dumpRegs
  | clock
  | getSample
  | chipGenerate (count : Count)
  | reset (mode : ResetMode)
  | triggerEnv
  | setMixerOvr (ch : Ch) (forceTone forceNoise : Bool)
  | clrMixerOvr (ch : Ch)
  | setDrumOvr (ch : Ch) (data : Byte)
  | clrDrumOvr (ch : Ch)
  | setMute (ch : Ch) (mute : Bool)
  -- engine commands, 0x10 to 0x17
  | pbPlay
  | pbPause
  | pbStop
  | pbGenerate (count : Count)
  | pbPosition
  | pbSeek (frame : Count)
  | pbSetMute (ch : Ch) (mute : Bool)
  | pbState
  -- ring commands, 0x20 to 0x27; a write's COUNT is the length of its payload
  | rbWriteNb (xs : List F32)
  | rbWriteBlk (xs : List F32)
  | rbRead (count : Count)
  | rbAvailWrite
  | rbAvailRead
  | rbFillPct
  | rbFlush
  | rbStats
  -- effect words, by KIND; every field is kept, whether or not the kind reads it
  | fxNop (fch : BitVec 2) (id : Byte) (rate : BitVec 20)
  | fxDigidrum (fch : BitVec 2) (id : Byte) (rate : BitVec 20)
  | fxSid (fch : BitVec 2) (id : Byte) (rate : BitVec 20)
  | fxSyncbuzz (fch : BitVec 2) (id : Byte) (rate : BitVec 20)
deriving DecidableEq, Repr

end Sys2Proof
end

