-- ==== Sys2Proof/WellFormed.lean ====
section
/-! DEFINITION. Which instructions can be written as words (30_encoding.md R59, R66). Every operand's type is its
field, so the one check left is that a ring write's payload length fits the 24-bit COUNT. -/

namespace Sys2Proof

/-- The payload of a ring write is COUNT binary32 values, COUNT a 24-bit natural (30_encoding.md R59, R66). -/
def Instr.wf : Instr → Bool
  | .rbWriteNb xs | .rbWriteBlk xs => decide (xs.length < 2 ^ 24)
  | .writeReg _ _ | .readReg _ | .loadRegs _ | .dumpRegs | .clock | .getSample | .chipGenerate _
  | .reset _ | .triggerEnv | .setMixerOvr _ _ _ | .clrMixerOvr _ | .setDrumOvr _ _ | .clrDrumOvr _
  | .setMute _ _ | .pbPlay | .pbPause | .pbStop | .pbGenerate _ | .pbPosition | .pbSeek _
  | .pbSetMute _ _ | .pbState | .rbRead _ | .rbAvailWrite | .rbAvailRead | .rbFillPct | .rbFlush
  | .rbStats | .fxNop _ _ _ | .fxDigidrum _ _ _ | .fxSid _ _ _ | .fxSyncbuzz _ _ _ => true

end Sys2Proof
end

