-- ==== Sys2Proof/Decode.lean ====
section
/-! DEFINITION. Decoding and encoding of command words and effect words (spec/30_encoding.md). A port's input is a
list of items, 32-bit words and payload bytes (log 5); `decode` is total on every such list and rejects by name what
R65 reserves. -/

namespace Sys2Proof

/-- One item of an agent's input: a 32-bit word (a command word, or one binary32 value of a payload) or one byte
of a LOAD_REGS payload (30_encoding.md R59, R66). DESIGN CHOICE (log 5): the spec gives the word no byte order. -/
inductive Item where
  | word (w : Word)
  | byte (b : Byte)
deriving DecidableEq, Repr

/-- Why an input is no command (30_encoding.md R65). -/
inductive DecodeError where
  /-- Nothing stands in the input. -/
  | noWord
  /-- A byte stands where a command word is due. -/
  | notAWord
  /-- OP is 0x00, 0x0F, 0x18 to 0x1F or 0x28 to 0xFF. -/
  | unassignedOpcode
  /-- A bit that the word's format marks 0 is 1. -/
  | reservedField
  /-- CH = 3. -/
  | reservedChannel
  /-- The payload is shorter than the opcode needs. -/
  | shortPayload
deriving DecidableEq, Repr

/-! ### Fields -/

/-- Bits `hi` down to `lo` of a word, as a natural (00_scope.md R9). -/
def field (w : Word) (hi lo : Nat) : Nat := w.toNat / 2 ^ lo % 2 ^ (hi + 1 - lo)

/-- OP, bits [31:24] (R59). -/
def opcode (w : Word) : Nat := field w 31 24

/-- ADDR, bits [11:8] (R62). -/
def addrField (w : Word) : RegNum := Fin.ofNat 16 (field w 11 8)

/-- DATA, bits [7:0] (R62). -/
def dataField (w : Word) : Byte := BitVec.ofNat 8 (field w 7 0)

/-- COUNT, bits [23:0] (R62). -/
def countField (w : Word) : Count := BitVec.ofNat 24 (field w 23 0)

/-- Bit `i` as a flag: FT, FN, MUTE (R62). -/
def flagField (w : Word) (i : Nat) : Bool := field w i i == 1

/-- MODE, bit 0: 0 = Randomized, 1 = Deterministic (R60, R62). -/
def modeField (w : Word) : ResetMode := if field w 0 0 = 1 then .deterministic else .randomized

/-- A 2-bit channel number; 3 names no channel (R59, R64). -/
def chOfNat : Nat → Option Ch
  | 0 => some .A
  | 1 => some .B
  | 2 => some .C
  | _ => none

/-- CH, bits [17:16] (R62). -/
def chField (w : Word) : Option Ch := chOfNat (field w 17 16)

/-! ### Formats and payloads -/

/-- The outcome of decoding: the instruction and the input after it, or why there is none. -/
abbrev Decoded := Except DecodeError (Instr × List Item)

/-- Accept `i` when every bit of the format's zero fields is 0 (R65). -/
def ifZero (zeroBits : Nat) (i : Instr) (rest : List Item) : Decoded :=
  if zeroBits = 0 then .ok (i, rest) else .error .reservedField

/-- Format C: bits [23:18] and [15:8] are 0, and so is the part of DATA the opcode does not use; CH is a channel
(R59, R65). -/
def formatC (w : Word) (unusedData : Nat) (mk : Ch → Instr) (rest : List Item) : Decoded :=
  if field w 23 18 = 0 ∧ field w 15 8 = 0 ∧ unusedData = 0 then
    match chField w with
    | some ch => .ok (mk ch, rest)
    | none => .error .reservedChannel
  else .error .reservedField

/-- The next `n` items, all bytes. -/
def takeBytes : Nat → List Item → Option (List Byte × List Item)
  | 0, rest => some ([], rest)
  | n + 1, .byte b :: rest => (takeBytes n rest).map fun (bs, rest') => (b :: bs, rest')
  | _ + 1, _ => none

/-- The next `n` items, all words. -/
def takeWords : Nat → List Item → Option (List Word × List Item)
  | 0, rest => some ([], rest)
  | n + 1, .word w :: rest => (takeWords n rest).map fun (ws, rest') => (w :: ws, rest')
  | _ + 1, _ => none

/-- The first sixteen bytes of a list, byte `i` for register `i` (R62). -/
def bytes16 (l : List Byte) : Bytes16 :=
  #v[l.getD 0 0, l.getD 1 0, l.getD 2 0, l.getD 3 0, l.getD 4 0, l.getD 5 0, l.getD 6 0, l.getD 7 0,
     l.getD 8 0, l.getD 9 0, l.getD 10 0, l.getD 11 0, l.getD 12 0, l.getD 13 0, l.getD 14 0, l.getD 15 0]

/-- LOAD_REGS with its sixteen bytes (R66). -/
def withBytes (zeroBits : Nat) (rest : List Item) : Decoded :=
  if zeroBits = 0 then
    match takeBytes 16 rest with
    | some (bs, rest') => .ok (.loadRegs (bytes16 bs), rest')
    | none => .error .shortPayload
  else .error .reservedField

/-- A ring write with its COUNT binary32 values (R66). -/
def withSamples (w : Word) (mk : List F32 → Instr) (rest : List Item) : Decoded :=
  match takeWords (field w 23 0) rest with
  | some (xs, rest') => .ok (mk xs, rest')
  | none => .error .shortPayload

/-! ### The command decoder -/

/-- A command word and the input after it (30_encoding.md R59, R60, R62, R65, R66). -/
def decodeCommand (w : Word) (rest : List Item) : Decoded :=
  match opcode w with
  | 0x01 => ifZero (field w 23 12) (.writeReg (addrField w) (dataField w)) rest
  | 0x02 => ifZero (field w 23 12 + field w 7 0) (.readReg (addrField w)) rest
  | 0x03 => withBytes (field w 23 0) rest
  | 0x04 => ifZero (field w 23 0) .dumpRegs rest
  | 0x05 => ifZero (field w 23 0) .clock rest
  | 0x06 => ifZero (field w 23 0) .getSample rest
  | 0x07 => .ok (.chipGenerate (countField w), rest)
  | 0x08 => ifZero (field w 23 1) (.reset (modeField w)) rest
  | 0x09 => ifZero (field w 23 0) .triggerEnv rest
  | 0x0A => formatC w (field w 7 2) (fun ch => .setMixerOvr ch (flagField w 1) (flagField w 0)) rest
  | 0x0B => formatC w (field w 7 0) .clrMixerOvr rest
  | 0x0C => formatC w 0 (fun ch => .setDrumOvr ch (dataField w)) rest
  | 0x0D => formatC w (field w 7 0) .clrDrumOvr rest
  | 0x0E => formatC w (field w 7 1) (fun ch => .setMute ch (flagField w 0)) rest
  | 0x10 => ifZero (field w 23 0) .pbPlay rest
  | 0x11 => ifZero (field w 23 0) .pbPause rest
  | 0x12 => ifZero (field w 23 0) .pbStop rest
  | 0x13 => .ok (.pbGenerate (countField w), rest)
  | 0x14 => ifZero (field w 23 0) .pbPosition rest
  | 0x15 => .ok (.pbSeek (countField w), rest)
  | 0x16 => formatC w (field w 7 1) (fun ch => .pbSetMute ch (flagField w 0)) rest
  | 0x17 => ifZero (field w 23 0) .pbState rest
  | 0x20 => withSamples w .rbWriteNb rest
  | 0x21 => withSamples w .rbWriteBlk rest
  | 0x22 => .ok (.rbRead (countField w), rest)
  | 0x23 => ifZero (field w 23 0) .rbAvailWrite rest
  | 0x24 => ifZero (field w 23 0) .rbAvailRead rest
  | 0x25 => ifZero (field w 23 0) .rbFillPct rest
  | 0x26 => ifZero (field w 23 0) .rbFlush rest
  | 0x27 => ifZero (field w 23 0) .rbStats rest
  | _ => .error .unassignedOpcode

/-- The next command of an input and the input after it. -/
def decode : List Item → Decoded
  | [] => .error .noWord
  | .byte _ :: _ => .error .notAWord
  | .word w :: rest => decodeCommand w rest

/-! ### The effect-word decoder -/

/-- FCH, bits [29:28] (R64). -/
def fchField (w : Word) : BitVec 2 := BitVec.ofNat 2 (field w 29 28)

/-- SID_ID, bits [27:20] (R64). -/
def idField (w : Word) : Byte := BitVec.ofNat 8 (field w 27 20)

/-- RATE, bits [19:0] (R64). -/
def rateField (w : Word) : BitVec 20 := BitVec.ofNat 20 (field w 19 0)

/-- Every 32-bit word is an effect word; KIND is bits [31:30] (R64, R65). -/
def decodeEffect (w : Word) : Instr :=
  match field w 31 30 with
  | 0 => .fxNop (fchField w) (idField w) (rateField w)
  | 1 => .fxDigidrum (fchField w) (idField w) (rateField w)
  | 2 => .fxSid (fchField w) (idField w) (rateField w)
  | _ => .fxSyncbuzz (fchField w) (idField w) (rateField w)

/-! ### Encoders -/

/-- A command word from its opcode and its low 24 bits (R59). -/
def cmdWord (op low : Nat) : Item := .word (BitVec.ofNat 32 (op * 2 ^ 24 + low))

/-- The low 24 bits of a format C word (R59). -/
def chLow (ch : Ch) (data : Nat) : Nat := ch.num * 2 ^ 16 + data

/-- An effect word (R64). -/
def effectWord (kind : Nat) (fch : BitVec 2) (id : Byte) (rate : BitVec 20) : Item :=
  .word (BitVec.ofNat 32 (kind * 2 ^ 30 + fch.toNat * 2 ^ 28 + id.toNat * 2 ^ 20 + rate.toNat))

/-- The items of an instruction: its word, then its payload (30_encoding.md R59, R60, R64, R66). -/
def encode : Instr → List Item
  | .writeReg a d => [cmdWord 0x01 (a.val * 2 ^ 8 + d.toNat)]
  | .readReg a => [cmdWord 0x02 (a.val * 2 ^ 8)]
  | .loadRegs p => cmdWord 0x03 0 :: p.toList.map .byte
  | .dumpRegs => [cmdWord 0x04 0]
  | .clock => [cmdWord 0x05 0]
  | .getSample => [cmdWord 0x06 0]
  | .chipGenerate n => [cmdWord 0x07 n.toNat]
  | .reset .randomized => [cmdWord 0x08 0]
  | .reset .deterministic => [cmdWord 0x08 1]
  | .triggerEnv => [cmdWord 0x09 0]
  | .setMixerOvr ch ft fn => [cmdWord 0x0A (chLow ch (ft.toNat * 2 + fn.toNat))]
  | .clrMixerOvr ch => [cmdWord 0x0B (chLow ch 0)]
  | .setDrumOvr ch d => [cmdWord 0x0C (chLow ch d.toNat)]
  | .clrDrumOvr ch => [cmdWord 0x0D (chLow ch 0)]
  | .setMute ch m => [cmdWord 0x0E (chLow ch m.toNat)]
  | .pbPlay => [cmdWord 0x10 0]
  | .pbPause => [cmdWord 0x11 0]
  | .pbStop => [cmdWord 0x12 0]
  | .pbGenerate n => [cmdWord 0x13 n.toNat]
  | .pbPosition => [cmdWord 0x14 0]
  | .pbSeek n => [cmdWord 0x15 n.toNat]
  | .pbSetMute ch m => [cmdWord 0x16 (chLow ch m.toNat)]
  | .pbState => [cmdWord 0x17 0]
  | .rbWriteNb xs => cmdWord 0x20 xs.length :: xs.map .word
  | .rbWriteBlk xs => cmdWord 0x21 xs.length :: xs.map .word
  | .rbRead n => [cmdWord 0x22 n.toNat]
  | .rbAvailWrite => [cmdWord 0x23 0]
  | .rbAvailRead => [cmdWord 0x24 0]
  | .rbFillPct => [cmdWord 0x25 0]
  | .rbFlush => [cmdWord 0x26 0]
  | .rbStats => [cmdWord 0x27 0]
  | .fxNop fch id rate => [effectWord 0 fch id rate]
  | .fxDigidrum fch id rate => [effectWord 1 fch id rate]
  | .fxSid fch id rate => [effectWord 2 fch id rate]
  | .fxSyncbuzz fch id rate => [effectWord 3 fch id rate]

/-- Effect words are read from a frame's annotations, all other instructions from an agent's input (R63). -/
def Instr.isEffect : Instr → Bool
  | .fxNop _ _ _ | .fxDigidrum _ _ _ | .fxSid _ _ _ | .fxSyncbuzz _ _ _ => true
  | .writeReg _ _ | .readReg _ | .loadRegs _ | .dumpRegs | .clock | .getSample | .chipGenerate _
  | .reset _ | .triggerEnv | .setMixerOvr _ _ _ | .clrMixerOvr _ | .setDrumOvr _ _ | .clrDrumOvr _
  | .setMute _ _ | .pbPlay | .pbPause | .pbStop | .pbGenerate _ | .pbPosition | .pbSeek _
  | .pbSetMute _ _ | .pbState | .rbWriteNb _ | .rbWriteBlk _ | .rbRead _ | .rbAvailWrite
  | .rbAvailRead | .rbFillPct | .rbFlush | .rbStats => false

/-! ### A bare word of the opcode table -/

/-- Whether R60 assigns the word's opcode. -/
def opcodeAssigned (w : Word) : Bool :=
  let op := opcode w
  (1 ≤ op && op ≤ 0x0E) || (0x10 ≤ op && op ≤ 0x17) || (0x20 ≤ op && op ≤ 0x27)

/-- The payload of zeros that a command word calls for. -/
def zeroPayload (w : Word) : List Item :=
  match opcode w with
  | 0x03 => List.replicate 16 (.byte 0)
  | 0x20 | 0x21 => List.replicate (field w 23 0) (.word 0)
  | _ => []

/-- The 32-bit word of a table row's bits. -/
def tableWord (nbits w : Nat) : Word := BitVec.ofNat 32 (w % 2 ^ nbits)

/-- The instruction of a bare word. The table holds two sorts of words that share their bits, command words and
effect words. DESIGN CHOICE (log 12): a word whose opcode R60 assigns is read as a command word with a payload of
zeros, any other as an effect word. -/
def decodeTableWord (nbits w : Nat) : Option Instr :=
  let word := tableWord nbits w
  if opcodeAssigned word then
    match decode (.word word :: zeroPayload word) with
    | .ok (i, _) => some i
    | .error _ => none
  else some (decodeEffect word)

end Sys2Proof
end

