-- ==== Sys2Proof/Machine/State.lean ====
section
/-! DEFINITION. The machine's state as plain data (spec/10_state.md), the faults and refusals a step can end in,
the updates by name, and the state after reset. -/

namespace Sys2Proof.Machine

/-- Who issues commands (00_scope.md R7): the producer owns the chip, the engine and the ring's write side; the
consumer owns the ring's read side; `other` is any further agent, which holds no role (60_exceptions.md R152,
R153; log 9). -/
inductive Agent where
  | producer
  | consumer
  | other
deriving DecidableEq, Repr

/-- A mixer override's two gate terms (10_state.md R31, 44_mixer_chip.md R90). -/
structure Override where
  tone  : Bool
  noise : Bool
deriving DecidableEq, Repr

/-- The chip (10_state.md R14 to R40). Counters with a stated width are bit vectors of that width, so that their
ranges hold by type; `NOUT` is `lfsr[0]` (R28) and no state of its own. -/
structure ChipState where
  /-- R0 to R15, masked (R14, R15). -/
  reg    : Bytes16
  /-- The tone phase accumulators (R35). -/
  tcnt   : PerCh (BitVec 12)
  /-- The tone output bits (R27). -/
  tout   : PerCh Bool
  /-- The noise rate counter (R36). -/
  ncnt   : BitVec 6
  /-- The noise shift register (R36). -/
  lfsr   : BitVec 17
  /-- The envelope period counter (R37). -/
  ecnt   : BitVec 16
  /-- The envelope step index (R37). -/
  estep  : BitVec 5
  /-- The envelope direction: true rises (R29). -/
  eup    : Bool
  /-- The envelope hold flag (R29). -/
  ehold  : Bool
  /-- The sub-clock accumulator, in [0, TICK_DIV) (R38). -/
  sub    : Nat
  /-- The DC window: DC_WINDOW mixes (R39). -/
  dcbuf  : List Nat
  /-- The sum of the DC window (R39). -/
  dcsum  : Nat
  /-- The slot of the DC window that the next mix takes (R39). -/
  dcpos  : Nat
  /-- The sample latch (R40). -/
  sample : F32
  /-- The mixer overrides (R31). -/
  ovr    : PerCh (Option Override)
  /-- The drum overrides (R32). -/
  drum   : PerCh (Option Byte)
  /-- The mutes (R33). -/
  mute   : PerCh Bool
deriving DecidableEq, Repr

/-- PlaybackState (10_state.md R30). -/
inductive PbState where
  | idle
  | playing
  | paused
  | finished
deriving DecidableEq, Repr

/-- An effect slot (10_state.md R41). -/
inductive Slot where
  | empty
  | drum (id : Byte) (cur acc : Nat) (rate : BitVec 20)
  | sid (high : Bool) (acc : Nat) (rate : BitVec 20)
  | buzz (acc : Nat) (rate : BitVec 20)
deriving DecidableEq, Repr

/-- The playback engine and the effects FSM (10_state.md R25, R26, R30, R41). -/
structure EngineState where
  state  : PbState
  /-- The index of the current frame, in [0, F] (R25). -/
  cursor : Nat
  /-- The sample within the frame (R26). -/
  sif    : Nat
  /-- The current frame's length in samples (R26). -/
  flen   : Nat
  /-- The remainder accumulator (R26). -/
  racc   : Nat
  /-- The effect slots (R41). -/
  slot   : PerCh Slot
  /-- FX_DECODE's flags: which channels a Sid or Buzz word of this frame named (46_effects.md R131). -/
  seen   : PerCh Bool
  /-- The effect words an unfinished FX_DECODE has still to take; `none` when no decode is under way. The commands
  run FX_DECODE whole, so every state between commands has `none` here (log 11). -/
  fxq    : Option (List Word)
deriving DecidableEq, Repr

/-- One player instance: a chip and the engine that owns it (00_scope.md R7). -/
structure Player where
  chip : ChipState
  eng  : EngineState
deriving DecidableEq, Repr

/-- The RING space's slots (20_memory.md R45): (slot, binary32 sample) pairs, slots strictly rising; a slot not
listed is unwritten and has no value (log 14). -/
abbrev Memory := List (Nat × F32)

/-- The ring buffer (10_state.md R42). -/
structure RingState where
  cap    : Nat
  buf    : Memory
  /-- The write cursor. -/
  w      : Nat
  /-- The read cursor. -/
  r      : Nat
  /-- samples_played, mod 2^64. -/
  played : BitVec 64
  /-- underrun_count, mod 2^64. -/
  under  : BitVec 64
deriving DecidableEq, Repr

/-- A ring command between two of its sub-steps (47_ring_buffer.md R140, R142): what its load sub-step found. -/
inductive RingOp where
  /-- RB_WRITE_NB, loaded: `n` of `xs` fit. -/
  | write (xs : List F32) (n : Nat)
  /-- RB_WRITE_BLK, loaded: `n` of the samples `rest` still to write fit; `done` are written. -/
  | writeBlk (rest : List F32) (n done sleeps : Nat)
  /-- RB_WRITE_BLK, asleep for the `sleeps`-th time. -/
  | asleep (rest : List F32) (done sleeps : Nat)
  /-- RB_READ, loaded: `n` of `count` samples are there. -/
  | read (count n : Nat)
  /-- RB_FLUSH, loaded: the write cursor was `wa`. -/
  | flush (wa : Nat)
  /-- RB_STATS by the producer, first counter loaded. -/
  | stats (played : BitVec 64)
deriving DecidableEq, Repr

/-- A command's result (30_encoding.md R66). -/
inductive Answer where
  | byte (b : Byte)
  | bytes (bs : Bytes16)
  | sample (x : F32)
  | samples (xs : List F32)
  | nat (n : Nat)
  | read (n : Nat) (xs : List F32)
  | stats (played under : BitVec 64)
deriving DecidableEq, Repr

/-- An agent's side of the interface. -/
structure Port where
  /-- The commands the agent will issue, with their payloads (log 4, 5). -/
  input   : List Item
  /-- The ring command the agent is in the middle of (log 7). -/
  busy    : Option RingOp
  /-- The results it has been given, oldest first (log 8). -/
  answers : List Answer
  /-- The host serializes this agent's reads with the owner's commands (60_exceptions.md R153; log 10). -/
  synced  : Bool
deriving DecidableEq, Repr

/-- A port with nothing to issue. -/
def Port.idle : Port := ⟨[], none, [], false⟩

/-- The whole machine. -/
structure State where
  cfg    : Config
  player : Player
  ring   : RingState
  prod   : Port
  cons   : Port
  other  : Port
  /-- The agents that take the next sub-steps, first first (47_ring_buffer.md R140; log 6). -/
  sched  : List Agent
  /-- The agent whose command is being run. -/
  issuer : Agent
  /-- How many Randomized resets have drawn (log 3). -/
  draws  : Nat
deriving DecidableEq, Repr

/-- Why the machine stops. -/
inductive Fault where
  /-- RB_READ's commit sub-step met a slot that nothing has written (20_memory.md R45: "if a model reaches one, it
  faults"). Raised by `commitRead` alone; safe: no run that keeps the ring's invariant reaches it. -/
  | unwrittenSlot
deriving DecidableEq, Repr

/-- Why an input has no meaning (60_exceptions.md R152). -/
inductive Refusal where
  /-- Raised by `exec` for an instruction that has no meaning yet; safe. -/
  | notModelled (mnemonic : String)
  /-- The input is no command: reserved, malformed or short (R152 item 1, 30_encoding.md R65). Raised by `fetch`;
  safe. -/
  | badCommand (e : DecodeError)
  /-- A ring command from an agent that does not hold the role (R152 item 3, 47_ring_buffer.md R139). Raised by the
  ring meanings; safe. -/
  | wrongRole
  /-- A chip or engine command from an agent that is not the owner (R152 item 4). Raised by the chip and engine
  meanings; safe. -/
  | notOwner
  /-- A read of the chip or engine by another agent that the host does not serialize, or that overlaps a command of
  the owner (R153). Raised by the chip and engine reads; safe. -/
  | unsyncedRead
  /-- SAMPLE_RATE < TICK_RATE at construction (R152 item 2). Raised by `constructEngine`; safe. -/
  | frameTooShort
  /-- A parameter outside the range of 00_scope.md R8, or a DRUM_BANK past the bound of 20_memory.md R45, at
  construction (the model's choice, log 17). Raised by `boot`; safe. -/
  | parameterOutOfRange
deriving DecidableEq, Repr

/-- How a step ends. -/
abbrev Outcome := Host.Outcome State Fault Refusal

/-! ### Reads and updates by name -/

namespace State

/-- The chip. -/
def chip (s : State) : ChipState := s.player.chip

/-- The engine. -/
def eng (s : State) : EngineState := s.player.eng

/-- An agent's port. -/
def port (s : State) : Agent → Port
  | .producer => s.prod
  | .consumer => s.cons
  | .other => s.other

def setPlayer (p : Player) (s : State) : State := { s with player := p }

def setChip (c : ChipState) (s : State) : State := { s with player := { s.player with chip := c } }

def setEng (e : EngineState) (s : State) : State := { s with player := { s.player with eng := e } }

def setRing (r : RingState) (s : State) : State := { s with ring := r }

def setPort (a : Agent) (p : Port) (s : State) : State :=
  match a with
  | .producer => { s with prod := p }
  | .consumer => { s with cons := p }
  | .other => { s with other := p }

/-- The agent begins, goes on with or ends a ring command. -/
def setBusy (a : Agent) (op : Option RingOp) (s : State) : State :=
  s.setPort a { s.port a with busy := op }

/-- Give the agent a result. -/
def deliver (a : Agent) (x : Answer) (s : State) : State :=
  s.setPort a { s.port a with answers := (s.port a).answers ++ [x] }

/-- The instructions after the one just fetched. -/
def setInput (a : Agent) (items : List Item) (s : State) : State :=
  s.setPort a { s.port a with input := items }

def setSched (l : List Agent) (s : State) : State := { s with sched := l }

def setIssuer (a : Agent) (s : State) : State := { s with issuer := a }

def setDraws (n : Nat) (s : State) : State := { s with draws := n }

/-- The machine after construction with the default parameters (70_reset_and_hazards.md R164, R167; 10_state.md
R44). RESET_MODE is Randomized by default, so the generators' phases are draws: the first draw's free values
(log 3). -/
def reset : State where
  cfg := Config.default
  player :=
    { chip :=
        { reg := Vector.replicate 16 0
          tcnt := ⟨Config.drawTcnt 0 .A, Config.drawTcnt 0 .B, Config.drawTcnt 0 .C⟩
          tout := ⟨Config.drawTout 0 .A, Config.drawTout 0 .B, Config.drawTout 0 .C⟩
          ncnt := Config.drawNcnt 0
          lfsr := BitVec.ofNat 17 ((Config.drawLfsr 0).val + 1)
          ecnt := 0
          estep := 0
          eup := false
          ehold := false
          sub := 0
          dcbuf := List.replicate 512 0
          dcsum := 0
          dcpos := 0
          sample := 0
          ovr := PerCh.all none
          drum := PerCh.all none
          mute := PerCh.all false }
      eng :=
        { state := .idle
          cursor := 0
          sif := 0
          flen := 0
          racc := 0
          slot := PerCh.all .empty
          seen := PerCh.all false
          fxq := none } }
  ring := { cap := 1024, buf := [], w := 0, r := 0, played := 0, under := 0 }
  prod := Port.idle
  cons := Port.idle
  other := Port.idle
  sched := []
  issuer := .producer
  draws := 1

end State

end Sys2Proof.Machine
end

