-- ==== Sys2Proof/Machine/Binary32.lean ====
section
/-! DEFINITION. `f32`, the conversion of an exact rational to binary32, to nearest with ties to even
(44_mixer_chip.md R99). It works on naturals, so the kernel can run it. -/

namespace Sys2Proof.Machine

/-- The natural nearest to `n / d`; of two equally near, the even one. -/
def roundDiv (n d : Nat) : Nat :=
  let q := n / d
  let r := n % d
  if 2 * r < d then q
  else if d < 2 * r then q + 1
  else q + q % 2

/-- The exponent `e` with `2^e <= n / d < 2^(e+1)`, for positive `n` and `d`. -/
def floorLog2 (n d : Nat) : Int :=
  let e : Int := (Nat.log2 n : Int) - (Nat.log2 d : Int)
  if n * 2 ^ (-e).toNat < d * 2 ^ e.toNat then e - 1 else e

/-- The bit pattern of the binary32 value nearest `n / d`, sign bit clear: 24 significant bits, fewer below 2^-126.
Past the largest finite value the pattern is infinity's; a quotient by 0 is given the pattern 0 (log 16: no rule
reaches either). -/
def f32Magnitude (n d : Nat) : Nat :=
  if n = 0 ∨ d = 0 then 0
  else
    let e := max (floorLog2 n d) (-126)
    let m := roundDiv (n * 2 ^ (23 - e).toNat) (d * 2 ^ (e - 23).toNat)
    min ((e + 126).toNat * 2 ^ 23 + m) 0x7F800000

/-- `f32(q)` for `q = num / den` (R99): zero is +0.0 and no result is -0.0. -/
def f32 (num : Int) (den : Nat) : F32 :=
  let m := f32Magnitude num.natAbs den
  if num < 0 ∧ m ≠ 0 then BitVec.ofNat 32 (2 ^ 31 + m) else BitVec.ofNat 32 m

end Sys2Proof.Machine
end

