-- ==== Sys2Proof/Machine/Operands.lean ====
section
/-! DEFINITION. The register map: every field of every register, with its effective value (spec/10_state.md §1), and
the derived parameters of 00_scope.md R8. -/

namespace Sys2Proof.Machine

/-- The registers in address order. -/
def allRegs : List RegNum := [0, 1, 2, 3, 4, 5, 6, 7, 8, 9, 10, 11, 12, 13, 14, 15]

/-- The bits each register stores (R15). -/
def maskTable : Bytes16 :=
  #v[0xFF, 0x0F, 0xFF, 0x0F, 0xFF, 0x0F, 0x1F, 0xFF, 0x1F, 0x1F, 0x1F, 0xFF, 0xFF, 0x0F, 0xFF, 0xFF]

/-- MASK (R15). -/
def regMask (a : RegNum) : Byte := maskTable[a]

/-- A register's stored byte. -/
def regAt (reg : Bytes16) (a : RegNum) : Byte := reg[a]

/-- R0, R2, R4: the low byte of a channel's tone period (R16). -/
def toneLoReg : Ch → RegNum
  | .A => 0
  | .B => 2
  | .C => 4

/-- R1, R3, R5: the high nibble of a channel's tone period (R16). -/
def toneHiReg : Ch → RegNum
  | .A => 1
  | .B => 3
  | .C => 5

/-- R8, R9, R10: a channel's volume and envelope select (R19). -/
def volReg : Ch → RegNum
  | .A => 8
  | .B => 9
  | .C => 10

/-- `TP[c]`, 12 bits (R16). -/
def tonePeriod (reg : Bytes16) (c : Ch) : Nat :=
  (regAt reg (toneHiReg c)).toNat % 16 * 256 + (regAt reg (toneLoReg c)).toNat

/-- `TPE[c]`: 0 acts as 1 (R16). -/
def tonePeriodEff (reg : Bytes16) (c : Ch) : Nat := max (tonePeriod reg c) 1

/-- `NP`, 5 bits (R17). -/
def noisePeriod (reg : Bytes16) : Nat := (regAt reg 6).toNat % 32

/-- `NPE`: 0 acts as 1 (R17). -/
def noisePeriodEff (reg : Bytes16) : Nat := max (noisePeriod reg) 1

/-- `TDIS[c]` (R18). -/
def toneDisabled (reg : Bytes16) (c : Ch) : Bool := (regAt reg 7).getLsbD c.num

/-- `NDIS[c]` (R18). -/
def noiseDisabled (reg : Bytes16) (c : Ch) : Bool := (regAt reg 7).getLsbD (3 + c.num)

/-- `VOL[c]`, 4 bits (R19). -/
def volume (reg : Bytes16) (c : Ch) : Nat := (regAt reg (volReg c)).toNat % 16

/-- `ENVSEL[c]` (R19). -/
def envSelect (reg : Bytes16) (c : Ch) : Bool := (regAt reg (volReg c)).getLsbD 4

/-- `EP`, 16 bits (R20). -/
def envPeriod (reg : Bytes16) : Nat := (regAt reg 12).toNat * 256 + (regAt reg 11).toNat

/-- `EPE`: 0 acts as 1 (R20). -/
def envPeriodEff (reg : Bytes16) : Nat := max (envPeriod reg) 1

/-- HOLD, bit 0 of R13 (R21). -/
def shapeHold (reg : Bytes16) : Bool := (regAt reg 13).getLsbD 0

/-- ALT, bit 1 of R13 (R21). -/
def shapeAlt (reg : Bytes16) : Bool := (regAt reg 13).getLsbD 1

/-- ATT, bit 2 of R13 (R21). -/
def shapeAtt (reg : Bytes16) : Bool := (regAt reg 13).getLsbD 2

/-- CONT, bit 3 of R13 (R21). -/
def shapeCont (reg : Bytes16) : Bool := (regAt reg 13).getLsbD 3

/-! ### Derived parameters (00_scope.md R8) -/

/-- `TICK_DIV = 8 * SAMPLE_RATE` (44_mixer_chip.md R96). -/
def tickDiv (cfg : Config) : Nat := 8 * cfg.sampleRate

/-- F, the number of frames. -/
def frameCount (cfg : Config) : Nat := cfg.frames.length

/-- Frame `k`; past the end the blank frame, which no run reads (log 15). -/
def frameAt (cfg : Config) (k : Nat) : Frame := cfg.frames.getD k Frame.blank

/-- LOOP_ENABLED: as given, else whether a loop point is given (45_playback.md R116). -/
def loopEnabled (cfg : Config) : Bool := cfg.loopEnabledGiven.getD cfg.loopPoint.isSome

/-- L: the loop point, 0 when none is given (R116). -/
def loopStart (cfg : Config) : Nat := cfg.loopPoint.getD 0

/-- `DRUM_BANK[id]`; an id that names no entry gives no bytes (46_effects.md R131 treats both alike). -/
def drumSample (cfg : Config) (id : Byte) : List Byte := cfg.drumBank.getD id.toNat []

/-- RB_CAPACITY: the least power of two that is at least `max(RB_REQUESTED_SIZE, 2)` (47_ring_buffer.md R137). -/
def ringCapacity (requested : Nat) : Nat :=
  if requested ≤ 2 then 2 else 2 ^ (Nat.log2 (requested - 1) + 1)

end Sys2Proof.Machine
end

