-- ==== Sys2Proof/Machine/Flags.lean ====
section
/-! DEFINITION. The one-bit values computed from the state: the noise output, the gate's terms, the envelope's
level from its direction, and the code of the playback state. -/

namespace Sys2Proof.Machine

/-- `NOUT = lfsr[0]` (10_state.md R28). -/
def noiseOut (c : ChipState) : Bool := c.lfsr.getLsbD 0

/-- The tone term of a channel's gate: the override's, else tone bit OR tone disabled (44_mixer_chip.md R89, R90). -/
def toneTerm (c : ChipState) (ch : Ch) : Bool :=
  match c.ovr.get ch with
  | some o => o.tone
  | none => c.tout.get ch || toneDisabled c.reg ch

/-- The noise term of a channel's gate: the override's, else noise bit OR noise disabled (R89, R90). -/
def noiseTerm (c : ChipState) (ch : Ch) : Bool :=
  match c.ovr.get ch with
  | some o => o.noise
  | none => noiseOut c || noiseDisabled c.reg ch

/-- `gate[c]` (R89). -/
def gate (c : ChipState) (ch : Ch) : Bool := toneTerm c ch && noiseTerm c ch

/-- ENVLEVEL: the step when rising, 31 less the step when falling (43_envelope.md R80). -/
def envLevel (c : ChipState) : BitVec 5 := if c.eup then c.estep else 31 - c.estep

/-- The code PB_STATE answers: Idle 0, Playing 1, Paused 2, Finished 3 (10_state.md R30, 45_playback.md R127). -/
def stateCode : PbState → Byte
  | .idle => 0
  | .playing => 1
  | .paused => 2
  | .finished => 3

end Sys2Proof.Machine
end

