-- ==== Sys2Proof/Machine/Ops.lean ====
section
/-! DEFINITION. The shared operations: the register file, the chip's hooks, the ring's slots and cursors, who may
issue what, and the points where one agent's command lets the other agent in. The block has no trap, no exception
entry and no return from one (60_exceptions.md R154, R156), so there is no such operation here. -/

namespace Sys2Proof.Machine

/-! ### The register file and the envelope's restart -/

/-- Store a byte's masked bits (10_state.md R14). -/
def maskedWrite (a : RegNum) (d : Byte) (c : ChipState) : ChipState :=
  { c with reg := c.reg.set a (d &&& regMask a) }

/-- ENV_RESTART (43_envelope.md R83). -/
def envRestart (c : ChipState) : ChipState :=
  { c with ecnt := 0, estep := 0, eup := shapeAtt c.reg, ehold := false }

/-- WRITE_REG on the chip (44_mixer_chip.md R100): a write of R13 restarts the envelope. -/
def writeReg (a : RegNum) (d : Byte) (c : ChipState) : ChipState :=
  if a = 13 then envRestart (maskedWrite a d c) else maskedWrite a d c

/-- LOAD_REGS on the chip (R102): all sixteen registers, then one restart. -/
def loadRegs (p : Bytes16) (c : ChipState) : ChipState :=
  envRestart (allRegs.foldl (fun c a => maskedWrite a (regAt p a) c) c)

/-! ### The hooks (46_effects.md R136) and the mute -/

def setMixerOvr (ch : Ch) (tone noise : Bool) (c : ChipState) : ChipState :=
  { c with ovr := c.ovr.set ch (some ⟨tone, noise⟩) }

def clrMixerOvr (ch : Ch) (c : ChipState) : ChipState :=
  { c with ovr := c.ovr.set ch none }

def setDrumOvr (ch : Ch) (b : Byte) (c : ChipState) : ChipState :=
  { c with drum := c.drum.set ch (some b) }

def clrDrumOvr (ch : Ch) (c : ChipState) : ChipState :=
  { c with drum := c.drum.set ch none }

def setMute (ch : Ch) (m : Bool) (c : ChipState) : ChipState :=
  { c with mute := c.mute.set ch m }

/-! ### The ring's slots -/

namespace Memory

/-- The value of a slot; `none` when nothing has written it (20_memory.md R45, 10_state.md R42). -/
def read : Memory → Nat → Option F32
  | [], _ => none
  | (j, y) :: m, i => if i = j then some y else read m i

/-- Write a slot, keeping the slots in rising order. -/
def write : Memory → Nat → F32 → Memory
  | [], i, x => [(i, x)]
  | (j, y) :: m, i, x =>
    if i < j then (i, x) :: (j, y) :: m
    else if i = j then (i, x) :: m
    else (j, y) :: write m i x

/-- The canonical form: slots strictly rising. -/
def wf : Memory → Bool
  | [] => true
  | [_] => true
  | (i, _) :: (j, y) :: m => decide (i < j) && wf ((j, y) :: m)

/-- Write samples to slots `i`, `i + 1`, ... mod `cap` (20_memory.md R45, R47). -/
def writeFrom (cap : Nat) : Memory → Nat → List F32 → Memory
  | m, _, [] => m
  | m, i, x :: xs => writeFrom cap (write m (i % cap) x) (i + 1) xs

/-- Read `n` slots from `i`, each index mod `cap`; `none` when one of them is unwritten (R45). -/
def readFrom (cap : Nat) (m : Memory) : Nat → Nat → Option (List F32)
  | _, 0 => some []
  | i, n + 1 =>
    match read m (i % cap), readFrom cap m (i + 1) n with
    | some x, some xs => some (x :: xs)
    | _, _ => none

end Memory

/-! ### The ring's cursors -/

/-- `(w - r) & mask`, the samples between two cursors: `mask = cap - 1` and `cap` is a power of two, so the mask is
the remainder mod `cap` (47_ring_buffer.md R141, R143; 44_mixer_chip.md R115). -/
def cursorGap (cap w r : Nat) : Nat := (w + cap - r) % cap

/-- `available_read` of a snapshot (R145). -/
def availRead (g : RingState) : Nat := cursorGap g.cap g.w g.r

/-- `available_write` of a snapshot: one slot stays empty (R144). -/
def availWrite (g : RingState) : Nat := g.cap - 1 - availRead g

/-- The commit sub-step of a write: the slots, then the write cursor (R141). -/
def commitWrite (xs : List F32) (n : Nat) (g : RingState) : RingState :=
  { g with buf := Memory.writeFrom g.cap g.buf g.w (xs.take n), w := (g.w + n) % g.cap }

/-- The cursor and the counters after a read of `n` of `count` samples (R143). -/
def advanceRead (count n : Nat) (g : RingState) : RingState :=
  { g with
    r := (g.r + n) % g.cap
    played := g.played + BitVec.ofNat 64 n
    under := if n < count then g.under + 1 else g.under }

/-- The commit sub-step of a flush (R147). -/
def commitFlush (wa : Nat) (g : RingState) : RingState := { g with r := wa }

/-! ### Who may issue what -/

/-- Chip and engine commands are the owner's (60_exceptions.md R152 item 4, R153). -/
def owned (s : State) (o : Outcome) : Outcome :=
  if s.issuer = .producer then o else .refused .notOwner

/-- Chip and engine reads are the owner's too; another agent's read that the host serializes with the owner's
commands counts as the owner's, unless a command of the owner is under way (R153; log 10). -/
def inspected (s : State) (o : Outcome) : Outcome :=
  if s.issuer = .producer ∨ ((s.port s.issuer).synced = true ∧ (s.port .producer).busy = none) then o
  else .refused .unsyncedRead

/-- A ring command of one role (47_ring_buffer.md R139; R152 item 3). -/
def hasRole (role : Agent) (s : State) (o : Outcome) : Outcome :=
  if s.issuer = role then o else .refused .wrongRole

/-- A ring query of either role (R139). -/
def hasEitherRole (s : State) (o : Outcome) : Outcome :=
  if s.issuer = .producer ∨ s.issuer = .consumer then o else .refused .wrongRole

/-! ### Sub-steps -/

/-- The point between two sub-steps of `a`'s ring command (R140): when the schedule gives the next sub-step to another
agent the step ends here, with the command under way; otherwise the command goes on (log 7). -/
def carryOn (a : Agent) (s : State) (k : State → Outcome) : Outcome :=
  match s.sched with
  | [] => k s
  | b :: rest => if b = a then k (s.setSched rest) else .next s

end Sys2Proof.Machine
end

