-- ==== Sys2Proof/Machine/Generators.lean ====
section
/-! DEFINITION. The generators' advance by one internal tick (spec/41_tone.md, 42_noise.md, 43_envelope.md) and
TICK (44_mixer_chip.md R97). Counters are taken to naturals, compared exactly and narrowed at the end. -/

namespace Sys2Proof.Machine

/-- TONE_TICK(c) (41_tone.md R69). -/
def toneTick (ch : Ch) (c : ChipState) : ChipState :=
  let n := (c.tcnt.get ch).toNat + 1
  if tonePeriodEff c.reg ch ≤ n then
    { c with tcnt := c.tcnt.set ch 0, tout := c.tout.set ch (!c.tout.get ch) }
  else
    { c with tcnt := c.tcnt.set ch (BitVec.ofNat 12 n) }

/-- LFSR_SHIFT (42_noise.md R75): right by one, bit 0 XOR bit 3 into bit 16. -/
def lfsrShift (v : BitVec 17) : BitVec 17 :=
  (v >>> 1) ||| (if v.getLsbD 0 ^^ v.getLsbD 3 then 0x10000 else 0)

/-- NOISE_TICK (42_noise.md R76). -/
def noiseTick (cfg : Config) (c : ChipState) : ChipState :=
  let n := c.ncnt.toNat + 1
  if cfg.noisePrescale * noisePeriodEff c.reg ≤ n then
    { c with ncnt := 0, lfsr := lfsrShift (if c.lfsr = 0 then cfg.noiseReseed else c.lfsr) }
  else
    { c with ncnt := BitVec.ofNat 6 n }

/-- ENV_ADVANCE (43_envelope.md R82). -/
def envAdvance (c : ChipState) : ChipState :=
  if c.ehold then c
  else if c.estep.toNat < 31 then { c with estep := c.estep + 1 }
  else if !shapeCont c.reg then { c with eup := false, estep := 31, ehold := true }
  else if shapeHold c.reg then
    { c with eup := if shapeAlt c.reg then !c.eup else c.eup, ehold := true }
  else
    { c with eup := if shapeAlt c.reg then !c.eup else c.eup, estep := 0 }

/-- ENV_TICK (43_envelope.md R81). -/
def envTick (c : ChipState) : ChipState :=
  let n := c.ecnt.toNat + 1
  if envPeriodEff c.reg ≤ n then envAdvance { c with ecnt := 0 }
  else { c with ecnt := BitVec.ofNat 16 n }

/-- TICK (44_mixer_chip.md R97): tones A, B, C, then noise, then envelope. -/
def tick (cfg : Config) (c : ChipState) : ChipState :=
  envTick (noiseTick cfg (toneTick .C (toneTick .B (toneTick .A c))))

/-- `k` internal ticks. -/
def ticks (cfg : Config) : Nat → ChipState → ChipState
  | 0, c => c
  | k + 1, c => ticks cfg k (tick cfg c)

end Sys2Proof.Machine
end

