-- ==== Sys2Proof/Machine/Mixer.lean ====
section
/-! DEFINITION. The per-sample path: levels, gates, mix, DC corrector, output conversion, and CLOCK
(spec/44_mixer_chip.md §2 to §4). -/

namespace Sys2Proof.Machine

/-- The level index of a channel, in [0, 31] (R88). -/
def levelIndex (c : ChipState) (ch : Ch) : BitVec 5 :=
  if envSelect c.reg ch then envLevel c
  else if volume c.reg ch = 0 then 0
  else BitVec.ofNat 5 (2 * volume c.reg ch + 1)

/-- An entry of LEVEL_TABLE (R87). -/
def levelAt (cfg : Config) (i : BitVec 5) : Nat := cfg.levelTable[i.toNat]'i.isLt

/-- The level code of a channel: mute over drum over normal mixing (R91, R92). -/
def levelCode (cfg : Config) (c : ChipState) (ch : Ch) : Nat :=
  if c.mute.get ch then 0
  else
    match c.drum.get ch with
    | some b => b.toNat * 257
    | none => if gate c ch then levelAt cfg (levelIndex c ch) else 0

/-- MIX (R93). -/
def mix (cfg : Config) (c : ChipState) : Nat :=
  levelCode cfg c .A + levelCode cfg c .B + levelCode cfg c .C

/-- DC_UPDATE (R94). -/
def dcUpdate (cfg : Config) (m : Nat) (c : ChipState) : ChipState :=
  { c with
    dcsum := c.dcsum + m - c.dcbuf.getD c.dcpos 0
    dcbuf := c.dcbuf.set c.dcpos m
    dcpos := (c.dcpos + 1) % cfg.dcWindow }

/-- The exact output's numerator: `DC_WINDOW * mix - dcsum` (R95). -/
def outputNum (cfg : Config) (m dcsum : Nat) : Int := (cfg.dcWindow * m : Nat) - (dcsum : Int)

/-- The exact output's denominator: `DC_WINDOW * 3 * 65535` (R95). -/
def outputDen (cfg : Config) : Nat := cfg.dcWindow * 3 * 65535

/-- What a CLOCK does after its ticks: mix, DC corrector, latch (R98, R104). -/
def takeSample (cfg : Config) (c : ChipState) : ChipState :=
  let m := mix cfg c
  let c' := dcUpdate cfg m c
  { c' with sample := f32 (outputNum cfg m c'.dcsum) (outputDen cfg) }

/-- The internal ticks of the next CLOCK (R96). -/
def dueTicks (cfg : Config) (c : ChipState) : Nat := (c.sub + cfg.masterClock) / tickDiv cfg

/-- CLOCK on the chip (R96, R104). -/
def clockChip (cfg : Config) (c : ChipState) : ChipState :=
  takeSample cfg
    (ticks cfg (dueTicks cfg c) { c with sub := (c.sub + cfg.masterClock) % tickDiv cfg })

/-- `n` CLOCKs, each followed by a read of its sample (R106). -/
def generateChip (cfg : Config) : Nat → ChipState → ChipState × List F32
  | 0, c => (c, [])
  | n + 1, c =>
    let c' := clockChip cfg c
    let r := generateChip cfg n c'
    (r.1, c'.sample :: r.2)

/-- RESET on the chip (R107); `n` counts the draws of Randomized mode (log 3). -/
def resetChip (cfg : Config) (mode : ResetMode) (n : Nat) : ChipState :=
  envRestart
    { reg := Vector.replicate 16 0
      tcnt := match mode with
        | .randomized => ⟨Config.drawTcnt n .A, Config.drawTcnt n .B, Config.drawTcnt n .C⟩
        | .deterministic => PerCh.all 0
      tout := match mode with
        | .randomized => ⟨Config.drawTout n .A, Config.drawTout n .B, Config.drawTout n .C⟩
        | .deterministic => PerCh.all false
      ncnt := match mode with
        | .randomized => Config.drawNcnt n
        | .deterministic => 0
      lfsr := match mode with
        | .randomized => BitVec.ofNat 17 ((Config.drawLfsr n).val + 1)
        | .deterministic => cfg.noiseReseed
      ecnt := 0
      estep := 0
      eup := false
      ehold := false
      sub := 0
      dcbuf := List.replicate cfg.dcWindow 0
      dcsum := 0
      dcpos := 0
      sample := 0
      ovr := PerCh.all none
      drum := PerCh.all none
      mute := PerCh.all false }

/-- The counter of draws after a RESET. -/
def drawsAfter : ResetMode → Nat → Nat
  | .randomized, n => n + 1
  | .deterministic, n => n

end Sys2Proof.Machine
end

