-- ==== Sys2Proof/Machine/Chip.lean ====
section
/-! DEFINITION. The meanings of the chip commands (spec/44_mixer_chip.md §5). None of them reports an error or
blocks (R114). -/

namespace Sys2Proof.Machine

/-- WRITE_REG (R100). -/
def execWriteReg (a : RegNum) (d : Byte) (s : State) : Outcome :=
  owned s (.next (s.setChip (writeReg a d s.chip)))

/-- READ_REG (R101): the stored, masked byte. -/
def execReadReg (a : RegNum) (s : State) : Outcome :=
  inspected s (.next (s.deliver s.issuer (.byte (regAt s.chip.reg a))))

/-- LOAD_REGS (R102). -/
def execLoadRegs (p : Bytes16) (s : State) : Outcome :=
  owned s (.next (s.setChip (loadRegs p s.chip)))

/-- DUMP_REGS (R103). -/
def execDumpRegs (s : State) : Outcome :=
  inspected s (.next (s.deliver s.issuer (.bytes s.chip.reg)))

/-- CLOCK (R104). -/
def execClock (s : State) : Outcome :=
  owned s (.next (s.setChip (clockChip s.cfg s.chip)))

/-- GET_SAMPLE (R105). -/
def execGetSample (s : State) : Outcome :=
  inspected s (.next (s.deliver s.issuer (.sample s.chip.sample)))

/-- CHIP_GENERATE (R106). -/
def execChipGenerate (count : Count) (s : State) : Outcome :=
  let r := generateChip s.cfg count.toNat s.chip
  owned s (.next ((s.setChip r.1).deliver s.issuer (.samples r.2)))

/-- RESET (R107): the chip alone; a Randomized reset takes a fresh draw (log 3). -/
def execReset (mode : ResetMode) (s : State) : Outcome :=
  owned s (.next ((s.setChip (resetChip s.cfg mode s.draws)).setDraws (drawsAfter mode s.draws)))

/-- TRIGGER_ENV (R108). -/
def execTriggerEnv (s : State) : Outcome :=
  owned s (.next (s.setChip (envRestart s.chip)))

/-- SET_MIXER_OVR (R109). -/
def execSetMixerOvr (ch : Ch) (forceTone forceNoise : Bool) (s : State) : Outcome :=
  owned s (.next (s.setChip (setMixerOvr ch forceTone forceNoise s.chip)))

/-- CLR_MIXER_OVR (R110). -/
def execClrMixerOvr (ch : Ch) (s : State) : Outcome :=
  owned s (.next (s.setChip (clrMixerOvr ch s.chip)))

/-- SET_DRUM_OVR (R111). -/
def execSetDrumOvr (ch : Ch) (d : Byte) (s : State) : Outcome :=
  owned s (.next (s.setChip (setDrumOvr ch d s.chip)))

/-- CLR_DRUM_OVR (R112). -/
def execClrDrumOvr (ch : Ch) (s : State) : Outcome :=
  owned s (.next (s.setChip (clrDrumOvr ch s.chip)))

/-- SET_MUTE (R113). -/
def execSetMute (ch : Ch) (m : Bool) (s : State) : Outcome :=
  owned s (.next (s.setChip (setMute ch m s.chip)))

end Sys2Proof.Machine
end

