-- ==== Sys2Proof/Machine/Effects.lean ====
section
/-! DEFINITION. The effects FSM (spec/46_effects.md): release, the decode of one effect word, FX_DECODE, FX_ADVANCE,
and the meanings of the four effect words. It touches the chip only through the hooks (R136). -/

namespace Sys2Proof.Machine

/-- Change the chip of a player. -/
def Player.onChip (f : ChipState → ChipState) (p : Player) : Player := { p with chip := f p.chip }

/-- Replace a channel's slot. -/
def Player.setSlot (ch : Ch) (x : Slot) (p : Player) : Player :=
  { p with eng := { p.eng with slot := p.eng.slot.set ch x } }

/-- A Sid or Buzz word named the channel (R131). -/
def Player.markSeen (ch : Ch) (p : Player) : Player :=
  { p with eng := { p.eng with seen := p.eng.seen.set ch true } }

/-- A channel's slot. -/
def Player.slotOf (p : Player) (ch : Ch) : Slot := p.eng.slot.get ch

/-! ### Release -/

/-- RELEASE(c) (R130): clear the override that the slot's effect set, and empty the slot. -/
def release (ch : Ch) (p : Player) : Player :=
  match p.slotOf ch with
  | .empty => p
  | .drum _ _ _ _ => (p.onChip (clrDrumOvr ch)).setSlot ch .empty
  | .sid _ _ _ => (p.onChip (clrMixerOvr ch)).setSlot ch .empty
  | .buzz _ _ => (p.onChip (clrMixerOvr ch)).setSlot ch .empty

/-- RELEASE_ALL (R130). -/
def releaseAll (p : Player) : Player := release .C (release .B (release .A p))

/-! ### One effect word (the loop body of R131) -/

/-- A DIGIDRUM word: ignored when the channel or the rate is invalid or the sample is absent or empty, else the
drum starts from its first byte. -/
def fxDigidrum (cfg : Config) (fch : BitVec 2) (id : Byte) (rate : BitVec 20) (p : Player) : Player :=
  match chOfNat fch.toNat, drumSample cfg id with
  | some ch, b :: _ =>
    if rate = 0 then p
    else ((release ch p).setSlot ch (.drum id 0 0 rate)).onChip (setDrumOvr ch b)
  | _, _ => p

/-- A SID word: a running Sid takes the new rate, otherwise a Sid starts with its gate open. -/
def fxSid (fch : BitVec 2) (rate : BitVec 20) (p : Player) : Player :=
  match chOfNat fch.toNat with
  | some ch =>
    if rate = 0 then p
    else
      match p.slotOf ch with
      | .sid high acc _ => (p.markSeen ch).setSlot ch (.sid high acc rate)
      | _ =>
        ((release ch (p.markSeen ch)).setSlot ch (.sid true 0 rate)).onChip (setMixerOvr ch true true)
  | none => p

/-- A SYNCBUZZ word: a running Buzz takes the new rate, otherwise a Buzz starts with its gate open and the envelope
restarted. -/
def fxSyncbuzz (fch : BitVec 2) (rate : BitVec 20) (p : Player) : Player :=
  match chOfNat fch.toNat with
  | some ch =>
    if rate = 0 then p
    else
      match p.slotOf ch with
      | .buzz acc _ => (p.markSeen ch).setSlot ch (.buzz acc rate)
      | _ =>
        (((release ch (p.markSeen ch)).setSlot ch (.buzz 0 rate)).onChip (setMixerOvr ch true true)).onChip envRestart
  | none => p

/-- One effect word, by KIND (R131). -/
def fxWord (cfg : Config) (w : Word) (p : Player) : Player :=
  match field w 31 30 with
  | 0 => p
  | 1 => fxDigidrum cfg (fchField w) (idField w) (rateField w) p
  | 2 => fxSid (fchField w) (rateField w) p
  | _ => fxSyncbuzz (fchField w) (rateField w) p

/-! ### FX_DECODE -/

/-- The release of a Sid or Buzz that no word of the frame renewed (the last loop of R131). -/
def releaseUnseen (ch : Ch) (p : Player) : Player :=
  match p.slotOf ch with
  | .empty => p
  | .drum _ _ _ _ => p
  | .sid _ _ _ => if p.eng.seen.get ch then p else release ch p
  | .buzz _ _ => if p.eng.seen.get ch then p else release ch p

/-- The decode's working state before its first word and after its last. -/
def Player.clearDecode (p : Player) : Player :=
  { p with eng := { p.eng with seen := PerCh.all false, fxq := none } }

/-- The end of FX_DECODE: unrenewed slots are released, and the decode is over. -/
def fxFinish (p : Player) : Player :=
  (releaseUnseen .C (releaseUnseen .B (releaseUnseen .A p))).clearDecode

/-- FX_DECODE over a frame's effect words (R131). -/
def fxDecode (cfg : Config) (ws : List Word) (p : Player) : Player :=
  fxFinish (ws.foldl (fun p w => fxWord cfg w p) p.clearDecode)

/-! ### FX_ADVANCE -/

/-- EVENT(c) (R133, R134, R135), the slot's accumulator already reduced. -/
def fxEvent (cfg : Config) (ch : Ch) (p : Player) : Player :=
  match p.slotOf ch with
  | .empty => p
  | .drum id cur acc rate =>
    match (drumSample cfg id)[cur + 1]? with
    | some b => (p.setSlot ch (.drum id (cur + 1) acc rate)).onChip (setDrumOvr ch b)
    | none => release ch p
  | .sid high acc rate => (p.setSlot ch (.sid (!high) acc rate)).onChip (setMixerOvr ch (!high) (!high))
  | .buzz _ _ => p.onChip envRestart

/-- A slot's accumulator (R129); an empty slot has none. -/
def Slot.acc? : Slot → Option Nat
  | .empty => none
  | .drum _ _ acc _ => some acc
  | .sid _ acc _ => some acc
  | .buzz acc _ => some acc

/-- A slot with another accumulator value. -/
def Slot.withAcc (acc : Nat) : Slot → Slot
  | .empty => .empty
  | .drum id cur _ rate => .drum id cur acc rate
  | .sid high _ rate => .sid high acc rate
  | .buzz _ rate => .buzz acc rate

/-- A slot's event rate (R129). -/
def Slot.rate : Slot → Nat
  | .empty => 0
  | .drum _ _ _ rate => rate.toNat
  | .sid _ _ rate => rate.toNat
  | .buzz _ rate => rate.toNat

/-- The `while` loop of R132: at most `n` events of one channel. -/
def runEvents (cfg : Config) (ch : Ch) : Nat → Player → Player
  | 0, p => p
  | n + 1, p =>
    match (p.slotOf ch).acc? with
    | none => p
    | some acc =>
      if cfg.sampleRate ≤ acc then
        runEvents cfg ch n (fxEvent cfg ch (p.setSlot ch ((p.slotOf ch).withAcc (acc - cfg.sampleRate))))
      else p

/-- FX_ADVANCE for one channel (R132). Each event takes SAMPLE_RATE off the accumulator, so `acc div SAMPLE_RATE`
bounds the loop (log 20). -/
def fxAdvanceCh (cfg : Config) (ch : Ch) (p : Player) : Player :=
  match (p.slotOf ch).acc? with
  | none => p
  | some acc =>
    let acc' := acc + (p.slotOf ch).rate
    runEvents cfg ch (acc' / cfg.sampleRate) (p.setSlot ch ((p.slotOf ch).withAcc acc'))

/-- FX_ADVANCE (R132): channels A, B, C in turn. -/
def fxAdvance (cfg : Config) (p : Player) : Player :=
  fxAdvanceCh cfg .C (fxAdvanceCh cfg .B (fxAdvanceCh cfg .A p))

/-! ### The meanings of the effect words

Each is the loop body of FX_DECODE (R131) for one word. `step` runs one as an instruction of its own only when a
decode is under way (log 11); the frame loads inside the engine's commands run the same definitions. -/

/-- FX_NOP: an ignored word (R131). -/
def execFxNop (_fch : BitVec 2) (_id : Byte) (_rate : BitVec 20) (s : State) : Outcome := .next s

/-- FX_DIGIDRUM (R131). -/
def execFxDigidrum (fch : BitVec 2) (id : Byte) (rate : BitVec 20) (s : State) : Outcome :=
  .next (s.setPlayer (fxDigidrum s.cfg fch id rate s.player))

/-- FX_SID (R131); the id field is ignored (30_encoding.md R64). -/
def execFxSid (fch : BitVec 2) (_id : Byte) (rate : BitVec 20) (s : State) : Outcome :=
  .next (s.setPlayer (fxSid fch rate s.player))

/-- FX_SYNCBUZZ (R131); the id field is ignored (R64). -/
def execFxSyncbuzz (fch : BitVec 2) (_id : Byte) (rate : BitVec 20) (s : State) : Outcome :=
  .next (s.setPlayer (fxSyncbuzz fch rate s.player))

end Sys2Proof.Machine
end

