-- ==== Sys2Proof/Machine/Playback.lean ====
section
/-! DEFINITION. The frame sequencer and the playback engine (spec/45_playback.md): frame timing, frame loads, one
engine sample, and the meanings of the engine commands. -/

namespace Sys2Proof.Machine

/-- Change the engine of a player. -/
def Player.onEng (f : EngineState → EngineState) (p : Player) : Player := { p with eng := f p.eng }

/-! ### Frame timing and loading -/

/-- FRAME_LEN (R117). -/
def frameLen (cfg : Config) (e : EngineState) : EngineState :=
  let racc := e.racc + cfg.sampleRate % cfg.tickRate
  if cfg.tickRate ≤ racc then
    { e with racc := racc - cfg.tickRate, flen := cfg.sampleRate / cfg.tickRate + 1 }
  else
    { e with racc := racc, flen := cfg.sampleRate / cfg.tickRate }

/-- One register of a frame load: byte 13 of 0xFF leaves R13 and the envelope alone when FRAME_R13_SKIP_FF holds
(R118). -/
def loadFrameReg (cfg : Config) (b : Bytes16) (c : ChipState) (a : RegNum) : ChipState :=
  if a = 13 ∧ cfg.frameR13SkipFf = true ∧ regAt b 13 = 0xFF then c else writeReg a (regAt b a) c

/-- The register writes of FRAME_LOAD (R118), in address order. -/
def loadFrameRegs (cfg : Config) (b : Bytes16) (c : ChipState) : ChipState :=
  allRegs.foldl (loadFrameReg cfg b) c

/-- FRAME_LOAD(k) (R118): the registers, FRAME_LEN, FX_DECODE. -/
def frameLoad (cfg : Config) (k : Nat) (p : Player) : Player :=
  let f := frameAt cfg k
  fxDecode cfg f.fx ((p.onChip (loadFrameRegs cfg f.bytes)).onEng (frameLen cfg))

/-! ### One sample -/

/-- The end of a frame (R119): the next frame, the loop point, or Finished. -/
def endFrame (cfg : Config) (p : Player) : Player :=
  let next := p.eng.cursor + 1
  if next = frameCount cfg then
    if loopEnabled cfg then
      frameLoad cfg (loopStart cfg) (p.onEng fun e => { e with sif := 0, cursor := loopStart cfg })
    else
      releaseAll (p.onEng fun e => { e with sif := 0, cursor := next, state := .finished })
  else
    frameLoad cfg next (p.onEng fun e => { e with sif := 0, cursor := next })

/-- SAMPLE_STEP (R119) without its result: CLOCK, FX_ADVANCE, then the frame counter. -/
def sampleStep (cfg : Config) (p : Player) : Player :=
  let p := fxAdvance cfg (p.onChip (clockChip cfg))
  if p.eng.sif + 1 = p.eng.flen then endFrame cfg p
  else p.onEng fun e => { e with sif := e.sif + 1 }

/-- The value SAMPLE_STEP returns: the sample of its CLOCK (R119). -/
def sampleOut (cfg : Config) (p : Player) : F32 := (clockChip cfg p.chip).sample

/-- `n` samples of the engine (R123): a SAMPLE_STEP while Playing, else +0.0 and no effect. -/
def generateEngine (cfg : Config) : Nat → Player → Player × List F32
  | 0, p => (p, [])
  | n + 1, p =>
    if p.eng.state = .playing then
      let r := generateEngine cfg n (sampleStep cfg p)
      (r.1, sampleOut cfg p :: r.2)
    else
      let r := generateEngine cfg n p
      (r.1, 0 :: r.2)

/-! ### The commands on a player -/

/-- PLAY (R120). -/
def play (cfg : Config) (p : Player) : Player :=
  match p.eng.state with
  | .idle | .finished =>
    let k := if p.eng.cursor = frameCount cfg then 0 else p.eng.cursor
    (frameLoad cfg k (p.onEng fun e => { e with cursor := k, sif := 0 })).onEng
      fun e => { e with state := .playing }
  | .paused => p.onEng fun e => { e with state := .playing }
  | .playing => p

/-- PAUSE (R121). -/
def pause (p : Player) : Player :=
  match p.eng.state with
  | .playing => p.onEng fun e => { e with state := .paused }
  | .idle | .paused | .finished => p

/-- STOP (R122): the chip keeps its registers, generators, DC window and mutes; `flen` keeps its value. -/
def stop (p : Player) : Player :=
  (releaseAll p).onEng fun e => { e with state := .idle, cursor := 0, sif := 0, racc := 0 }

/-- SEEK (R125): the target is clamped to the last frame and loaded; the playback state is kept. -/
def seek (cfg : Config) (target : Nat) (p : Player) : Player :=
  let f := min target (frameCount cfg - 1)
  frameLoad cfg f ((releaseAll p).onEng fun e => { e with cursor := f, sif := 0 })

/-! ### The meanings -/

/-- PB_PLAY (R120). -/
def execPbPlay (s : State) : Outcome := owned s (.next (s.setPlayer (play s.cfg s.player)))

/-- PB_PAUSE (R121). -/
def execPbPause (s : State) : Outcome := owned s (.next (s.setPlayer (pause s.player)))

/-- PB_STOP (R122). -/
def execPbStop (s : State) : Outcome := owned s (.next (s.setPlayer (stop s.player)))

/-- PB_GENERATE (R123). -/
def execPbGenerate (count : Count) (s : State) : Outcome :=
  let r := generateEngine s.cfg count.toNat s.player
  owned s (.next ((s.setPlayer r.1).deliver s.issuer (.samples r.2)))

/-- PB_POSITION (R124): whole frames only. -/
def execPbPosition (s : State) : Outcome :=
  inspected s (.next (s.deliver s.issuer (.sample (f32 s.eng.cursor (frameCount s.cfg)))))

/-- PB_SEEK (R125). -/
def execPbSeek (target : Count) (s : State) : Outcome :=
  owned s (.next (s.setPlayer (seek s.cfg target.toNat s.player)))

/-- PB_SET_MUTE (R126): forwarded to the chip. -/
def execPbSetMute (ch : Ch) (m : Bool) (s : State) : Outcome :=
  owned s (.next (s.setChip (setMute ch m s.chip)))

/-- PB_STATE (R127). -/
def execPbState (s : State) : Outcome :=
  inspected s (.next (s.deliver s.issuer (.byte (stateCode s.eng.state))))

end Sys2Proof.Machine
end

