-- ==== Sys2Proof/Machine/Ring.lean ====
section
/-! DEFINITION. The meanings of the ring commands (spec/47_ring_buffer.md) as the sub-steps of R140: a command loads,
then, unless the schedule lets the other agent in (log 7), commits. A command left between two sub-steps stands in its
agent's port and `resumeOp` takes it on. -/

namespace Sys2Proof.Machine

/-! ### Sub-steps -/

/-- How many of `count` offered samples fit now (the load of R141), the read cursor loaded being the newest (log 13). -/
def fitting (g : RingState) (count : Nat) : Nat := min count (availWrite g)

/-- RB_WRITE_NB's commit: write, publish, answer (R141). -/
def finishWrite (xs : List F32) (n : Nat) (s : State) : Outcome :=
  .next (((s.setRing (commitWrite xs n s.ring)).setBusy .producer none).deliver .producer (.nat n))

/-- RB_WRITE_BLK's commit (R142): write and publish, then answer when all is written or the sleeps are used up, else
go to sleep; a sleep always ends the step (log 7). -/
def finishWriteBlk (rest : List F32) (n done sleeps : Nat) (s : State) : Outcome :=
  let s' := s.setRing (commitWrite rest n s.ring)
  if n = rest.length ∨ sleeps = s.cfg.rbRetryLimit then
    .next ((s'.setBusy .producer none).deliver .producer (.nat (done + n)))
  else
    .next (s'.setBusy .producer (some (.asleep (rest.drop n) (done + n) (sleeps + 1))))

/-- RB_WRITE_BLK's write attempt (R142): the load of R141, then its commit. -/
def attemptWriteBlk (rest : List F32) (done sleeps : Nat) (s : State) : Outcome :=
  let n := fitting s.ring rest.length
  carryOn .producer (s.setBusy .producer (some (.writeBlk rest n done sleeps)))
    (finishWriteBlk rest n done sleeps)

/-- RB_READ's commit (R143): read, free, count, answer. A slot that nothing has written faults (20_memory.md R45). -/
def finishRead (count n : Nat) (s : State) : Outcome :=
  match Memory.readFrom s.ring.cap s.ring.buf s.ring.r n with
  | some xs =>
    .next (((s.setRing (advanceRead count n s.ring)).setBusy .consumer none).deliver .consumer (.read n xs))
  | none => .fault .unwrittenSlot

/-- RB_FLUSH's commit (R147). -/
def finishFlush (wa : Nat) (s : State) : Outcome :=
  .next ((s.setRing (commitFlush wa s.ring)).setBusy .consumer none)

/-- The producer's second load of RB_STATS (R140, R148). It gives the newest `under`: DESIGN CHOICE (log 13), where the
spec promises no order for the counters (20_memory.md R55) and lets the producer's snapshot lag (R148). -/
def finishStats (played : BitVec 64) (s : State) : Outcome :=
  .next ((s.setBusy .producer none).deliver .producer (.stats played s.ring.under))

/-- The next sub-step of a command under way (R140, R142). -/
def resumeOp (op : RingOp) (s : State) : Outcome :=
  match op with
  | .write xs n => finishWrite xs n s
  | .writeBlk rest n done sleeps => finishWriteBlk rest n done sleeps s
  | .asleep rest done sleeps => attemptWriteBlk rest done sleeps s
  | .read count n => finishRead count n s
  | .flush wa => finishFlush wa s
  | .stats played => finishStats played s

/-! ### The meanings -/

/-- RB_WRITE_NB (R141). -/
def execRbWriteNb (xs : List F32) (s : State) : Outcome :=
  let n := fitting s.ring xs.length
  hasRole .producer s
    (carryOn .producer (s.setBusy .producer (some (.write xs n))) (finishWrite xs n))

/-- RB_WRITE_BLK (R142). -/
def execRbWriteBlk (xs : List F32) (s : State) : Outcome :=
  hasRole .producer s (attemptWriteBlk xs 0 0 s)

/-- RB_READ (R143). -/
def execRbRead (count : Count) (s : State) : Outcome :=
  let n := min count.toNat (availRead s.ring)
  hasRole .consumer s
    (carryOn .consumer (s.setBusy .consumer (some (.read count.toNat n))) (finishRead count.toNat n))

/-- RB_AVAIL_WRITE (R144): one snapshot of the cursors. -/
def execRbAvailWrite (s : State) : Outcome :=
  hasEitherRole s (.next (s.deliver s.issuer (.nat (availWrite s.ring))))

/-- RB_AVAIL_READ (R145): one snapshot of the cursors. -/
def execRbAvailRead (s : State) : Outcome :=
  hasEitherRole s (.next (s.deliver s.issuer (.nat (availRead s.ring))))

/-- RB_FILL_PCT (R146): one snapshot of the cursors. -/
def execRbFillPct (s : State) : Outcome :=
  hasEitherRole s
    (.next (s.deliver s.issuer (.sample (f32 (100 * availRead s.ring : Nat) (s.ring.cap - 1)))))

/-- RB_FLUSH (R147). -/
def execRbFlush (s : State) : Outcome :=
  hasRole .consumer s
    (carryOn .consumer (s.setBusy .consumer (some (.flush s.ring.w))) (finishFlush s.ring.w))

/-- RB_STATS (R148): exact from the consumer, two loads from the producer (R140). That the producer's loads give the
newest counters is a DESIGN CHOICE (log 13): the spec promises them no order (20_memory.md R55), so that hardware may
answer counters older than the consumer's last commit. -/
def execRbStats (s : State) : Outcome :=
  match s.issuer with
  | .consumer => .next (s.deliver .consumer (.stats s.ring.played s.ring.under))
  | .producer =>
    carryOn .producer (s.setBusy .producer (some (.stats s.ring.played))) (finishStats s.ring.played)
  | .other => .refused .wrongRole

end Sys2Proof.Machine
end

