-- ==== Sys2Proof/Machine/Dispatch.lean ====
section
/-! DEFINITION. What each instruction does: one arm per constructor, each a direct call of its meaning. -/

namespace Sys2Proof.Machine

def exec (i : Instr) (s : State) : Host.Outcome State Fault Refusal :=
  match i with
  | .writeReg a d => Sys2Proof.Machine.execWriteReg a d s
  | .readReg a => Sys2Proof.Machine.execReadReg a s
  | .loadRegs p => Sys2Proof.Machine.execLoadRegs p s
  | .dumpRegs => Sys2Proof.Machine.execDumpRegs s
  | .clock => Sys2Proof.Machine.execClock s
  | .getSample => Sys2Proof.Machine.execGetSample s
  | .chipGenerate n => Sys2Proof.Machine.execChipGenerate n s
  | .reset mode => Sys2Proof.Machine.execReset mode s
  | .triggerEnv => Sys2Proof.Machine.execTriggerEnv s
  | .setMixerOvr ch ft fn => Sys2Proof.Machine.execSetMixerOvr ch ft fn s
  | .clrMixerOvr ch => Sys2Proof.Machine.execClrMixerOvr ch s
  | .setDrumOvr ch d => Sys2Proof.Machine.execSetDrumOvr ch d s
  | .clrDrumOvr ch => Sys2Proof.Machine.execClrDrumOvr ch s
  | .setMute ch m => Sys2Proof.Machine.execSetMute ch m s
  | .pbPlay => Sys2Proof.Machine.execPbPlay s
  | .pbPause => Sys2Proof.Machine.execPbPause s
  | .pbStop => Sys2Proof.Machine.execPbStop s
  | .pbGenerate n => Sys2Proof.Machine.execPbGenerate n s
  | .pbPosition => Sys2Proof.Machine.execPbPosition s
  | .pbSeek n => Sys2Proof.Machine.execPbSeek n s
  | .pbSetMute ch m => Sys2Proof.Machine.execPbSetMute ch m s
  | .pbState => Sys2Proof.Machine.execPbState s
  | .rbWriteNb xs => Sys2Proof.Machine.execRbWriteNb xs s
  | .rbWriteBlk xs => Sys2Proof.Machine.execRbWriteBlk xs s
  | .rbRead n => Sys2Proof.Machine.execRbRead n s
  | .rbAvailWrite => Sys2Proof.Machine.execRbAvailWrite s
  | .rbAvailRead => Sys2Proof.Machine.execRbAvailRead s
  | .rbFillPct => Sys2Proof.Machine.execRbFillPct s
  | .rbFlush => Sys2Proof.Machine.execRbFlush s
  | .rbStats => Sys2Proof.Machine.execRbStats s
  | .fxNop fch id rate => Sys2Proof.Machine.execFxNop fch id rate s
  | .fxDigidrum fch id rate => Sys2Proof.Machine.execFxDigidrum fch id rate s
  | .fxSid fch id rate => Sys2Proof.Machine.execFxSid fch id rate s
  | .fxSyncbuzz fch id rate => Sys2Proof.Machine.execFxSyncbuzz fch id rate s

end Sys2Proof.Machine
end

