-- ==== Sys2Proof/Machine/Construct.lean ====
section
/-! DEFINITION. Construction of the units (spec/70_reset_and_hazards.md R164, R167): the host's acts before any agent
issues a command. They are functions, not steps (log 17). -/

namespace Sys2Proof.Machine

/-- The block's only errors (60_exceptions.md R150). -/
inductive ConfigError where
  | zeroFrames
  | loopPointOutOfRange
deriving DecidableEq, Repr

/-- The error codes (R150). -/
def ConfigError.code : ConfigError → Nat
  | .zeroFrames => 1
  | .loopPointOutOfRange => 2

/-- How a construction ends: with the thing built, with a configuration error and nothing built, or refused. -/
inductive Built (α : Type) where
  | built (x : α)
  | error (e : ConfigError)
  | refused (r : Refusal)
deriving DecidableEq, Repr

/-- Chip construction is RESET with RESET_MODE (44_mixer_chip.md R107). -/
def constructChip (cfg : Config) (draw : Nat) : ChipState := resetChip cfg cfg.resetMode draw

/-- Engine construction (45_playback.md R116): ZeroFrames is checked first. -/
def constructEngine (cfg : Config) : Built EngineState :=
  if frameCount cfg = 0 then .error .zeroFrames
  else if cfg.loopPoint.any (fun l => decide (frameCount cfg ≤ l)) then .error .loopPointOutOfRange
  else if cfg.sampleRate < cfg.tickRate then .refused .frameTooShort
  else
    .built
      { state := .idle, cursor := 0, sif := 0, flen := 0, racc := 0,
        slot := PerCh.all .empty, seen := PerCh.all false, fxq := none }

/-- Ring construction (47_ring_buffer.md R137, R138). -/
def constructRing (cfg : Config) : RingState :=
  { cap := ringCapacity cfg.rbRequestedSize, buf := [], w := 0, r := 0, played := 0, under := 0 }

/-- LEVEL_TABLE's constraints (44_mixer_chip.md R87): 0 first, 65535 last, non-decreasing. -/
def levelTableOk (t : Vector Nat 32) : Bool :=
  t[0] == 0 && t[31] == 65535 && (List.zipWith (fun x y => decide (x ≤ y)) t.toList t.toList.tail).all id

/-- The ranges of 00_scope.md R8, but for what engine construction reports itself, and the bound of 256 entries that
20_memory.md R45 gives DRUM_BANK. DESIGN CHOICE (log 17): R8 bounds no DRUM_BANK, R45 says nothing of a longer one, and
60_exceptions.md R152 lists no refusal of it; here such a bank is out of range. -/
def paramsInRange (cfg : Config) : Bool :=
  decide (0 < cfg.masterClock) && decide (0 < cfg.sampleRate) && decide (0 < cfg.tickRate)
    && levelTableOk cfg.levelTable
    && (cfg.noisePrescale == 1 || cfg.noisePrescale == 2)
    && decide (cfg.noiseReseed ≠ 0) && decide (1 ≤ cfg.dcWindow) && decide (1 ≤ cfg.rbChannelCount)
    && decide (cfg.drumBank.length ≤ 256)

/-- Boot (70_reset_and_hazards.md R167): parameters, chip, engine, ring, roles. The first Randomized draw is draw 0. -/
def boot (cfg : Config) : Built State :=
  if paramsInRange cfg then
    match constructEngine cfg with
    | .built e =>
      .built
        { cfg := cfg
          player := { chip := constructChip cfg 0, eng := e }
          ring := constructRing cfg
          prod := Port.idle
          cons := Port.idle
          other := Port.idle
          sched := []
          issuer := .producer
          draws := drawsAfter cfg.resetMode 0 }
    | .error e => .error e
    | .refused r => .refused r
  else .refused .parameterOutOfRange

end Sys2Proof.Machine
end

