-- ==== Sys2Proof/Machine/Fetch.lean ====
section
/-! DEFINITION. Which agent moves next and what it does: the fetch of a step, and the placing of a bare word where the
next step fetches it. -/

namespace Sys2Proof.Machine

/-- What a step does. -/
inductive Fetched where
  /-- Run the instruction at the state, its words already taken from the input. -/
  | instr (i : Instr) (s : State)
  /-- Take a ring command under way to its next sub-step. -/
  | resume (op : RingOp) (s : State)
  /-- FX_DECODE has taken its last word. -/
  | finishFx (s : State)
  /-- Nobody has anything to issue. -/
  | idle (s : State)
  /-- The input is no command. -/
  | refused (r : Refusal)
deriving DecidableEq, Repr

/-- Whether the agent is asleep in RB_WRITE_BLK (47_ring_buffer.md R142). -/
def Port.asleep (p : Port) : Bool :=
  match p.busy with
  | some (.asleep _ _ _) => true
  | some (.write _ _) | some (.writeBlk _ _ _ _) | some (.read _ _) | some (.flush _) | some (.stats _)
  | none => false

/-- Whether the agent has a sub-step to take without waking from a sleep. -/
def Port.ready (p : Port) : Bool :=
  match p.busy with
  | some _ => !p.asleep
  | none => !p.input.isEmpty

/-- The agent that moves next: the schedule's first; when the schedule is empty, the first of producer, consumer and
other that is ready, else a sleeper (log 6). -/
def nextAgent (s : State) : Option Agent :=
  match s.sched with
  | a :: _ => some a
  | [] =>
    if (s.port .producer).ready then some .producer
    else if (s.port .consumer).ready then some .consumer
    else if (s.port .other).ready then some .other
    else if (s.port .producer).asleep then some .producer
    else if (s.port .consumer).asleep then some .consumer
    else if (s.port .other).asleep then some .other
    else none

/-- What agent `a` does: it goes on with its ring command, or issues its next command. -/
def fetchFor (a : Agent) (s : State) : Fetched :=
  match (s.port a).busy with
  | some op => .resume op (s.setIssuer a)
  | none =>
    match decode (s.port a).input with
    | .ok (i, rest) => .instr i ((s.setInput a rest).setIssuer a)
    | .error .noWord => .idle s
    | .error e => .refused (.badCommand e)

/-- What the machine does next: an unfinished FX_DECODE first (log 11), then the agent whose turn it is. -/
def fetch (s : State) : Fetched :=
  match s.eng.fxq with
  | some (w :: ws) => .instr (decodeEffect w) (s.setEng { s.eng with fxq := some ws })
  | some [] => .finishFx (s.setPlayer (fxFinish s.player))
  | none =>
    match nextAgent s with
    | some a => fetchFor a (s.setSched s.sched.tail)
    | none => .idle s

/-! ### Placing a bare word -/

/-- The agent a bare command word is given to: RB_READ and RB_FLUSH are the consumer's, every other command with one
issuer the producer's (00_scope.md R7, 47_ring_buffer.md R139). DESIGN CHOICE (log 12): RB_AVAIL_WRITE, RB_AVAIL_READ,
RB_FILL_PCT and RB_STATS may be issued by either (R139), the host chooses (R7), and here they are the producer's too. -/
def issuerOf (w : Word) : Agent := if opcode w = 0x22 ∨ opcode w = 0x26 then .consumer else .producer

/-- Put a command at the head of an agent's input, give the agent the next turn, and leave no command of the agent and
no decode under way before it. -/
def placeCommand (a : Agent) (items : List Item) (s : State) : State :=
  let p := s.port a
  ((s.setPort a { p with input := items ++ p.input, busy := none }).setSched (a :: s.sched)).setEng
    { s.eng with fxq := none }

/-- Put an effect word first among those FX_DECODE has to take. -/
def placeEffect (w : Word) (s : State) : State :=
  s.setEng { s.eng with fxq := some (w :: s.eng.fxq.getD []) }

/-- Put a bare word of the opcode table where the next step fetches it (log 4, 12). -/
def placeWord (w : Word) (s : State) : State :=
  if opcodeAssigned w then placeCommand (issuerOf w) (.word w :: zeroPayload w) s else placeEffect w s

end Sys2Proof.Machine
end

