-- ==== Sys2Proof/Machine/Step.lean ====
section
/-! DEFINITION. One step of the machine, and the state in which the next step runs a given word of the opcode
table. -/

namespace Sys2Proof.Machine

/-- One step: what `fetch` finds to do (log 4, 6, 7, 11). -/
def step (s : State) : Host.Outcome State Fault Refusal :=
  match fetch s with
  | .instr i s' => exec i s'
  | .resume op s' => resumeOp op s'
  | .finishFx s' => .next s'
  | .idle s' => .next s'
  | .refused r => .refused r

/-- `s` with the table word `w` placed where `step` fetches its next instruction (log 4, 12). -/
def State.withFetchWord (s : State) (nbits w : Nat) : State := placeWord (tableWord nbits w) s

end Sys2Proof.Machine
end

