-- ==== Sys2Proof/Safety.lean ====
section
/-! DEFINITION. What claims are stated in: the invariant that construction establishes and every step keeps, the
ring's unread samples, who may issue an instruction, runs of instructions without the fetch, and the spec's tables
that are written a second time here, apart from the model's own computation of them. -/

namespace Sys2Proof

/-! ### Kinds of instructions -/

/-- Who may issue an instruction (47_ring_buffer.md R139, 60_exceptions.md R152, R153). -/
inductive Access where
  /-- A command that changes the chip or the engine: the owner alone. -/
  | owner
  /-- A read of the chip or the engine: the owner, or an agent the host serializes with the owner. -/
  | reader
  /-- A write of the ring. -/
  | producer
  /-- A read or flush of the ring. -/
  | consumer
  /-- A query of the ring. -/
  | eitherRole
  /-- An effect word: FX_DECODE takes it, no agent issues it (30_encoding.md R63). -/
  | decode
deriving DecidableEq, Repr

/-- The access an instruction needs. -/
def Instr.access : Instr → Access
  | .writeReg _ _ | .loadRegs _ | .clock | .chipGenerate _ | .reset _ | .triggerEnv | .setMixerOvr _ _ _
  | .clrMixerOvr _ | .setDrumOvr _ _ | .clrDrumOvr _ | .setMute _ _ | .pbPlay | .pbPause | .pbStop
  | .pbGenerate _ | .pbSeek _ | .pbSetMute _ _ => .owner
  | .readReg _ | .dumpRegs | .getSample | .pbPosition | .pbState => .reader
  | .rbWriteNb _ | .rbWriteBlk _ => .producer
  | .rbRead _ | .rbFlush => .consumer
  | .rbAvailWrite | .rbAvailRead | .rbFillPct | .rbStats => .eitherRole
  | .fxNop _ _ _ | .fxDigidrum _ _ _ | .fxSid _ _ _ | .fxSyncbuzz _ _ _ => .decode

/-- The instructions that may write registers: WRITE_REG, LOAD_REGS, RESET, and the commands that load frames
(10_state.md R14, 30_encoding.md R61). -/
def Instr.writesRegs : Instr → Bool
  | .writeReg _ _ | .loadRegs _ | .reset _ | .pbPlay | .pbGenerate _ | .pbSeek _ => true
  | _ => false

/-- The instructions that may write mutes (10_state.md R33, R44). -/
def Instr.writesMutes : Instr → Bool
  | .setMute _ _ | .pbSetMute _ _ | .reset _ => true
  | _ => false

/-- The instructions that may run the generators, the sub-clock, the DC window or the sample latch: those that CLOCK,
and RESET (10_state.md R27, R35, R36, R38, R39, R40). -/
def Instr.clocksChip : Instr → Bool
  | .clock | .chipGenerate _ | .pbGenerate _ | .reset _ => true
  | _ => false

/-- The instructions that may write the envelope's state: those that restart it (a write of R13, TRIGGER_ENV, RESET, a
frame load or a SYNCBUZZ word) and those that CLOCK (10_state.md R29, R37; 43_envelope.md R82, R83). -/
def Instr.writesEnv : Instr → Bool
  | .writeReg a _ => a == 13
  | .loadRegs _ | .clock | .chipGenerate _ | .reset _ | .triggerEnv | .pbPlay | .pbGenerate _ | .pbSeek _
  | .fxSyncbuzz _ _ _ => true
  | _ => false

/-- The instructions that may start or release an effect: PB_STOP, the commands that load frames or advance the effects,
and the effect words that are not FX_NOP (46_effects.md R130 to R135). -/
def Instr.runsEffects : Instr → Bool
  | .pbPlay | .pbStop | .pbGenerate _ | .pbSeek _ | .fxDigidrum _ _ _ | .fxSid _ _ _ | .fxSyncbuzz _ _ _ => true
  | _ => false

/-- The instructions that may write mixer overrides (10_state.md R31, 46_effects.md R136). -/
def Instr.writesOvr : Instr → Bool
  | .setMixerOvr _ _ _ | .clrMixerOvr _ | .reset _ => true
  | i => i.runsEffects

/-- The instructions that may write drum overrides (10_state.md R32, 46_effects.md R136). -/
def Instr.writesDrum : Instr → Bool
  | .setDrumOvr _ _ | .clrDrumOvr _ | .reset _ => true
  | i => i.runsEffects

/-! ### The formats, written out again -/

/-- The bits that an assigned opcode's word must have 0 (30_encoding.md R59, R60); `none` for an opcode that R60 does
not assign. -/
def formatZeros : Nat → Option Word
  | 0x01 => some 0x00FFF000
  | 0x02 => some 0x00FFF0FF
  | 0x07 | 0x13 | 0x15 | 0x20 | 0x21 | 0x22 => some 0
  | 0x08 => some 0x00FFFFFE
  | 0x0A => some 0x00FCFFFC
  | 0x0B | 0x0D => some 0x00FCFFFF
  | 0x0C => some 0x00FCFF00
  | 0x0E | 0x16 => some 0x00FCFFFE
  | 0x03 | 0x04 | 0x05 | 0x06 | 0x09 | 0x10 | 0x11 | 0x12 | 0x14 | 0x17 | 0x23 | 0x24 | 0x25 | 0x26
  | 0x27 => some 0x00FFFFFF
  | _ => none

/-- The opcodes of format C (R60). -/
def formatHasChannel (op : Nat) : Prop := (0x0A ≤ op ∧ op ≤ 0x0E) ∨ op = 0x16

/-- The payload an opcode needs stands at the head of the input (R66). -/
def payloadPresent (op count : Nat) (rest : List Item) : Prop :=
  if op = 0x03 then ∃ (bs : List Byte) (more : List Item), bs.length = 16 ∧ rest = bs.map .byte ++ more
  else if op = 0x20 ∨ op = 0x21 then
    ∃ (ws : List Word) (more : List Item), ws.length = count ∧ rest = ws.map .word ++ more
  else True

/-! ### The envelope's shapes, written out -/

/-- A falling segment's level at step `n` of it. -/
def downLevel (n : Nat) : Nat := 31 - n % 32

/-- A rising segment's level at step `n` of it. -/
def upLevel (n : Nat) : Nat := n % 32

/-- The level after `n` steps from the restart, by shape: the table of 43_envelope.md R84. -/
def shapeLevel (shape n : Nat) : Nat :=
  let later := 32 ≤ n
  let odd := n / 32 % 2 = 1
  match shape with
  | 0 | 1 | 2 | 3 => if later then 0 else downLevel n
  | 4 | 5 | 6 | 7 => if later then 0 else upLevel n
  | 8 => downLevel n
  | 9 => if later then 0 else downLevel n
  | 10 => if odd then upLevel n else downLevel n
  | 11 => if later then 31 else downLevel n
  | 12 => upLevel n
  | 13 => if later then 31 else upLevel n
  | 14 => if odd then downLevel n else upLevel n
  | _ => if later then 0 else upLevel n

/-! ### The values of binary32 patterns -/

/-- A pattern stands for a finite number. -/
def f32Finite (x : F32) : Prop := x.toNat / 2 ^ 23 % 2 ^ 8 < 255

/-- The number a finite pattern stands for (IEEE 754 binary32). -/
def f32Value (x : F32) : ℚ :=
  let e : Nat := x.toNat / 2 ^ 23 % 2 ^ 8
  let m : Nat := x.toNat % 2 ^ 23
  let magnitude : ℚ := if e = 0 then (m : ℚ) / 2 ^ 149 else (2 ^ 23 + (m : ℚ)) * 2 ^ e / 2 ^ 150
  if x.toNat / 2 ^ 31 = 1 then -magnitude else magnitude

end Sys2Proof

namespace Sys2Proof.Machine

/-- The issuer has the access (47_ring_buffer.md R139, 60_exceptions.md R153). -/
def State.allows (s : State) : Access → Prop
  | .owner => s.issuer = .producer
  | .reader =>
    s.issuer = .producer ∨ ((s.port s.issuer).synced = true ∧ (s.port .producer).busy = none)
  | .producer => s.issuer = .producer
  | .consumer => s.issuer = .consumer
  | .eitherRole => s.issuer = .producer ∨ s.issuer = .consumer
  | .decode => True

/-- The next sub-step is `a`'s too: nobody interrupts its command (47_ring_buffer.md R140; log 7). -/
def State.uninterrupted (a : Agent) (s : State) : Prop := s.sched = [] ∨ ∃ l, s.sched = a :: l

/-- The parameters are in range and engine construction succeeds (00_scope.md R8, 45_playback.md R116; a DRUM_BANK of
at most 256 entries, 20_memory.md R45 and log 17). -/
def configOk (cfg : Config) : Bool :=
  paramsInRange cfg && decide (frameCount cfg ≠ 0)
    && cfg.loopPoint.all (fun l => decide (l < frameCount cfg)) && decide (cfg.tickRate ≤ cfg.sampleRate)

/-- The chip's ranges that its types do not give: masked registers (10_state.md R14), a nonzero LFSR (R36), the
sub-clock (R38) and the DC window (R39). -/
structure ChipState.Inv (cfg : Config) (c : ChipState) : Prop where
  masked    : ∀ a, regAt c.reg a &&& regMask a = regAt c.reg a
  lfsr_ne   : c.lfsr ≠ 0
  sub_lt    : c.sub < tickDiv cfg
  dcbuf_len : c.dcbuf.length = cfg.dcWindow
  dcbuf_le  : ∀ m ∈ c.dcbuf, m ≤ 196605
  dcsum_eq  : c.dcsum = c.dcbuf.sum
  dcpos_lt  : c.dcpos < cfg.dcWindow

/-- An effect slot's ranges (R41): the accumulator below SAMPLE_RATE, a nonzero rate, a drum's cursor inside its
sample. -/
def Slot.Inv (cfg : Config) : Slot → Prop
  | .empty => True
  | .drum id cur acc rate => cur < (drumSample cfg id).length ∧ acc < cfg.sampleRate ∧ rate ≠ 0
  | .sid _ acc rate => acc < cfg.sampleRate ∧ rate ≠ 0
  | .buzz acc rate => acc < cfg.sampleRate ∧ rate ≠ 0

/-- The engine's ranges (R25, R26, R41). -/
structure EngineState.Inv (cfg : Config) (e : EngineState) : Prop where
  cursor_le : e.cursor ≤ frameCount cfg
  cursor_lt : e.state ≠ .finished → e.cursor < frameCount cfg
  sif_lt    : e.state = .playing ∨ e.state = .paused → e.sif < e.flen
  sif_zero  : e.state = .idle ∨ e.state = .finished → e.sif = 0
  flen_val  : e.flen = 0 ∨ e.flen = cfg.sampleRate / cfg.tickRate ∨ e.flen = cfg.sampleRate / cfg.tickRate + 1
  racc_lt   : e.racc < cfg.tickRate
  slot_inv  : ∀ ch, (e.slot.get ch).Inv cfg
  seen_none : e.fxq = none → e.seen = PerCh.all false

/-- A player in its ranges. -/
structure Player.Inv (cfg : Config) (p : Player) : Prop where
  chip : p.chip.Inv cfg
  eng  : p.eng.Inv cfg

/-- The ring's ranges (R42): the capacity of R137, cursors below it, slots in canonical form, and every slot from the
read cursor up to the write cursor written (20_memory.md R54). -/
structure RingState.Inv (cfg : Config) (g : RingState) : Prop where
  cap_eq : g.cap = ringCapacity cfg.rbRequestedSize
  w_lt   : g.w < g.cap
  r_lt   : g.r < g.cap
  buf_wf : Memory.wf g.buf = true
  buf_lt : ∀ p ∈ g.buf, p.1 < g.cap
  filled : ∀ i < availRead g, (Memory.read g.buf ((g.r + i) % g.cap)).isSome

/-- What the producer's load sub-step found still holds when the consumer has moved: the room can only have grown. -/
def producerOpInv (cfg : Config) (g : RingState) : RingOp → Prop
  | .write xs n => n ≤ xs.length ∧ n ≤ availWrite g
  | .writeBlk rest n _ sleeps => n ≤ rest.length ∧ n ≤ availWrite g ∧ sleeps ≤ cfg.rbRetryLimit
  | .asleep _ _ sleeps => sleeps ≤ cfg.rbRetryLimit
  | .stats _ => True
  | .read _ _ => False
  | .flush _ => False

/-- What the consumer's load sub-step found still holds when the producer has moved: the samples can only have grown. -/
def consumerOpInv (g : RingState) : RingOp → Prop
  | .read count n => n ≤ count ∧ n ≤ availRead g
  | .flush wa => wa < g.cap ∧ cursorGap g.cap wa g.r ≤ availRead g
  | .write _ _ => False
  | .writeBlk _ _ _ _ => False
  | .asleep _ _ _ => False
  | .stats _ => False

/-- The machine's invariant. -/
structure State.Inv (s : State) : Prop where
  cfg_ok   : configOk s.cfg = true
  chip_inv : s.chip.Inv s.cfg
  eng_inv  : s.eng.Inv s.cfg
  ring_inv : s.ring.Inv s.cfg
  prod_op  : ∀ op, (s.port .producer).busy = some op → producerOpInv s.cfg s.ring op
  cons_op  : ∀ op, (s.port .consumer).busy = some op → consumerOpInv s.ring op
  other_op : (s.port .other).busy = none

/-- The unread samples of the ring, oldest first: the slots from the read cursor up to the write cursor. -/
def pending (g : RingState) : List F32 := (Memory.readFrom g.cap g.buf g.r (availRead g)).getD []

/-! ### Which step commits what (47_ring_buffer.md R140)

A step commits a ring command when the command's commit sub-step stands in the agent's port, or when the agent begins
the command (or wakes in it) and nobody interrupts it after its load (log 7). -/

/-- The step commits the first `n` of the samples `xs` that a write command of the producer offers, `done` samples of
the command being written already (R141, R142). -/
def State.commitsWrite (s : State) (xs : List F32) (n done : Nat) : Prop :=
  s.eng.fxq = none ∧ nextAgent s = some .producer ∧
    (((s.port .producer).busy = some (.write xs n) ∧ done = 0 ∨
        ∃ sleeps, (s.port .producer).busy = some (.writeBlk xs n done sleeps)) ∨
      n = min xs.length (availWrite s.ring) ∧ (s.setSched s.sched.tail).uninterrupted .producer ∧
        ((∃ sleeps, (s.port .producer).busy = some (.asleep xs done sleeps)) ∨
          (s.port .producer).busy = none ∧ done = 0 ∧
            ∃ rest, decode (s.port .producer).input = .ok (.rbWriteNb xs, rest) ∨
              decode (s.port .producer).input = .ok (.rbWriteBlk xs, rest)))

/-- The step commits a read of `n` samples, of `count` that RB_READ asked for (R143). -/
def State.commitsRead (s : State) (count n : Nat) : Prop :=
  s.eng.fxq = none ∧ nextAgent s = some .consumer ∧
    ((s.port .consumer).busy = some (.read count n) ∨
      n = min count (availRead s.ring) ∧ (s.setSched s.sched.tail).uninterrupted .consumer ∧
        (s.port .consumer).busy = none ∧
        ∃ (c : Count) (rest : List Item), c.toNat = count ∧ decode (s.port .consumer).input = .ok (.rbRead c, rest))

/-- The step commits a flush up to the write cursor `wa` that RB_FLUSH loaded (R147). -/
def State.commitsFlush (s : State) (wa : Nat) : Prop :=
  s.eng.fxq = none ∧ nextAgent s = some .consumer ∧
    ((s.port .consumer).busy = some (.flush wa) ∨
      wa = s.ring.w ∧ (s.setSched s.sched.tail).uninterrupted .consumer ∧ (s.port .consumer).busy = none ∧
        ∃ rest, decode (s.port .consumer).input = .ok (.rbFlush, rest))

/-- The samples that the reads of an agent returned, command by command. -/
def Port.reads (p : Port) : List (List F32) :=
  p.answers.filterMap fun a =>
    match a with
    | .read _ xs => some xs
    | .byte _ | .bytes _ | .sample _ | .samples _ | .nat _ | .stats _ _ => none

/-- Instructions one after another, without the fetch between them. -/
def execAll : List Instr → State → Outcome
  | [], s => .next s
  | i :: is, s =>
    match exec i s with
    | .next t => execAll is t
    | .fault f => .fault f
    | .refused r => .refused r

/-- `k` steps one after another. -/
def steps : Nat → State → Outcome
  | 0, s => .next s
  | k + 1, s =>
    match step s with
    | .next t => steps k t
    | .fault f => .fault f
    | .refused r => .refused r

end Sys2Proof.Machine
end

