-- ==== Sys2Proof/Certificates/Slice0/Obligations.lean ====
section
/-! DEFINITION. The statements for the provers. Each docstring names the rules it formalises; where a clause rests on a
choice of the model it names the log entry. -/

open Sys2Proof Sys2Proof.Machine

/-! ### Encoding and the step -/

/-- Words written out from the formats of 30_encoding.md R59, R60 and R64 decode to the instructions they stand for,
and words of R65 are rejected by name. -/
def Obligations.SpecWordsDecode : Prop :=
  decode [.word 0x0100073E] = .ok (.writeReg 7 0x3E, []) ∧
  decode [.word 0x02000D00] = .ok (.readReg 13, []) ∧
  decode [.word 0x08000001] = .ok (.reset .deterministic, []) ∧
  decode [.word 0x0A010002] = .ok (.setMixerOvr .B true false, []) ∧
  decode [.word 0x15000019] = .ok (.pbSeek 25, []) ∧
  decode [.word 0x20000002, .word 0x3F800000, .word 0x40000000, .word 0x05000000] =
    .ok (.rbWriteNb [0x3F800000, 0x40000000], [.word 0x05000000]) ∧
  decodeEffect 0x900001B8 = .fxSid 1 0 440 ∧
  decodeEffect 0x4050000A = .fxDigidrum 0 5 10 ∧
  decode [.word 0x0F000000] = .error .unassignedOpcode ∧
  decode [.word 0x05000001] = .error .reservedField ∧
  decode [.word 0x0A030003] = .error .reservedChannel ∧
  decode [.word 0x22000001] = .ok (.rbRead 1, []) ∧
  decode [.word 0x21000001] = .error .shortPayload

/-- R65: a command word is accepted exactly when its opcode is assigned, the bits its format marks 0 are 0, CH is not
3 and its payload is there; every effect word decodes, with no bit dropped. -/
def Obligations.ReservedCommandSpace : Prop :=
  (∀ (w : Word) (rest : List Item),
    (∃ i rest', decode (.word w :: rest) = .ok (i, rest')) ↔
      ∃ z, formatZeros (w.toNat / 2 ^ 24) = some z ∧ w &&& z = 0 ∧
        (formatHasChannel (w.toNat / 2 ^ 24) → w.toNat / 2 ^ 16 % 4 ≠ 3) ∧
        payloadPresent (w.toNat / 2 ^ 24) (w.toNat % 2 ^ 24) rest) ∧
  ∀ w : Word, encode (decodeEffect w) = [.word w]

/-- Decoding and encoding agree in both directions: an encoded well-formed command decodes to itself and leaves the
input after it, and an input that decodes is the encoding of what it decodes to. -/
def Obligations.CommandRoundTrip : Prop :=
  (∀ (i : Instr) (rest : List Item), i.wf = true → i.isEffect = false →
    decode (encode i ++ rest) = .ok (i, rest)) ∧
  ∀ (items rest : List Item) (i : Instr), decode items = .ok (i, rest) →
    i.wf = true ∧ i.isEffect = false ∧ items = encode i ++ rest

/-- An effect instruction encodes to one word that decodes to it, with every field at every value (R64). -/
def Obligations.EffectWordRoundTrip : Prop :=
  ∀ i : Instr, i.isEffect = true → ∃ w : Word, encode i = [.word w] ∧ decodeEffect w = i

/-- What a step runs. The commands in a port's input, the steps with nothing to do, the order of turns, the resumption
of a command and the FX_DECODE clauses are the model's choices (log 4, 6, 7, 11). A schedule's first agent moves, with
an empty schedule the producer when it is ready; a decode under way goes first; an agent goes on with its ring command,
else its next command runs, and without one its turn is used up; a machine with nothing to do steps to itself (log 4);
an input that is no command is refused (60_exceptions.md R152 item 1). -/
def Obligations.StepRunsDecodedInstruction : Prop :=
  ∀ s : State,
    (∀ a l, s.sched = a :: l → nextAgent s = some a) ∧
    (s.sched = [] → (s.port .producer).ready = true → nextAgent s = some .producer) ∧
    (∀ w ws, s.eng.fxq = some (w :: ws) →
      step s = exec (decodeEffect w) (s.setEng { s.eng with fxq := some ws })) ∧
    (s.eng.fxq = some [] → step s = .next (s.setPlayer (fxFinish s.player))) ∧
    (s.eng.fxq = none → nextAgent s = none → step s = .next s) ∧
    ∀ a, s.eng.fxq = none → nextAgent s = some a →
      (∀ op, (s.port a).busy = some op →
        step s = resumeOp op ((s.setSched s.sched.tail).setIssuer a)) ∧
      ((s.port a).busy = none →
        (∀ i rest, decode (s.port a).input = .ok (i, rest) →
          step s = exec i (((s.setSched s.sched.tail).setInput a rest).setIssuer a)) ∧
        ((s.port a).input = [] → step s = .next (s.setSched s.sched.tail)) ∧
        ∀ e, decode (s.port a).input = .error e → e ≠ .noWord → step s = .refused (.badCommand e))

/-! ### Construction and reset -/

/-- The state after reset has the values of 10_state.md R44 (for a Randomized chip reset, the draws aside), is what
boot builds from the default parameters, and is in range. -/
def Obligations.ResetStateInRange : Prop :=
  State.reset.chip.reg = Vector.replicate 16 0 ∧
  State.reset.chip.ecnt = 0 ∧ State.reset.chip.estep = 0 ∧ State.reset.chip.eup = false ∧
  State.reset.chip.ehold = false ∧ State.reset.chip.sub = 0 ∧ State.reset.chip.dcsum = 0 ∧
  State.reset.chip.dcpos = 0 ∧ State.reset.chip.dcbuf = List.replicate 512 0 ∧ State.reset.chip.sample = 0 ∧
  State.reset.chip.ovr = PerCh.all none ∧ State.reset.chip.drum = PerCh.all none ∧
  State.reset.chip.mute = PerCh.all false ∧ State.reset.chip.lfsr ≠ 0 ∧
  State.reset.eng.state = .idle ∧ State.reset.eng.cursor = 0 ∧ State.reset.eng.sif = 0 ∧
  State.reset.eng.flen = 0 ∧ State.reset.eng.racc = 0 ∧ State.reset.eng.slot = PerCh.all .empty ∧
  State.reset.ring.buf = [] ∧ State.reset.ring.w = 0 ∧ State.reset.ring.r = 0 ∧
  State.reset.ring.played = 0 ∧ State.reset.ring.under = 0 ∧
  boot Config.default = .built State.reset ∧
  State.reset.Inv

/-- For every choice of parameters in range, boot builds a machine that is in range, with the engine idle and the ring
empty (70_reset_and_hazards.md R167). -/
def Obligations.BootEstablishesInvariant : Prop :=
  ∀ cfg : Config, configOk cfg = true →
    ∃ s, boot cfg = .built s ∧ s.cfg = cfg ∧ s.chip = constructChip cfg 0 ∧ s.eng.state = .idle ∧
      availRead s.ring = 0 ∧ s.Inv

/-- Engine construction: ZeroFrames before LoopPointOutOfRange before the refusal of SAMPLE_RATE < TICK_RATE; the loop
start and LOOP_ENABLED as given or by default; the error codes (45_playback.md R116, 60_exceptions.md R150). -/
def Obligations.EngineConstruction : Prop :=
  (∀ cfg : Config, cfg.frames = [] → constructEngine cfg = .error .zeroFrames) ∧
  (∀ (cfg : Config) (l : Nat), cfg.frames ≠ [] → cfg.loopPoint = some l → cfg.frames.length ≤ l →
    constructEngine cfg = .error .loopPointOutOfRange) ∧
  (∀ cfg : Config, cfg.frames ≠ [] → (∀ l, cfg.loopPoint = some l → l < cfg.frames.length) →
    (cfg.sampleRate < cfg.tickRate → constructEngine cfg = .refused .frameTooShort) ∧
    (cfg.tickRate ≤ cfg.sampleRate →
      constructEngine cfg = .built
        { state := .idle, cursor := 0, sif := 0, flen := 0, racc := 0, slot := PerCh.all .empty,
          seen := PerCh.all false, fxq := none })) ∧
  (∀ cfg : Config,
    (cfg.loopPoint = none → loopStart cfg = 0) ∧ (∀ l, cfg.loopPoint = some l → loopStart cfg = l) ∧
    (∀ b, cfg.loopEnabledGiven = some b → loopEnabled cfg = b) ∧
    (cfg.loopEnabledGiven = none → loopEnabled cfg = cfg.loopPoint.isSome)) ∧
  ConfigError.code .zeroFrames = 1 ∧ ConfigError.code .loopPointOutOfRange = 2

/-- Ring construction: the capacity is the least power of two that is at least `max(RB_REQUESTED_SIZE, 2)`; the ring
is empty, every slot unwritten (47_ring_buffer.md R137, R138). -/
def Obligations.RingConstruction : Prop :=
  ∀ cfg : Config,
    (∃ k, (constructRing cfg).cap = 2 ^ k) ∧
    max cfg.rbRequestedSize 2 ≤ (constructRing cfg).cap ∧
    (∀ k, max cfg.rbRequestedSize 2 ≤ 2 ^ k → (constructRing cfg).cap ≤ 2 ^ k) ∧
    (∀ j, Memory.read (constructRing cfg).buf j = none) ∧
    (constructRing cfg).w = 0 ∧ (constructRing cfg).r = 0 ∧
    (constructRing cfg).played = 0 ∧ (constructRing cfg).under = 0

/-- RESET (44_mixer_chip.md R107): the chip's state in each mode, and nothing else but the count of draws (log 3).
Construction of the chip is a RESET with RESET_MODE. -/
def Obligations.ResetCommand : Prop :=
  (∀ s : State, s.issuer = .producer →
    exec (.reset .deterministic) s =
      .next (s.setChip
        { reg := Vector.replicate 16 0, tcnt := PerCh.all 0, tout := PerCh.all false, ncnt := 0,
          lfsr := s.cfg.noiseReseed, ecnt := 0, estep := 0, eup := false, ehold := false, sub := 0,
          dcbuf := List.replicate s.cfg.dcWindow 0, dcsum := 0, dcpos := 0, sample := 0,
          ovr := PerCh.all none, drum := PerCh.all none, mute := PerCh.all false }) ∧
    ∃ lfsr : BitVec 17, lfsr ≠ 0 ∧
      exec (.reset .randomized) s =
        .next ((s.setChip
          { reg := Vector.replicate 16 0,
            tcnt := ⟨Config.drawTcnt s.draws .A, Config.drawTcnt s.draws .B, Config.drawTcnt s.draws .C⟩,
            tout := ⟨Config.drawTout s.draws .A, Config.drawTout s.draws .B, Config.drawTout s.draws .C⟩,
            ncnt := Config.drawNcnt s.draws, lfsr := lfsr, ecnt := 0, estep := 0, eup := false, ehold := false,
            sub := 0, dcbuf := List.replicate s.cfg.dcWindow 0, dcsum := 0, dcpos := 0, sample := 0,
            ovr := PerCh.all none, drum := PerCh.all none, mute := PerCh.all false }).setDraws (s.draws + 1)) ∧
      lfsr.toNat = (Config.drawLfsr s.draws).val + 1) ∧
  ∀ (cfg : Config) (n : Nat), constructChip cfg n = resetChip cfg cfg.resetMode n

/-- After a RESET of either mode and before any register write, every CLOCK gives mix 0 and output +0.0
(70_reset_and_hazards.md R166). R166 is marked "derived" by the spec itself. -/
def Obligations.ResetSilence : Prop :=
  ∀ (s : State) (mode : ResetMode) (n : Nat), s.Inv → s.issuer = .producer →
    ∃ t, execAll (.reset mode :: List.replicate (n + 1) .clock) s = .next t ∧
      mix t.cfg t.chip = 0 ∧ t.chip.sample = 0

/-! ### Registers and hooks -/

/-- WRITE_REG (44_mixer_chip.md R100) stores the masked byte, restarts the envelope when the register is R13, changes
nothing else, and READ_REG then reads the masked byte back. -/
def Obligations.WriteRegister : Prop :=
  allRegs.map regMask =
    [0xFF, 0x0F, 0xFF, 0x0F, 0xFF, 0x0F, 0x1F, 0xFF, 0x1F, 0x1F, 0x1F, 0xFF, 0xFF, 0x0F, 0xFF, 0xFF] ∧
  ∀ (s : State) (a : RegNum) (d : Byte), s.issuer = .producer →
    ∃ t, exec (.writeReg a d) s = .next t ∧
      (∀ b, regAt t.chip.reg b = if b = a then d &&& regMask a else regAt s.chip.reg b) ∧
      (a = 13 → t.chip.ecnt = 0 ∧ t.chip.estep = 0 ∧ t.chip.eup = d.getLsbD 2 ∧ t.chip.ehold = false) ∧
      (a ≠ 13 → t.chip.ecnt = s.chip.ecnt ∧ t.chip.estep = s.chip.estep ∧ t.chip.eup = s.chip.eup ∧
        t.chip.ehold = s.chip.ehold) ∧
      t = s.setChip { s.chip with reg := t.chip.reg, ecnt := t.chip.ecnt, estep := t.chip.estep,
                                  eup := t.chip.eup, ehold := t.chip.ehold } ∧
      ∀ b, exec (.readReg b) t =
        .next (t.deliver .producer (.byte (if b = a then d &&& regMask a else regAt s.chip.reg b)))

/-- LOAD_REGS (R102) stores all sixteen masked bytes, restarts the envelope, changes nothing else, and ends in the
state of the sixteen WRITE_REGs in address order. -/
def Obligations.LoadRegisters : Prop :=
  ∀ (s : State) (p : Bytes16), s.issuer = .producer →
    ∃ t, exec (.loadRegs p) s = .next t ∧
      (∀ b, regAt t.chip.reg b = regAt p b &&& regMask b) ∧
      t.chip.ecnt = 0 ∧ t.chip.estep = 0 ∧ t.chip.eup = (regAt p 13).getLsbD 2 ∧ t.chip.ehold = false ∧
      t = s.setChip { s.chip with reg := t.chip.reg, ecnt := 0, estep := 0, eup := t.chip.eup, ehold := false } ∧
      execAll (allRegs.map fun a => .writeReg a (regAt p a)) s = .next t

/-- Whole-machine rules from 10_state.md: which instructions may write the registers (R14), the mutes (R33), the mixer
and drum overrides (R31, R32), the envelope's state (R29, R37), and the tone and noise generators, the sub-clock, the
DC window and the latch (R27, R35, R36, R38 to R40). -/
def Obligations.OnlyNamedWriters : Prop :=
  ∀ (i : Instr) (s t : State), exec i s = .next t →
    (i.writesRegs = false → t.chip.reg = s.chip.reg) ∧
    (i.writesMutes = false → t.chip.mute = s.chip.mute) ∧
    (i.writesOvr = false → t.chip.ovr = s.chip.ovr) ∧
    (i.writesDrum = false → t.chip.drum = s.chip.drum) ∧
    (i.writesEnv = false →
      t.chip.ecnt = s.chip.ecnt ∧ t.chip.estep = s.chip.estep ∧ t.chip.eup = s.chip.eup ∧
      t.chip.ehold = s.chip.ehold) ∧
    (i.clocksChip = false →
      t.chip.tcnt = s.chip.tcnt ∧ t.chip.tout = s.chip.tout ∧ t.chip.ncnt = s.chip.ncnt ∧
      t.chip.lfsr = s.chip.lfsr ∧ t.chip.sub = s.chip.sub ∧ t.chip.dcbuf = s.chip.dcbuf ∧
      t.chip.dcsum = s.chip.dcsum ∧ t.chip.dcpos = s.chip.dcpos ∧ t.chip.sample = s.chip.sample)

/-- The pseudo-commands `write_tone` and `write_env_period` (30_encoding.md R68) set exactly the period they name, for
every period (10_state.md R16, R20); every other register, and with it the other tone periods, the noise period and
the envelope period, and everything else of the machine, every counter included, is unchanged. -/
def Obligations.PeriodWrites : Prop :=
  ∀ s : State, s.issuer = .producer →
    (∀ (c : Ch) (p : Nat), p ≤ 4095 →
      ∃ t, execAll [.writeReg (toneLoReg c) (BitVec.ofNat 8 (p % 256)),
          .writeReg (toneHiReg c) (BitVec.ofNat 8 (p / 256))] s = .next t ∧
        tonePeriod t.chip.reg c = p ∧ (∀ d, d ≠ c → tonePeriod t.chip.reg d = tonePeriod s.chip.reg d) ∧
        noisePeriod t.chip.reg = noisePeriod s.chip.reg ∧ envPeriod t.chip.reg = envPeriod s.chip.reg ∧
        (∀ b, b ≠ toneLoReg c → b ≠ toneHiReg c → regAt t.chip.reg b = regAt s.chip.reg b) ∧
        t = s.setChip { s.chip with reg := t.chip.reg }) ∧
    ∀ p : Nat, p ≤ 65535 →
      ∃ t, execAll [.writeReg 11 (BitVec.ofNat 8 (p % 256)), .writeReg 12 (BitVec.ofNat 8 (p / 256))] s =
          .next t ∧
        envPeriod t.chip.reg = p ∧ (∀ c, tonePeriod t.chip.reg c = tonePeriod s.chip.reg c) ∧
        noisePeriod t.chip.reg = noisePeriod s.chip.reg ∧
        (∀ b, b ≠ 11 → b ≠ 12 → regAt t.chip.reg b = regAt s.chip.reg b) ∧
        t = s.setChip { s.chip with reg := t.chip.reg }

/-- The hook and mute commands (44_mixer_chip.md R109 to R113, 45_playback.md R126): each writes its channel's entry
and nothing else. -/
def Obligations.HookCommands : Prop :=
  ∀ (s : State) (ch : Ch), s.issuer = .producer →
    (∀ ft fn : Bool, ∃ t, exec (.setMixerOvr ch ft fn) s = .next t ∧
      (∀ d, t.chip.ovr.get d = if d = ch then some ⟨ft, fn⟩ else s.chip.ovr.get d) ∧
      t = s.setChip { s.chip with ovr := t.chip.ovr }) ∧
    (∃ t, exec (.clrMixerOvr ch) s = .next t ∧
      (∀ d, t.chip.ovr.get d = if d = ch then none else s.chip.ovr.get d) ∧
      t = s.setChip { s.chip with ovr := t.chip.ovr }) ∧
    (∀ b : Byte, ∃ t, exec (.setDrumOvr ch b) s = .next t ∧
      (∀ d, t.chip.drum.get d = if d = ch then some b else s.chip.drum.get d) ∧
      t = s.setChip { s.chip with drum := t.chip.drum }) ∧
    (∃ t, exec (.clrDrumOvr ch) s = .next t ∧
      (∀ d, t.chip.drum.get d = if d = ch then none else s.chip.drum.get d) ∧
      t = s.setChip { s.chip with drum := t.chip.drum }) ∧
    ∀ m : Bool, ∃ t, exec (.setMute ch m) s = .next t ∧ exec (.pbSetMute ch m) s = .next t ∧
      (∀ d, t.chip.mute.get d = if d = ch then m else s.chip.mute.get d) ∧
      t = s.setChip { s.chip with mute := t.chip.mute }

/-- TRIGGER_ENV (R108): the restart of 43_envelope.md R83, the direction from ATT of R13, the registers kept; a second
trigger changes nothing more. -/
def Obligations.TriggerEnvelope : Prop :=
  ∀ s : State, s.issuer = .producer →
    ∃ t, exec .triggerEnv s = .next t ∧
      t = s.setChip { s.chip with ecnt := 0, estep := 0, eup := (regAt s.chip.reg 13).getLsbD 2, ehold := false } ∧
      exec .triggerEnv t = .next t

/-! ### Who may issue what -/

/-- An instruction is refused exactly when its issuer lacks the access (47_ring_buffer.md R139, 60_exceptions.md R152
items 3 and 4, R153). -/
def Obligations.RefusedExactlyWithoutAccess : Prop :=
  ∀ (i : Instr) (s : State), (∃ r, exec i s = .refused r) ↔ ¬ s.allows i.access

/-- READ_REG, DUMP_REGS and GET_SAMPLE answer the stored, masked byte, the sixteen bytes and the latch to their issuer
and write nothing else (R101, R103, R105). -/
def Obligations.ChipReads : Prop :=
  ∀ s : State, s.allows .reader →
    (∀ a, exec (.readReg a) s = .next (s.deliver s.issuer (.byte (regAt s.chip.reg a)))) ∧
    exec .dumpRegs s = .next (s.deliver s.issuer (.bytes s.chip.reg)) ∧
    exec .getSample s = .next (s.deliver s.issuer (.sample s.chip.sample))

/-- Every instruction completes, in every state in range, for every issuer with the access (44_mixer_chip.md R114,
60_exceptions.md R156): no command traps, none faults. -/
def Obligations.EveryInstructionCompletes : Prop :=
  ∀ (i : Instr) (s : State), s.Inv → s.allows i.access → ∃ t, exec i s = .next t

/-! ### Generators -/

/-- The tone generator over any number of internal ticks with constant registers, TPE being the 12-bit period, 0 acting
as 1 (41_tone.md R69): from a counter at 0 the output toggles every TPE ticks and a cycle takes 2 TPE ticks (R71);
from any counter the first toggle comes at tick `max(TPE - tcnt, 1)` and not before (R72). R71 and R72 are marked
"derived" by the spec itself. -/
def Obligations.ToneCycle : Prop :=
  ∀ (cfg : Config) (c : ChipState) (ch : Ch),
    tonePeriodEff c.reg ch =
      max ((regAt c.reg (toneHiReg ch)).toNat % 16 * 256 + (regAt c.reg (toneLoReg ch)).toNat) 1 ∧
    (c.tcnt.get ch = 0 → ∀ n,
      ((ticks cfg n c).tcnt.get ch).toNat = n % tonePeriodEff c.reg ch ∧
      (ticks cfg n c).tout.get ch = (c.tout.get ch ^^ decide (n / tonePeriodEff c.reg ch % 2 = 1))) ∧
    (∀ n, n < max (tonePeriodEff c.reg ch - (c.tcnt.get ch).toNat) 1 →
      (ticks cfg n c).tout.get ch = c.tout.get ch) ∧
    (ticks cfg (max (tonePeriodEff c.reg ch - (c.tcnt.get ch).toNat) 1) c).tout.get ch = !c.tout.get ch ∧
    (ticks cfg (max (tonePeriodEff c.reg ch - (c.tcnt.get ch).toNat) 1) c).tcnt.get ch = 0

/-- A tone tick reads its channel's period registers and writes its channel's counter and output alone (41_tone.md
R70); the five parts of a tick can run in any order (44_mixer_chip.md R97). The independence is marked "derived" by
the spec itself. -/
def Obligations.TickOrderIrrelevant : Prop :=
  (∀ (ch : Ch) (c d : ChipState), c.tcnt.get ch = d.tcnt.get ch → c.tout.get ch = d.tout.get ch →
    regAt c.reg (toneLoReg ch) = regAt d.reg (toneLoReg ch) →
    regAt c.reg (toneHiReg ch) = regAt d.reg (toneHiReg ch) →
    (toneTick ch c).tcnt.get ch = (toneTick ch d).tcnt.get ch ∧
    (toneTick ch c).tout.get ch = (toneTick ch d).tout.get ch) ∧
  (∀ (ch : Ch) (c : ChipState),
    toneTick ch c = { c with tcnt := c.tcnt.set ch ((toneTick ch c).tcnt.get ch),
                             tout := c.tout.set ch ((toneTick ch c).tout.get ch) }) ∧
  (∀ (a b : Ch) (c : ChipState), toneTick a (toneTick b c) = toneTick b (toneTick a c)) ∧
  (∀ (cfg : Config) (a : Ch) (c : ChipState), toneTick a (noiseTick cfg c) = noiseTick cfg (toneTick a c)) ∧
  (∀ (a : Ch) (c : ChipState), toneTick a (envTick c) = envTick (toneTick a c)) ∧
  (∀ (cfg : Config) (c : ChipState), noiseTick cfg (envTick c) = envTick (noiseTick cfg c)) ∧
  ∀ (cfg : Config) (c : ChipState),
    tick cfg c = envTick (noiseTick cfg (toneTick .C (toneTick .B (toneTick .A c)))) ∧
    ∀ n, ticks cfg n c = (tick cfg)^[n] c

/-- The noise generator over any number of internal ticks with constant registers, NPE being the 5-bit period, 0
acting as 1 (42_noise.md R76): from a counter at 0 the register shifts once every NOISE_PRESCALE * NPE ticks; from any
counter its next shift comes when the counter gets there, at once when it is past it, and not before; a zero register
is reseeded before its shift. -/
def Obligations.NoiseRate : Prop :=
  (∀ (cfg : Config) (c : ChipState), cfg.noisePrescale = 1 ∨ cfg.noisePrescale = 2 → c.lfsr ≠ 0 →
    noisePeriodEff c.reg = max ((regAt c.reg 6).toNat % 32) 1 ∧
    (c.ncnt = 0 → ∀ n,
      (ticks cfg n c).ncnt.toNat = n % (cfg.noisePrescale * noisePeriodEff c.reg) ∧
      (ticks cfg n c).lfsr = lfsrShift^[n / (cfg.noisePrescale * noisePeriodEff c.reg)] c.lfsr) ∧
    let first := max (cfg.noisePrescale * noisePeriodEff c.reg - c.ncnt.toNat) 1
    (∀ n, n < first → (ticks cfg n c).lfsr = c.lfsr) ∧
    (ticks cfg first c).lfsr = lfsrShift c.lfsr ∧ (ticks cfg first c).ncnt = 0) ∧
  ∀ (cfg : Config) (c : ChipState), c.lfsr = 0 → cfg.noisePrescale * noisePeriodEff c.reg ≤ c.ncnt.toNat + 1 →
    (noiseTick cfg c).lfsr = lfsrShift cfg.noiseReseed

/-- One shift moves every bit down by one and puts bit 0 XOR bit 3 into bit 16 (R75). The noise LFSR never reaches
zero from a nonzero state, and its period is exactly 131071 from every nonzero state (R78). The period is marked
"derived" by the spec itself. -/
def Obligations.LfsrMaximalPeriod : Prop :=
  (∀ v : BitVec 17,
    (∀ i, i < 16 → (lfsrShift v).getLsbD i = v.getLsbD (i + 1)) ∧
    (lfsrShift v).getLsbD 16 = (v.getLsbD 0 ^^ v.getLsbD 3)) ∧
  ∀ v : BitVec 17, v ≠ 0 →
    (∀ n, lfsrShift^[n] v ≠ 0) ∧ ∀ n, lfsrShift^[n] v = v ↔ 131071 ∣ n

/-- The envelope over any number of internal ticks with constant registers, EPE being the 16-bit period, 0 acting as 1
(43_envelope.md R81): from a period counter at 0 it takes one step every EPE ticks; from any counter its next step
comes when the counter gets there, at once when it is past it, and not before. -/
def Obligations.EnvelopeRate : Prop :=
  ∀ (cfg : Config) (c : ChipState),
    envPeriodEff c.reg = max ((regAt c.reg 12).toNat * 256 + (regAt c.reg 11).toNat) 1 ∧
    (c.ecnt = 0 → ∀ n,
      (ticks cfg n c).ecnt.toNat = n % envPeriodEff c.reg ∧
      (ticks cfg n c).estep = (envAdvance^[n / envPeriodEff c.reg] c).estep ∧
      (ticks cfg n c).eup = (envAdvance^[n / envPeriodEff c.reg] c).eup ∧
      (ticks cfg n c).ehold = (envAdvance^[n / envPeriodEff c.reg] c).ehold) ∧
    let first := max (envPeriodEff c.reg - c.ecnt.toNat) 1
    (∀ n, n < first →
      (ticks cfg n c).estep = c.estep ∧ (ticks cfg n c).eup = c.eup ∧ (ticks cfg n c).ehold = c.ehold) ∧
    (ticks cfg first c).ecnt = 0 ∧ (ticks cfg first c).estep = (envAdvance c).estep ∧
    (ticks cfg first c).eup = (envAdvance c).eup ∧ (ticks cfg first c).ehold = (envAdvance c).ehold

/-- The envelope's level is its step, counted down when falling (43_envelope.md R80). From the restart, the level after
any number of steps is the table of R84, for each of the sixteen shapes. R84 is marked "derived" by the spec itself. -/
def Obligations.EnvelopeShapes : Prop :=
  ∀ (c : ChipState) (n : Nat),
    (envLevel c).toNat = (if c.eup then c.estep.toNat else 31 - c.estep.toNat) ∧
    (envLevel (envAdvance^[n] (envRestart c))).toNat = shapeLevel ((regAt c.reg 13).toNat % 16) n

/-! ### The per-sample path -/

/-- The level index, the gate, the level code and the mix (44_mixer_chip.md R88 to R93): mute over drum over normal
mixing; an override replaces both terms of the gate; volume `v` indexes the table at `2v + 1`, volume 0 at 0; the mix
is at most 196605. -/
def Obligations.MixerLevels : Prop :=
  ∀ (cfg : Config) (c : ChipState),
    (∀ ch : Ch,
      ((regAt c.reg (volReg ch)).getLsbD 4 = true →
        (levelIndex c ch).toNat = if c.eup then c.estep.toNat else 31 - c.estep.toNat) ∧
      ((regAt c.reg (volReg ch)).getLsbD 4 = false → (regAt c.reg (volReg ch)).toNat % 16 = 0 →
        (levelIndex c ch).toNat = 0) ∧
      ((regAt c.reg (volReg ch)).getLsbD 4 = false → (regAt c.reg (volReg ch)).toNat % 16 ≠ 0 →
        (levelIndex c ch).toNat = 2 * ((regAt c.reg (volReg ch)).toNat % 16) + 1) ∧
      (∀ tt nt, c.ovr.get ch = some ⟨tt, nt⟩ → gate c ch = (tt && nt)) ∧
      (c.ovr.get ch = none →
        gate c ch = ((c.tout.get ch || (regAt c.reg 7).getLsbD ch.num) &&
          (c.lfsr.getLsbD 0 || (regAt c.reg 7).getLsbD (3 + ch.num)))) ∧
      (c.mute.get ch = true → levelCode cfg c ch = 0) ∧
      (∀ b, c.mute.get ch = false → c.drum.get ch = some b → levelCode cfg c ch = b.toNat * 257) ∧
      (c.mute.get ch = false → c.drum.get ch = none →
        levelCode cfg c ch =
          if gate c ch then cfg.levelTable[(levelIndex c ch).toNat]'(levelIndex c ch).isLt else 0)) ∧
    mix cfg c = levelCode cfg c .A + levelCode cfg c .B + levelCode cfg c .C ∧
    (levelTableOk cfg.levelTable = true → mix cfg c ≤ 196605)

/-- The DC window (R94): one update replaces the oldest entry by the mix and keeps the sum; from the window that a
reset leaves, after any sequence of mixes `dcsum` is the sum of the last DC_WINDOW of them, and of the window's
entries. -/
def Obligations.DcWindow : Prop :=
  (∀ (cfg : Config) (m : Nat) (c : ChipState),
    dcUpdate cfg m c =
      { c with dcsum := c.dcsum + m - c.dcbuf.getD c.dcpos 0, dcbuf := c.dcbuf.set c.dcpos m,
               dcpos := (c.dcpos + 1) % cfg.dcWindow }) ∧
  ∀ (cfg : Config) (c : ChipState), 1 ≤ cfg.dcWindow → c.dcbuf = List.replicate cfg.dcWindow 0 → c.dcsum = 0 →
    c.dcpos = 0 → ∀ ms : List Nat,
      (ms.foldl (fun c m => dcUpdate cfg m c) c).dcsum = (ms.reverse.take cfg.dcWindow).sum ∧
      (ms.foldl (fun c m => dcUpdate cfg m c) c).dcbuf.sum = (ms.reverse.take cfg.dcWindow).sum ∧
      (ms.foldl (fun c m => dcUpdate cfg m c) c).dcpos = ms.length % cfg.dcWindow

/-- The output of a CLOCK (R95): `f32` of `(DC_WINDOW * mix - dcsum) / (DC_WINDOW * 196605)`, with this CLOCK's mix
and the updated sum. The quotient lies in [-(W - 1)/W, (W - 1)/W], inside R95's [-1, 1]: that bound is vector DC3 of
95_test_vectors.md, marked "derived" by the spec itself. -/
def Obligations.OutputRange : Prop :=
  ∀ s : State, s.Inv → s.issuer = .producer →
    ∃ t, exec .clock s = .next t ∧
      t.chip.sample =
        f32 ((s.cfg.dcWindow * mix s.cfg t.chip : Nat) - (t.chip.dcsum : Int)) (s.cfg.dcWindow * 3 * 65535) ∧
      ((s.cfg.dcWindow * mix s.cfg t.chip : Nat) - (t.chip.dcsum : Int)).natAbs ≤ (s.cfg.dcWindow - 1) * 196605

/-- `f32` rounds to nearest, ties to even, over every range the block uses; zero is +0.0 and
no result is -0.0 (R99). -/
def Obligations.F32RoundsToNearestEven : Prop :=
  ∀ (num : Int) (den : Nat), 0 < den → num.natAbs ≤ 100 * den →
    f32Finite (f32 num den) ∧ f32 num den ≠ 0x80000000 ∧ (num = 0 → f32 num den = 0) ∧
    ∀ x : F32, f32Finite x →
      |(num : ℚ) / den - f32Value (f32 num den)| ≤ |(num : ℚ) / den - f32Value x| ∧
      (|(num : ℚ) / den - f32Value (f32 num den)| = |(num : ℚ) / den - f32Value x| →
        f32Value x ≠ f32Value (f32 num den) → (f32 num den).getLsbD 0 = false)

/-- The sub-clock converter (R96): one CLOCK divides `sub + MASTER_CLOCK` by TICK_DIV and keeps the remainder; over
`n` CLOCKs from `sub = 0` exactly `floor(n * MASTER_CLOCK / TICK_DIV)` ticks run; over SAMPLE_RATE CLOCKs, when 8
divides MASTER_CLOCK, exactly `MASTER_CLOCK / 8`. The counts are marked "derived" by the spec itself. -/
def Obligations.SubClockConverter : Prop :=
  ∀ (cfg : Config) (c : ChipState), 0 < cfg.sampleRate →
    dueTicks cfg c = (c.sub + cfg.masterClock) / (8 * cfg.sampleRate) ∧
    (clockChip cfg c).sub = (c.sub + cfg.masterClock) % (8 * cfg.sampleRate) ∧
    (c.sub = 0 → ∀ n,
      ((List.range n).map fun i => dueTicks cfg ((clockChip cfg)^[i] c)).sum =
        n * cfg.masterClock / (8 * cfg.sampleRate) ∧
      ((clockChip cfg)^[n] c).sub = n * cfg.masterClock % (8 * cfg.sampleRate)) ∧
    (c.sub < 8 * cfg.sampleRate → cfg.masterClock % 8 = 0 →
      ((List.range cfg.sampleRate).map fun i => dueTicks cfg ((clockChip cfg)^[i] c)).sum = cfg.masterClock / 8)

/-- CLOCK (R104, R98): the due ticks run, then one mix of the state they leave, the DC update and the latch; the
registers, overrides and mutes are unchanged and so is everything outside the chip. `clockChip`, in which CHIP_GENERATE
and SAMPLE_STEP are stated, is that change of the chip. -/
def Obligations.ClockCommand : Prop :=
  ∀ s : State, s.issuer = .producer →
    ∃ g t,
      g = ticks s.cfg ((s.chip.sub + s.cfg.masterClock) / (8 * s.cfg.sampleRate))
        { s.chip with sub := (s.chip.sub + s.cfg.masterClock) % (8 * s.cfg.sampleRate) } ∧
      g = { s.chip with tcnt := g.tcnt, tout := g.tout, ncnt := g.ncnt, lfsr := g.lfsr, ecnt := g.ecnt,
                        estep := g.estep, eup := g.eup, ehold := g.ehold,
                        sub := (s.chip.sub + s.cfg.masterClock) % (8 * s.cfg.sampleRate) } ∧
      exec .clock s = .next t ∧
      t = s.setChip
        { g with
          dcsum := s.chip.dcsum + mix s.cfg g - s.chip.dcbuf.getD s.chip.dcpos 0
          dcbuf := s.chip.dcbuf.set s.chip.dcpos (mix s.cfg g)
          dcpos := (s.chip.dcpos + 1) % s.cfg.dcWindow
          sample := f32 ((s.cfg.dcWindow * mix s.cfg g : Nat) -
              ((s.chip.dcsum + mix s.cfg g - s.chip.dcbuf.getD s.chip.dcpos 0 : Nat) : Int))
            (s.cfg.dcWindow * 3 * 65535) } ∧
      t = s.setChip (clockChip s.cfg s.chip)

/-- CHIP_GENERATE (R106): COUNT CLOCKs, answering the latch after each. -/
def Obligations.ChipGenerate : Prop :=
  ∀ (s : State) (n : Count), s.issuer = .producer →
    exec (.chipGenerate n) s =
      .next ((s.setChip ((clockChip s.cfg)^[n.toNat] s.chip)).deliver .producer
        (.samples ((List.range n.toNat).map fun i => ((clockChip s.cfg)^[i + 1] s.chip).sample)))

/-! ### Playback -/

/-- FRAME_LEN (45_playback.md R117): one frame's remainder and length; each length is `SR div TR` or one more, at least
1, and the first `n` lengths from `racc = 0` sum to `floor(n * SR / TR)`. -/
def Obligations.FrameLengths : Prop :=
  (∀ (cfg : Config) (e : EngineState),
    let sum := e.racc + cfg.sampleRate % cfg.tickRate
    frameLen cfg e =
      if cfg.tickRate ≤ sum then { e with racc := sum - cfg.tickRate, flen := cfg.sampleRate / cfg.tickRate + 1 }
      else { e with racc := sum, flen := cfg.sampleRate / cfg.tickRate }) ∧
  ∀ (cfg : Config) (e : EngineState), 0 < cfg.tickRate → cfg.tickRate ≤ cfg.sampleRate → e.racc = 0 → ∀ n,
    ((List.range n).map fun i => ((frameLen cfg)^[i + 1] e).flen).sum = n * cfg.sampleRate / cfg.tickRate ∧
    ((frameLen cfg)^[n] e).racc = n * (cfg.sampleRate % cfg.tickRate) % cfg.tickRate ∧
    1 ≤ ((frameLen cfg)^[n + 1] e).flen ∧
    (((frameLen cfg)^[n + 1] e).flen = cfg.sampleRate / cfg.tickRate ∨
      ((frameLen cfg)^[n + 1] e).flen = cfg.sampleRate / cfg.tickRate + 1)

/-- FRAME_LOAD (R118) of the song's frame `k`: the registers take the frame's masked bytes, R13 and the envelope aside
when byte 13 is 0xFF and FRAME_R13_SKIP_FF holds; otherwise the envelope restarts; then FRAME_LEN, then FX_DECODE. -/
def Obligations.FrameLoad : Prop :=
  ∀ (cfg : Config) (k : Nat) (p : Player),
    let b := (frameAt cfg k).bytes
    let skip := cfg.frameR13SkipFf = true ∧ regAt b 13 = 0xFF
    (∀ f, cfg.frames[k]? = some f → frameAt cfg k = f) ∧
    ∃ c : ChipState,
      frameLoad cfg k p = fxDecode cfg (frameAt cfg k).fx { chip := c, eng := frameLen cfg p.eng } ∧
      (∀ a, ¬ (a = 13 ∧ skip) → regAt c.reg a = regAt b a &&& regMask a) ∧
      (skip → regAt c.reg 13 = regAt p.chip.reg 13 ∧ c = { p.chip with reg := c.reg }) ∧
      (¬ skip → c = { p.chip with reg := c.reg, ecnt := 0, estep := 0, eup := (regAt b 13).getLsbD 2,
                                  ehold := false })

/-- SAMPLE_STEP (R119): CLOCK, FX_ADVANCE, then the frame counter; at a frame's end the next frame, the loop point, or
Finished with every effect released. -/
def Obligations.SampleStep : Prop :=
  ∀ (cfg : Config) (p : Player),
    let q := fxAdvance cfg { chip := clockChip cfg p.chip, eng := p.eng }
    (p.eng.sif + 1 ≠ p.eng.flen →
      sampleStep cfg p = { q with eng := { q.eng with sif := p.eng.sif + 1 } }) ∧
    (p.eng.sif + 1 = p.eng.flen → p.eng.cursor + 1 ≠ frameCount cfg →
      sampleStep cfg p =
        frameLoad cfg (p.eng.cursor + 1) { q with eng := { q.eng with sif := 0, cursor := p.eng.cursor + 1 } }) ∧
    (p.eng.sif + 1 = p.eng.flen → p.eng.cursor + 1 = frameCount cfg → loopEnabled cfg = true →
      sampleStep cfg p =
        frameLoad cfg (loopStart cfg) { q with eng := { q.eng with sif := 0, cursor := loopStart cfg } }) ∧
    (p.eng.sif + 1 = p.eng.flen → p.eng.cursor + 1 = frameCount cfg → loopEnabled cfg = false →
      sampleStep cfg p =
        releaseAll { q with eng := { q.eng with sif := 0, cursor := frameCount cfg, state := .finished } }) ∧
    sampleOut cfg p = (clockChip cfg p.chip).sample

/-- PB_PLAY (R120): from Idle or Finished it loads the current frame, frame 0 when the song is over; from Paused it
only goes on; while Playing it does nothing. `play`, in which SongLength is stated, is that change of the player. -/
def Obligations.PlayCommand : Prop :=
  ∀ s : State, s.issuer = .producer →
    exec .pbPlay s = .next (s.setPlayer (play s.cfg s.player)) ∧
    (s.eng.state = .playing → exec .pbPlay s = .next s) ∧
    (s.eng.state = .paused → exec .pbPlay s = .next (s.setEng { s.eng with state := .playing })) ∧
    (s.eng.state = .idle ∨ s.eng.state = .finished →
      ∃ q : Player,
        q = frameLoad s.cfg (if s.eng.cursor = frameCount s.cfg then 0 else s.eng.cursor)
          { chip := s.chip,
            eng := { s.eng with
              cursor := if s.eng.cursor = frameCount s.cfg then 0 else s.eng.cursor, sif := 0 } } ∧
        exec .pbPlay s = .next (s.setPlayer { q with eng := { q.eng with state := .playing } }))

/-- The transitions of PlaybackState, complete, and the codes that PB_STATE answers (R127). -/
def Obligations.PlaybackTransitions : Prop :=
  (∀ s : State, s.issuer = .producer →
    (∃ t, exec .pbPlay s = .next t ∧ t.eng.state = .playing) ∧
    (∃ t, exec .pbPause s = .next t ∧
      t.eng.state = if s.eng.state = .playing then .paused else s.eng.state) ∧
    (∃ t, exec .pbStop s = .next t ∧ t.eng.state = .idle) ∧
    (∀ n, ∃ t, exec (.pbSeek n) s = .next t ∧ t.eng.state = s.eng.state)) ∧
  (∀ s : State, s.allows .reader →
    exec .pbState s = .next (s.deliver s.issuer (.byte
      (match s.eng.state with
        | .idle => 0
        | .playing => 1
        | .paused => 2
        | .finished => 3)))) ∧
  ∀ (cfg : Config) (p : Player), p.eng.state = .playing →
    (sampleStep cfg p).eng.state =
      if p.eng.sif + 1 = p.eng.flen ∧ p.eng.cursor + 1 = frameCount cfg ∧ loopEnabled cfg = false then .finished
      else .playing

/-- PB_PAUSE (R121): Playing goes to Paused and nothing else changes; a PB_GENERATE while Paused answers +0.0 and
PB_PLAY then resumes the very player that was paused. -/
def Obligations.PauseCommand : Prop :=
  ∀ s : State, s.issuer = .producer →
    (s.eng.state = .playing → exec .pbPause s = .next (s.setEng { s.eng with state := .paused })) ∧
    (s.eng.state ≠ .playing → exec .pbPause s = .next s) ∧
    (s.eng.state = .playing → ∀ n : Count,
      execAll [.pbPause, .pbGenerate n, .pbPlay] s =
        .next (s.deliver .producer (.samples (List.replicate n.toNat 0))))

/-- PB_STOP (R122): the effects are released, the sequencer goes to Idle at frame 0 with `racc` 0, `flen` is kept, and
the chip keeps everything but the overrides that effects held. -/
def Obligations.StopCommand : Prop :=
  ∀ s : State, s.issuer = .producer →
    ∃ t, exec .pbStop s = .next t ∧
      t.eng = { s.eng with state := .idle, cursor := 0, sif := 0, racc := 0, slot := PerCh.all .empty } ∧
      (∀ ch, t.chip.ovr.get ch =
        match s.eng.slot.get ch with
        | .sid _ _ _ => none
        | .buzz _ _ => none
        | .empty => s.chip.ovr.get ch
        | .drum _ _ _ _ => s.chip.ovr.get ch) ∧
      (∀ ch, t.chip.drum.get ch =
        match s.eng.slot.get ch with
        | .drum _ _ _ _ => none
        | .empty => s.chip.drum.get ch
        | .sid _ _ _ => s.chip.drum.get ch
        | .buzz _ _ => s.chip.drum.get ch) ∧
      t = s.setPlayer { chip := { s.chip with ovr := t.chip.ovr, drum := t.chip.drum }, eng := t.eng }

/-- PB_GENERATE (R123): one SAMPLE_STEP per sample while Playing, +0.0 with no effect otherwise; exactly COUNT
samples; a batch of `m` and then one of `n` is a batch of `m + n`. -/
def Obligations.GenerateCommand : Prop :=
  (∀ (s : State) (n : Count), s.issuer = .producer →
    ∃ xs : List F32, xs.length = n.toNat ∧
      exec (.pbGenerate n) s =
        .next ((s.setPlayer (generateEngine s.cfg n.toNat s.player).1).deliver .producer (.samples xs)) ∧
      xs = (generateEngine s.cfg n.toNat s.player).2 ∧
      (s.eng.state ≠ .playing →
        exec (.pbGenerate n) s = .next (s.deliver .producer (.samples (List.replicate n.toNat 0))))) ∧
  (∀ (cfg : Config) (p : Player), generateEngine cfg 0 p = (p, [])) ∧
  (∀ (cfg : Config) (p : Player), p.eng.state = .playing →
    generateEngine cfg 1 p = (sampleStep cfg p, [(clockChip cfg p.chip).sample])) ∧
  ∀ (cfg : Config) (m n : Nat) (p : Player),
    generateEngine cfg (m + n) p =
      ((generateEngine cfg n (generateEngine cfg m p).1).1,
        (generateEngine cfg m p).2 ++ (generateEngine cfg n (generateEngine cfg m p).1).2)

/-- PB_SEEK (R125): the target is clamped to the last frame, the effects are released and that frame is loaded at
sample 0; the playback state, the generators' phases, the LFSR, the sub-clock and the DC window are kept, and the
envelope and R13 too when the frame skips R13 and none of its effect words is a valid SYNCBUZZ word (46_effects.md
R131). -/
def Obligations.SeekCommand : Prop :=
  ∀ (s : State) (n : Count), s.Inv → s.issuer = .producer →
    let f := min n.toNat (frameCount s.cfg - 1)
    ∃ t, exec (.pbSeek n) s = .next t ∧
      t = s.setPlayer (frameLoad s.cfg f
        { releaseAll s.player with eng := { (releaseAll s.player).eng with cursor := f, sif := 0 } }) ∧
      t.eng.cursor = f ∧ t.eng.sif = 0 ∧ t.eng.state = s.eng.state ∧ f < frameCount s.cfg ∧
      t.chip.tcnt = s.chip.tcnt ∧ t.chip.tout = s.chip.tout ∧ t.chip.ncnt = s.chip.ncnt ∧
      t.chip.lfsr = s.chip.lfsr ∧ t.chip.sub = s.chip.sub ∧ t.chip.dcbuf = s.chip.dcbuf ∧
      t.chip.dcsum = s.chip.dcsum ∧ t.chip.dcpos = s.chip.dcpos ∧ t.chip.mute = s.chip.mute ∧
      (s.cfg.frameR13SkipFf = true → regAt (frameAt s.cfg f).bytes 13 = 0xFF →
        (∀ w ∈ (frameAt s.cfg f).fx,
          w.toNat / 2 ^ 30 ≠ 3 ∨ w.toNat / 2 ^ 28 % 4 = 3 ∨ w.toNat % 2 ^ 20 = 0) →
        t.chip.ecnt = s.chip.ecnt ∧ t.chip.estep = s.chip.estep ∧ t.chip.eup = s.chip.eup ∧
        t.chip.ehold = s.chip.ehold ∧ regAt t.chip.reg 13 = regAt s.chip.reg 13)

/-- PB_POSITION (R124) answers `f32(cursor / F)` and writes nothing else; at the end of the song that is exactly
1.0. -/
def Obligations.PositionCommand : Prop :=
  (∀ s : State, s.allows .reader →
    exec .pbPosition s = .next (s.deliver s.issuer (.sample (f32 s.eng.cursor (frameCount s.cfg))))) ∧
  ∀ s : State, s.Inv → s.allows .reader → s.eng.cursor = frameCount s.cfg →
    exec .pbPosition s = .next (s.deliver s.issuer (.sample 0x3F800000))

/-- The length of a song that does not loop (R128 item 2): from a fresh PLAY that starts at frame 0 with `racc = 0`,
from Idle or from Finished, exactly `floor(F * SR / TR)` samples come from SAMPLE_STEP, then +0.0 for ever, with the
engine Finished at cursor F. R128 is marked "derived" by the spec itself. -/
def Obligations.SongLength : Prop :=
  ∀ (cfg : Config) (p : Player) (k : Nat), configOk cfg = true → p.Inv cfg →
    p.eng.state = .idle ∨ p.eng.state = .finished → p.eng.cursor = 0 ∨ p.eng.cursor = frameCount cfg →
    p.eng.racc = 0 → loopEnabled cfg = false →
    let q := play cfg p
    let len := frameCount cfg * cfg.sampleRate / cfg.tickRate
    let r := generateEngine cfg (len + k) q
    (∀ i, i < len → ((sampleStep cfg)^[i] q).eng.state = .playing ∧
      r.2[i]? = some (sampleOut cfg ((sampleStep cfg)^[i] q))) ∧
    r.2.length = len + k ∧ (∀ i, i < k → r.2[len + i]? = some 0) ∧
    r.1 = (sampleStep cfg)^[len] q ∧ r.1.eng.state = .finished ∧ r.1.eng.cursor = frameCount cfg

/-- A looping song never finishes (R128 item 1): PB_GENERATE leaves the engine Playing, and at each frame's end the
cursor goes to the next frame, after the last to the loop point. R128 is marked "derived" by the spec itself. -/
def Obligations.LoopNeverFinishes : Prop :=
  ∀ (cfg : Config) (p : Player) (n : Nat), configOk cfg = true → loopEnabled cfg = true → p.Inv cfg →
    p.eng.state = .playing →
    (generateEngine cfg n p).1.eng.state = .playing ∧
    (sampleStep cfg p).eng.cursor =
      (if p.eng.sif + 1 = p.eng.flen then
        (if p.eng.cursor + 1 = frameCount cfg then loopStart cfg else p.eng.cursor + 1)
      else p.eng.cursor) ∧
    (generateEngine cfg n p).1.eng.cursor < frameCount cfg

/-! ### Effects -/

/-- RELEASE and RELEASE_ALL (46_effects.md R130): the slot is emptied and only the override its effect set is cleared;
releasing an empty slot changes nothing. -/
def Obligations.ReleaseEffects : Prop :=
  (∀ (ch : Ch) (p : Player),
    (p.eng.slot.get ch = .empty → release ch p = p) ∧
    (∀ id cur acc rate, p.eng.slot.get ch = .drum id cur acc rate →
      release ch p = { chip := { p.chip with drum := p.chip.drum.set ch none },
                       eng := { p.eng with slot := p.eng.slot.set ch .empty } }) ∧
    (∀ high acc rate, p.eng.slot.get ch = .sid high acc rate →
      release ch p = { chip := { p.chip with ovr := p.chip.ovr.set ch none },
                       eng := { p.eng with slot := p.eng.slot.set ch .empty } }) ∧
    (∀ acc rate, p.eng.slot.get ch = .buzz acc rate →
      release ch p = { chip := { p.chip with ovr := p.chip.ovr.set ch none },
                       eng := { p.eng with slot := p.eng.slot.set ch .empty } })) ∧
  ∀ p : Player, releaseAll p = release .C (release .B (release .A p)) ∧
    ∀ ch, (releaseAll p).eng.slot.get ch = .empty

/-- One effect word (the loop body of R131, by the kinds of 30_encoding.md R64): FX_NOP and invalid words do nothing;
a DIGIDRUM starts from its first byte; a SID or SYNCBUZZ word gives a running effect of its kind the new rate and
otherwise starts one, gate open, the envelope restarted for a SYNCBUZZ. -/
def Obligations.EffectWords : Prop :=
  ∀ (s : State) (fch : BitVec 2) (id : Byte) (rate : BitVec 20),
    exec (.fxNop fch id rate) s = .next s ∧
    (fch = 3 ∨ rate = 0 →
      exec (.fxDigidrum fch id rate) s = .next s ∧ exec (.fxSid fch id rate) s = .next s ∧
      exec (.fxSyncbuzz fch id rate) s = .next s) ∧
    (s.cfg.drumBank.getD id.toNat [] = [] → exec (.fxDigidrum fch id rate) s = .next s) ∧
    ∀ ch : Ch, fch.toNat = ch.num → rate ≠ 0 →
      (∀ b bs, s.cfg.drumBank[id.toNat]? = some (b :: bs) →
        ∃ t, exec (.fxDigidrum fch id rate) s = .next t ∧
          t.eng = { s.eng with slot := s.eng.slot.set ch (.drum id 0 0 rate) } ∧
          t = s.setPlayer
            { chip := { (release ch s.player).chip with drum := s.chip.drum.set ch (some b) }, eng := t.eng }) ∧
      (∀ high acc r, s.eng.slot.get ch = .sid high acc r →
        exec (.fxSid fch id rate) s =
          .next (s.setEng { s.eng with seen := s.eng.seen.set ch true,
                                       slot := s.eng.slot.set ch (.sid high acc rate) })) ∧
      ((∀ high acc r, s.eng.slot.get ch ≠ .sid high acc r) →
        exec (.fxSid fch id rate) s =
          .next (s.setPlayer
            { chip := { (release ch s.player).chip with ovr := s.chip.ovr.set ch (some ⟨true, true⟩) },
              eng := { s.eng with seen := s.eng.seen.set ch true,
                                  slot := s.eng.slot.set ch (.sid true 0 rate) } })) ∧
      (∀ acc r, s.eng.slot.get ch = .buzz acc r →
        exec (.fxSyncbuzz fch id rate) s =
          .next (s.setEng { s.eng with seen := s.eng.seen.set ch true,
                                       slot := s.eng.slot.set ch (.buzz acc rate) })) ∧
      ((∀ acc r, s.eng.slot.get ch ≠ .buzz acc r) →
        exec (.fxSyncbuzz fch id rate) s =
          .next (s.setPlayer
            { chip := { (release ch s.player).chip with
                ovr := s.chip.ovr.set ch (some ⟨true, true⟩)
                ecnt := 0, estep := 0, eup := (regAt s.chip.reg 13).getLsbD 2, ehold := false },
              eng := { s.eng with seen := s.eng.seen.set ch true,
                                  slot := s.eng.slot.set ch (.buzz 0 rate) } }))

/-- FX_DECODE over a frame (R131): with no slot marked renewed it runs the frame's words in list order, each as exec
runs it, so the last valid word for a channel decides its slot; then every Sid or Buzz that no word renewed is released
with its override, and drums and renewed effects stay. So a Sid or Buzz is there afterwards only when the frame has a
valid word of its kind for its channel; a channel for which every word of the frame is ignored (FX_NOP, another
channel, rate 0, or a DIGIDRUM word whose id is absent or empty) keeps its drum and loses its Sid or Buzz. That the
marks stand in the state, and are clear when no decode runs, is the model's choice (log 11). -/
def Obligations.SidBuzzNeedRenewal : Prop :=
  (∀ (s : State) (ws : List Word),
    ∃ t, execAll (ws.map decodeEffect) (s.setEng { s.eng with seen := PerCh.all false, fxq := none }) = .next t ∧
      t = s.setPlayer t.player ∧ fxDecode s.cfg ws s.player = fxFinish t.player) ∧
  (∀ p : Player,
    let q := fxFinish p
    q = { chip := { p.chip with ovr := q.chip.ovr },
          eng := { p.eng with slot := q.eng.slot, seen := PerCh.all false, fxq := none } } ∧
    ∀ ch : Ch,
      match p.eng.slot.get ch, p.eng.seen.get ch with
      | .sid _ _ _, false => q.eng.slot.get ch = .empty ∧ q.chip.ovr.get ch = none
      | .buzz _ _, false => q.eng.slot.get ch = .empty ∧ q.chip.ovr.get ch = none
      | x, _ => q.eng.slot.get ch = x ∧ q.chip.ovr.get ch = p.chip.ovr.get ch) ∧
  ∀ (cfg : Config) (ws : List Word) (p : Player) (ch : Ch),
    (∀ high acc rate, (fxDecode cfg ws p).eng.slot.get ch = .sid high acc rate →
      ∃ w ∈ ws, w.toNat / 2 ^ 30 = 2 ∧ w.toNat / 2 ^ 28 % 4 = ch.num ∧ w.toNat % 2 ^ 20 ≠ 0) ∧
    (∀ acc rate, (fxDecode cfg ws p).eng.slot.get ch = .buzz acc rate →
      ∃ w ∈ ws, w.toNat / 2 ^ 30 = 3 ∧ w.toNat / 2 ^ 28 % 4 = ch.num ∧ w.toNat % 2 ^ 20 ≠ 0) ∧
    ((∀ w ∈ ws, w.toNat / 2 ^ 30 = 0 ∨ w.toNat / 2 ^ 28 % 4 ≠ ch.num ∨ w.toNat % 2 ^ 20 = 0 ∨
        (w.toNat / 2 ^ 30 = 1 ∧ cfg.drumBank.getD (w.toNat / 2 ^ 20 % 256) [] = [])) →
      (fxDecode cfg ws p).chip.drum.get ch = p.chip.drum.get ch ∧
      match p.eng.slot.get ch with
      | .empty =>
        (fxDecode cfg ws p).eng.slot.get ch = .empty ∧ (fxDecode cfg ws p).chip.ovr.get ch = p.chip.ovr.get ch
      | .drum id cur acc rate =>
        (fxDecode cfg ws p).eng.slot.get ch = .drum id cur acc rate ∧
          (fxDecode cfg ws p).chip.ovr.get ch = p.chip.ovr.get ch
      | .sid _ _ _ =>
        (fxDecode cfg ws p).eng.slot.get ch = .empty ∧ (fxDecode cfg ws p).chip.ovr.get ch = none
      | .buzz _ _ =>
        (fxDecode cfg ws p).eng.slot.get ch = .empty ∧ (fxDecode cfg ws p).chip.ovr.get ch = none)

/-- FX_ADVANCE over any number of samples (R132, R134, R135), whatever the other channels' effects do: a Sid or Buzz
has `floor((acc + n * rate) / SAMPLE_RATE)` events; each turns a Sid's gate over; a Buzz keeps its channel's overrides;
an empty slot and its channel's overrides stay as they are. In one sample the envelope restarts when some Buzz has an
event due, and is left alone when none has; of the engine FX_ADVANCE changes the slots alone. -/
def Obligations.SidAndBuzzEvents : Prop :=
  (∀ (cfg : Config) (p : Player) (ch : Ch), 0 < cfg.sampleRate →
    (∀ high acc rate, p.eng.slot.get ch = .sid high acc rate → acc < cfg.sampleRate → ∀ n,
      let events := (acc + n * rate.toNat) / cfg.sampleRate
      let q := (fxAdvance cfg)^[n] p
      let h := high ^^ decide (events % 2 = 1)
      q.eng.slot.get ch = .sid h ((acc + n * rate.toNat) % cfg.sampleRate) rate ∧
      q.chip.ovr.get ch = (if events = 0 then p.chip.ovr.get ch else some ⟨h, h⟩) ∧
      q.chip.drum.get ch = p.chip.drum.get ch) ∧
    (∀ acc rate, p.eng.slot.get ch = .buzz acc rate → acc < cfg.sampleRate → ∀ n,
      let q := (fxAdvance cfg)^[n] p
      q.eng.slot.get ch = .buzz ((acc + n * rate.toNat) % cfg.sampleRate) rate ∧
      q.chip.ovr.get ch = p.chip.ovr.get ch ∧ q.chip.drum.get ch = p.chip.drum.get ch) ∧
    (∀ acc rate, p.eng.slot.get ch = .buzz acc rate → cfg.sampleRate ≤ acc + rate.toNat →
      (fxAdvance cfg p).chip.ecnt = 0 ∧ (fxAdvance cfg p).chip.estep = 0 ∧
      (fxAdvance cfg p).chip.eup = (regAt p.chip.reg 13).getLsbD 2 ∧ (fxAdvance cfg p).chip.ehold = false) ∧
    (p.eng.slot.get ch = .empty → ∀ n,
      let q := (fxAdvance cfg)^[n] p
      q.eng.slot.get ch = .empty ∧ q.chip.ovr.get ch = p.chip.ovr.get ch ∧
      q.chip.drum.get ch = p.chip.drum.get ch)) ∧
  ∀ (cfg : Config) (p : Player),
    ((∀ ch acc rate, p.eng.slot.get ch = .buzz acc rate → acc + rate.toNat < cfg.sampleRate) →
      (fxAdvance cfg p).chip.ecnt = p.chip.ecnt ∧ (fxAdvance cfg p).chip.estep = p.chip.estep ∧
      (fxAdvance cfg p).chip.eup = p.chip.eup ∧ (fxAdvance cfg p).chip.ehold = p.chip.ehold) ∧
    (fxAdvance cfg p).eng = { p.eng with slot := (fxAdvance cfg p).eng.slot }

/-- A drum plays its bytes in order and is then released (R132, R133): after `n` samples it has moved on by
`floor((acc + n * rate) / SAMPLE_RATE)` bytes, and past its last byte its slot is empty and its drum override clear; the
channel's mixer override is left alone. The bytes are DRUM_BANK's entry. -/
def Obligations.DrumPlaysItsBytes : Prop :=
  ∀ (cfg : Config) (p : Player) (ch : Ch) (id : Byte) (cur acc : Nat) (rate : BitVec 20), 0 < cfg.sampleRate →
    p.eng.slot.get ch = .drum id cur acc rate → acc < cfg.sampleRate →
    cur < (drumSample cfg id).length → p.chip.drum.get ch = (drumSample cfg id)[cur]? → ∀ n,
    let events := (acc + n * rate.toNat) / cfg.sampleRate
    let q := (fxAdvance cfg)^[n] p
    drumSample cfg id = (cfg.drumBank[id.toNat]?).getD [] ∧ q.chip.ovr.get ch = p.chip.ovr.get ch ∧
    (cur + events < (drumSample cfg id).length →
      q.eng.slot.get ch = .drum id (cur + events) ((acc + n * rate.toNat) % cfg.sampleRate) rate ∧
      q.chip.drum.get ch = (drumSample cfg id)[cur + events]?) ∧
    ((drumSample cfg id).length ≤ cur + events →
      q.eng.slot.get ch = .empty ∧ q.chip.drum.get ch = none)

/-- The effects change the chip only through the hooks (R136): whatever an effect word, FX_DECODE or FX_ADVANCE does,
the chip differs in its mixer and drum overrides alone, or in these and in the envelope restart of TRIGGER_ENV
(44_mixer_chip.md R108); a release differs in the overrides alone. -/
def Obligations.EffectsUseHooksOnly : Prop :=
  (∀ (i : Instr) (s t : State), i.isEffect = true → exec i s = .next t →
    t.chip = { s.chip with ovr := t.chip.ovr, drum := t.chip.drum } ∨
    t.chip = { s.chip with ovr := t.chip.ovr, drum := t.chip.drum, ecnt := 0, estep := 0,
                           eup := (regAt s.chip.reg 13).getLsbD 2, ehold := false }) ∧
  (∀ (cfg : Config) (ws : List Word) (p q : Player), q = fxDecode cfg ws p ∨ q = fxAdvance cfg p →
    q.chip = { p.chip with ovr := q.chip.ovr, drum := q.chip.drum } ∨
    q.chip = { p.chip with ovr := q.chip.ovr, drum := q.chip.drum, ecnt := 0, estep := 0,
                           eup := (regAt p.chip.reg 13).getLsbD 2, ehold := false }) ∧
  ∀ p : Player,
    (releaseAll p).chip = { p.chip with ovr := (releaseAll p).chip.ovr, drum := (releaseAll p).chip.drum }

/-! ### The ring buffer -/

/-- RB_WRITE_NB that nobody interrupts (47_ring_buffer.md R141; the turn of the schedule it uses up is log 7, that it
sees the newest cursors log 13): it writes the samples that fit into the slots from the write cursor on, wrapping,
moves the write cursor, answers the count, and changes nothing else. `commitWrite`, in which the other write statements
are made, is that change of the ring. -/
def Obligations.RingWrite : Prop :=
  ∀ (s : State) (xs : List F32), s.Inv → s.issuer = .producer → s.uninterrupted .producer →
    let g := s.ring
    let n := min xs.length (g.cap - 1 - (g.w + g.cap - g.r) % g.cap)
    ∃ t, exec (.rbWriteNb xs) s = .next t ∧
      (∀ i, i < n → Memory.read t.ring.buf ((g.w + i) % g.cap) = xs[i]?) ∧
      (∀ j, (∀ i, i < n → j ≠ (g.w + i) % g.cap) → Memory.read t.ring.buf j = Memory.read g.buf j) ∧
      t.ring = { g with buf := t.ring.buf, w := (g.w + n) % g.cap } ∧ t.ring = commitWrite xs n g ∧
      t = (((s.setSched s.sched.tail).setRing t.ring).setBusy .producer none).deliver .producer (.nat n)

/-- RB_READ that nobody interrupts (R143; the turn of the schedule it uses up is log 7, that it sees the newest
cursors log 13): it returns the samples that are there, oldest first, moves the read cursor, counts what it returned
and a shortfall, and changes nothing else. `pending` and `advanceRead`, in which the sub-step and FIFO statements are
made, are these samples and that change of the ring. -/
def Obligations.RingRead : Prop :=
  ∀ (s : State) (count : Count), s.Inv → s.issuer = .consumer → s.uninterrupted .consumer →
    let g := s.ring
    let n := min count.toNat ((g.w + g.cap - g.r) % g.cap)
    ∃ t out, exec (.rbRead count) s = .next t ∧ out.length = n ∧
      (∀ i, i < n → out[i]? = Memory.read g.buf ((g.r + i) % g.cap)) ∧ out = (pending g).take n ∧
      advanceRead count.toNat n g =
        { g with r := (g.r + n) % g.cap, played := g.played + BitVec.ofNat 64 n,
                 under := if n < count.toNat then g.under + 1 else g.under } ∧
      t = (((s.setSched s.sched.tail).setRing
          { g with r := (g.r + n) % g.cap, played := g.played + BitVec.ofNat 64 n,
                   under := if n < count.toNat then g.under + 1 else g.under }).setBusy .consumer
            none).deliver .consumer (.read n out)

/-- The three queries answer from one snapshot of the cursors and write nothing else; over one snapshot the two counts
sum to `cap - 1`; a full ring is 100.0, an empty one 0.0 (R144, R145, R146). That a query sees the newest cursors is
the model's choice (log 13). -/
def Obligations.RingQueries : Prop :=
  ∀ s : State, s.Inv → s.allows .eitherRole →
    ∃ a b : Nat, exec .rbAvailWrite s = .next (s.deliver s.issuer (.nat a)) ∧
      exec .rbAvailRead s = .next (s.deliver s.issuer (.nat b)) ∧
      a = availWrite s.ring ∧ b = availRead s.ring ∧
      b = (s.ring.w + s.ring.cap - s.ring.r) % s.ring.cap ∧ a + b = s.ring.cap - 1 ∧
      exec .rbFillPct s =
        .next (s.deliver s.issuer (.sample (f32 ((100 * b : Nat) : Int) (s.ring.cap - 1)))) ∧
      (a = 0 → exec .rbFillPct s = .next (s.deliver s.issuer (.sample 0x42C80000))) ∧
      (b = 0 → exec .rbFillPct s = .next (s.deliver s.issuer (.sample 0)))

/-- RB_FLUSH that nobody interrupts (log 7) discards the unread samples by moving the read cursor alone (R147);
RB_STATS answers the two counters, exactly from the consumer, and from the producer as two loads (R148). That the
producer's loads and the flush see the newest values, where R148 lets the producer's snapshot lag, is the model's
choice (log 13). -/
def Obligations.RingFlushAndStats : Prop :=
  ∀ s : State,
    (s.issuer = .consumer → s.uninterrupted .consumer →
      exec .rbFlush s =
        .next (((s.setSched s.sched.tail).setRing { s.ring with r := s.ring.w }).setBusy .consumer none)) ∧
    (s.issuer = .consumer →
      exec .rbStats s = .next (s.deliver .consumer (.stats s.ring.played s.ring.under))) ∧
    (s.issuer = .producer → s.uninterrupted .producer →
      exec .rbStats s =
        .next (((s.setSched s.sched.tail).setBusy .producer none).deliver .producer
          (.stats s.ring.played s.ring.under))) ∧
    ∀ played, resumeOp (.stats played) s =
      .next ((s.setBusy .producer none).deliver .producer (.stats played s.ring.under))

/-- RB_WRITE_BLK (R142): when everything fits, or with no retries, it is RB_WRITE_NB; otherwise it writes what fits
and sleeps; each waking is another attempt, and after at most RB_RETRY_LIMIT + 1 attempts it answers the count
written, even when data remains. That a sleep ends the step and that an attempt sees the newest cursors are the
model's choices (log 7, 13). -/
def Obligations.RingBlockingWrite : Prop :=
  ∀ s : State, s.Inv → s.issuer = .producer → s.uninterrupted .producer →
    (∀ xs : List F32, xs.length ≤ availWrite s.ring ∨ s.cfg.rbRetryLimit = 0 →
      exec (.rbWriteBlk xs) s = exec (.rbWriteNb xs) s) ∧
    (∀ xs : List F32, availWrite s.ring < xs.length → 0 < s.cfg.rbRetryLimit →
      exec (.rbWriteBlk xs) s =
        .next (((s.setSched s.sched.tail).setRing (commitWrite xs (availWrite s.ring) s.ring)).setBusy .producer
          (some (.asleep (xs.drop (availWrite s.ring)) (availWrite s.ring) 1)))) ∧
    (∀ rest done sleeps, (s.port .producer).busy = some (.asleep rest done sleeps) →
      let n := min rest.length (availWrite s.ring)
      resumeOp (.asleep rest done sleeps) s =
        .next (if n = rest.length ∨ sleeps = s.cfg.rbRetryLimit then
          (((s.setSched s.sched.tail).setRing (commitWrite rest n s.ring)).setBusy .producer none).deliver .producer
            (.nat (done + n))
        else
          ((s.setSched s.sched.tail).setRing (commitWrite rest n s.ring)).setBusy .producer
            (some (.asleep (rest.drop n) (done + n) (sleeps + 1))))) ∧
    ∀ rest done sleeps, s.eng.fxq = none → (s.port .producer).busy = some (.asleep rest done sleeps) →
      (∃ m, s.sched = List.replicate (2 * (s.cfg.rbRetryLimit + 1) + m) .producer) →
      ∃ k t written, k ≤ s.cfg.rbRetryLimit + 1 ∧ steps k s = .next t ∧ (t.port .producer).busy = none ∧
        (t.port .producer).answers = (s.port .producer).answers ++ [.nat written] ∧
        done ≤ written ∧ written ≤ done + rest.length

/-- The sub-steps of the ring commands (R140, R142): when another agent has the next turn the command, or the next
attempt of an RB_WRITE_BLK that wakes, stands in its port after its load, with nothing else changed, and its commit
later acts on the ring as it is then. The second load of the producer's RB_STATS is in RingFlushAndStats. The
representation of a command under way is the model's (log 7); that a load, the producer's of the counters included,
sees the newest values is its choice too (log 13; R148 says "may lag"). -/
def Obligations.RingSubSteps : Prop :=
  (∀ (s : State) (b : Agent) (l : List Agent), s.sched = b :: l → b ≠ .producer → s.issuer = .producer →
    (∀ xs, exec (.rbWriteNb xs) s =
      .next (s.setBusy .producer (some (.write xs (min xs.length (availWrite s.ring)))))) ∧
    (∀ xs, exec (.rbWriteBlk xs) s =
      .next (s.setBusy .producer (some (.writeBlk xs (min xs.length (availWrite s.ring)) 0 0)))) ∧
    exec .rbStats s = .next (s.setBusy .producer (some (.stats s.ring.played))) ∧
    ∀ rest done sleeps, resumeOp (.asleep rest done sleeps) s =
      .next (s.setBusy .producer
        (some (.writeBlk rest (min rest.length (availWrite s.ring)) done sleeps)))) ∧
  (∀ (s : State) (b : Agent) (l : List Agent), s.sched = b :: l → b ≠ .consumer → s.issuer = .consumer →
    (∀ n, exec (.rbRead n) s =
      .next (s.setBusy .consumer (some (.read n.toNat (min n.toNat (availRead s.ring)))))) ∧
    exec .rbFlush s = .next (s.setBusy .consumer (some (.flush s.ring.w)))) ∧
  ∀ s : State, s.Inv →
    (∀ xs n, (s.port .producer).busy = some (.write xs n) →
      resumeOp (.write xs n) s =
        .next (((s.setRing (commitWrite xs n s.ring)).setBusy .producer none).deliver .producer (.nat n))) ∧
    (∀ rest n done sleeps, (s.port .producer).busy = some (.writeBlk rest n done sleeps) →
      resumeOp (.writeBlk rest n done sleeps) s =
        .next (if n = rest.length ∨ sleeps = s.cfg.rbRetryLimit then
          ((s.setRing (commitWrite rest n s.ring)).setBusy .producer none).deliver .producer (.nat (done + n))
        else
          (s.setRing (commitWrite rest n s.ring)).setBusy .producer
            (some (.asleep (rest.drop n) (done + n) (sleeps + 1))))) ∧
    (∀ count n, (s.port .consumer).busy = some (.read count n) →
      resumeOp (.read count n) s =
        .next (((s.setRing (advanceRead count n s.ring)).setBusy .consumer none).deliver .consumer
          (.read n ((pending s.ring).take n)))) ∧
    ∀ wa, (s.port .consumer).busy = some (.flush wa) →
      resumeOp (.flush wa) s = .next ((s.setRing { s.ring with r := wa }).setBusy .consumer none)

/-- The ring is a FIFO (R149), in every interleaving of sub-steps (log 7, 13): every snapshot holds at most `cap - 1`
samples; a step that commits a write appends exactly the samples accepted from that command to the unread samples and
counts them for the producer; a step that commits a read takes exactly the samples it returns off their front; a step
that commits a flush discards the samples before the write cursor it loaded; a step that commits nothing leaves the
ring and the samples returned by reads alone; and a write of N <= cap - 1 samples to an empty ring is returned whole
and in order by a read of N. R149 is marked "derived" by the spec itself. -/
def Obligations.RingIsFifo : Prop :=
  (∀ s : State, s.Inv → (s.ring.w + s.ring.cap - s.ring.r) % s.ring.cap ≤ s.ring.cap - 1) ∧
  (∀ s t : State, s.Inv → step s = .next t →
    (∀ xs n done, s.commitsWrite xs n done →
      n ≤ xs.length ∧ pending t.ring = pending s.ring ++ xs.take n ∧ t.ring.r = s.ring.r ∧
      t.ring.played = s.ring.played ∧ t.ring.under = s.ring.under ∧
      (t.port .consumer).answers = (s.port .consumer).answers ∧
      ((t.port .producer).busy = none ∧
          (t.port .producer).answers = (s.port .producer).answers ++ [.nat (done + n)] ∨
        (∃ sleeps, (t.port .producer).busy = some (.asleep (xs.drop n) (done + n) sleeps)) ∧
          (t.port .producer).answers = (s.port .producer).answers)) ∧
    (∀ count n, s.commitsRead count n →
      n ≤ count ∧ n ≤ (pending s.ring).length ∧ pending t.ring = (pending s.ring).drop n ∧ t.ring.w = s.ring.w ∧
      t.ring.played = s.ring.played + BitVec.ofNat 64 n ∧
      t.ring.under = (if n < count then s.ring.under + 1 else s.ring.under) ∧
      (t.port .consumer).answers = (s.port .consumer).answers ++ [.read n ((pending s.ring).take n)]) ∧
    (∀ wa, s.commitsFlush wa →
      pending t.ring = (pending s.ring).drop ((wa + s.ring.cap - s.ring.r) % s.ring.cap) ∧
      t.ring = { s.ring with r := wa } ∧ (t.port .consumer).answers = (s.port .consumer).answers) ∧
    ((∀ xs n done, ¬ s.commitsWrite xs n done) → (∀ count n, ¬ s.commitsRead count n) →
      (∀ wa, ¬ s.commitsFlush wa) →
      t.ring = s.ring ∧ (t.port .consumer).reads = (s.port .consumer).reads)) ∧
  ∀ (s : State) (xs : List F32) (count : Count), s.Inv → s.issuer = .producer → s.sched = [] →
    s.ring.w = s.ring.r → xs.length ≤ s.ring.cap - 1 → count.toNat = xs.length →
    ∃ t u, exec (.rbWriteNb xs) s = .next t ∧
      (t.port .producer).answers = (s.port .producer).answers ++ [.nat xs.length] ∧
      exec (.rbRead count) (t.setIssuer .consumer) = .next u ∧
      (u.port .consumer).answers = (s.port .consumer).answers ++ [.read xs.length xs]

/-! ### The whole machine -/

/-- From every state in range, whatever it does, a step faults never and leaves a state in range: registers masked,
the LFSR nonzero, the DC window's sum right, cursors and counters in their ranges, the ring's slots in canonical form
and every unread slot written (10_state.md R14, R25, R26, R36 to R42; 20_memory.md R45, R54). -/
def Obligations.StepKeepsInvariant : Prop :=
  ∀ s : State, s.Inv → (∀ f, step s ≠ .fault f) ∧ ∀ t, step s = .next t → t.Inv

/-- The configuration never changes (10_state.md R34), and no step changes both a player and the ring (20_memory.md
R53, 60_exceptions.md R161). -/
def Obligations.ConfigFixedUnitsSeparate : Prop :=
  ∀ s t : State, step s = .next t → t.cfg = s.cfg ∧ (t.player = s.player ∨ t.ring = s.ring)
end

