-- ==== Sys2Proof/Laws/State.lean ====
section
/-! SUPPORT. One lemma per field per update: channels, ports, and the updates of the state by name. -/

namespace Sys2Proof

namespace PerCh

variable {α : Type}

@[simp] theorem get_set_same (p : PerCh α) (ch : Ch) (x : α) : (p.set ch x).get ch = x := by
  cases ch <;> rfl

theorem get_set_ne (p : PerCh α) {ch d : Ch} (x : α) (h : d ≠ ch) : (p.set ch x).get d = p.get d := by
  cases ch <;> cases d <;> first | rfl | exact absurd rfl h

theorem get_set (p : PerCh α) (ch d : Ch) (x : α) :
    (p.set ch x).get d = if d = ch then x else p.get d := by
  cases ch <;> cases d <;> rfl

@[simp] theorem get_all (x : α) (ch : Ch) : (PerCh.all x).get ch = x := by cases ch <;> rfl

@[simp] theorem get_mk_A (x y z : α) : (PerCh.mk x y z).get .A = x := rfl
@[simp] theorem get_mk_B (x y z : α) : (PerCh.mk x y z).get .B = y := rfl
@[simp] theorem get_mk_C (x y z : α) : (PerCh.mk x y z).get .C = z := rfl

theorem ext_get {p q : PerCh α} (h : ∀ ch, p.get ch = q.get ch) : p = q := by
  cases p; cases q
  have ha := h .A; have hb := h .B; have hc := h .C
  simp only [get] at ha hb hc
  simp [ha, hb, hc]

end PerCh

namespace Machine

namespace State

@[simp] theorem cfg_setPlayer (p : Player) (s : State) : (s.setPlayer p).cfg = s.cfg := rfl
@[simp] theorem player_setPlayer (p : Player) (s : State) : (s.setPlayer p).player = p := rfl
@[simp] theorem chip_setPlayer (p : Player) (s : State) : (s.setPlayer p).chip = p.chip := rfl
@[simp] theorem eng_setPlayer (p : Player) (s : State) : (s.setPlayer p).eng = p.eng := rfl
@[simp] theorem ring_setPlayer (p : Player) (s : State) : (s.setPlayer p).ring = s.ring := rfl
@[simp] theorem sched_setPlayer (p : Player) (s : State) : (s.setPlayer p).sched = s.sched := rfl
@[simp] theorem issuer_setPlayer (p : Player) (s : State) : (s.setPlayer p).issuer = s.issuer := rfl
@[simp] theorem draws_setPlayer (p : Player) (s : State) : (s.setPlayer p).draws = s.draws := rfl
@[simp] theorem port_setPlayer (p : Player) (s : State) (q : Agent) : (s.setPlayer p).port q = s.port q := by cases q <;> rfl

@[simp] theorem cfg_setChip (c : ChipState) (s : State) : (s.setChip c).cfg = s.cfg := rfl
@[simp] theorem player_setChip (c : ChipState) (s : State) : (s.setChip c).player = { s.player with chip := c } := rfl
@[simp] theorem chip_setChip (c : ChipState) (s : State) : (s.setChip c).chip = c := rfl
@[simp] theorem eng_setChip (c : ChipState) (s : State) : (s.setChip c).eng = s.eng := rfl
@[simp] theorem ring_setChip (c : ChipState) (s : State) : (s.setChip c).ring = s.ring := rfl
@[simp] theorem sched_setChip (c : ChipState) (s : State) : (s.setChip c).sched = s.sched := rfl
@[simp] theorem issuer_setChip (c : ChipState) (s : State) : (s.setChip c).issuer = s.issuer := rfl
@[simp] theorem draws_setChip (c : ChipState) (s : State) : (s.setChip c).draws = s.draws := rfl
@[simp] theorem port_setChip (c : ChipState) (s : State) (q : Agent) : (s.setChip c).port q = s.port q := by cases q <;> rfl

@[simp] theorem cfg_setEng (e : EngineState) (s : State) : (s.setEng e).cfg = s.cfg := rfl
@[simp] theorem player_setEng (e : EngineState) (s : State) : (s.setEng e).player = { s.player with eng := e } := rfl
@[simp] theorem chip_setEng (e : EngineState) (s : State) : (s.setEng e).chip = s.chip := rfl
@[simp] theorem eng_setEng (e : EngineState) (s : State) : (s.setEng e).eng = e := rfl
@[simp] theorem ring_setEng (e : EngineState) (s : State) : (s.setEng e).ring = s.ring := rfl
@[simp] theorem sched_setEng (e : EngineState) (s : State) : (s.setEng e).sched = s.sched := rfl
@[simp] theorem issuer_setEng (e : EngineState) (s : State) : (s.setEng e).issuer = s.issuer := rfl
@[simp] theorem draws_setEng (e : EngineState) (s : State) : (s.setEng e).draws = s.draws := rfl
@[simp] theorem port_setEng (e : EngineState) (s : State) (q : Agent) : (s.setEng e).port q = s.port q := by cases q <;> rfl

@[simp] theorem cfg_setRing (g : RingState) (s : State) : (s.setRing g).cfg = s.cfg := rfl
@[simp] theorem player_setRing (g : RingState) (s : State) : (s.setRing g).player = s.player := rfl
@[simp] theorem chip_setRing (g : RingState) (s : State) : (s.setRing g).chip = s.chip := rfl
@[simp] theorem eng_setRing (g : RingState) (s : State) : (s.setRing g).eng = s.eng := rfl
@[simp] theorem ring_setRing (g : RingState) (s : State) : (s.setRing g).ring = g := rfl
@[simp] theorem sched_setRing (g : RingState) (s : State) : (s.setRing g).sched = s.sched := rfl
@[simp] theorem issuer_setRing (g : RingState) (s : State) : (s.setRing g).issuer = s.issuer := rfl
@[simp] theorem draws_setRing (g : RingState) (s : State) : (s.setRing g).draws = s.draws := rfl
@[simp] theorem port_setRing (g : RingState) (s : State) (q : Agent) : (s.setRing g).port q = s.port q := by cases q <;> rfl

@[simp] theorem cfg_setSched (l : List Agent) (s : State) : (s.setSched l).cfg = s.cfg := rfl
@[simp] theorem player_setSched (l : List Agent) (s : State) : (s.setSched l).player = s.player := rfl
@[simp] theorem chip_setSched (l : List Agent) (s : State) : (s.setSched l).chip = s.chip := rfl
@[simp] theorem eng_setSched (l : List Agent) (s : State) : (s.setSched l).eng = s.eng := rfl
@[simp] theorem ring_setSched (l : List Agent) (s : State) : (s.setSched l).ring = s.ring := rfl
@[simp] theorem sched_setSched (l : List Agent) (s : State) : (s.setSched l).sched = l := rfl
@[simp] theorem issuer_setSched (l : List Agent) (s : State) : (s.setSched l).issuer = s.issuer := rfl
@[simp] theorem draws_setSched (l : List Agent) (s : State) : (s.setSched l).draws = s.draws := rfl
@[simp] theorem port_setSched (l : List Agent) (s : State) (q : Agent) : (s.setSched l).port q = s.port q := by cases q <;> rfl

@[simp] theorem cfg_setIssuer (a : Agent) (s : State) : (s.setIssuer a).cfg = s.cfg := rfl
@[simp] theorem player_setIssuer (a : Agent) (s : State) : (s.setIssuer a).player = s.player := rfl
@[simp] theorem chip_setIssuer (a : Agent) (s : State) : (s.setIssuer a).chip = s.chip := rfl
@[simp] theorem eng_setIssuer (a : Agent) (s : State) : (s.setIssuer a).eng = s.eng := rfl
@[simp] theorem ring_setIssuer (a : Agent) (s : State) : (s.setIssuer a).ring = s.ring := rfl
@[simp] theorem sched_setIssuer (a : Agent) (s : State) : (s.setIssuer a).sched = s.sched := rfl
@[simp] theorem issuer_setIssuer (a : Agent) (s : State) : (s.setIssuer a).issuer = a := rfl
@[simp] theorem draws_setIssuer (a : Agent) (s : State) : (s.setIssuer a).draws = s.draws := rfl
@[simp] theorem port_setIssuer (a : Agent) (s : State) (q : Agent) : (s.setIssuer a).port q = s.port q := by cases q <;> rfl

@[simp] theorem cfg_setDraws (n : Nat) (s : State) : (s.setDraws n).cfg = s.cfg := rfl
@[simp] theorem player_setDraws (n : Nat) (s : State) : (s.setDraws n).player = s.player := rfl
@[simp] theorem chip_setDraws (n : Nat) (s : State) : (s.setDraws n).chip = s.chip := rfl
@[simp] theorem eng_setDraws (n : Nat) (s : State) : (s.setDraws n).eng = s.eng := rfl
@[simp] theorem ring_setDraws (n : Nat) (s : State) : (s.setDraws n).ring = s.ring := rfl
@[simp] theorem sched_setDraws (n : Nat) (s : State) : (s.setDraws n).sched = s.sched := rfl
@[simp] theorem issuer_setDraws (n : Nat) (s : State) : (s.setDraws n).issuer = s.issuer := rfl
@[simp] theorem draws_setDraws (n : Nat) (s : State) : (s.setDraws n).draws = n := rfl
@[simp] theorem port_setDraws (n : Nat) (s : State) (q : Agent) : (s.setDraws n).port q = s.port q := by cases q <;> rfl

@[simp] theorem cfg_setPort (a : Agent) (p : Port) (s : State) : (s.setPort a p).cfg = s.cfg := by cases a <;> rfl
@[simp] theorem player_setPort (a : Agent) (p : Port) (s : State) : (s.setPort a p).player = s.player := by cases a <;> rfl
@[simp] theorem chip_setPort (a : Agent) (p : Port) (s : State) : (s.setPort a p).chip = s.chip := by cases a <;> rfl
@[simp] theorem eng_setPort (a : Agent) (p : Port) (s : State) : (s.setPort a p).eng = s.eng := by cases a <;> rfl
@[simp] theorem ring_setPort (a : Agent) (p : Port) (s : State) : (s.setPort a p).ring = s.ring := by cases a <;> rfl
@[simp] theorem sched_setPort (a : Agent) (p : Port) (s : State) : (s.setPort a p).sched = s.sched := by cases a <;> rfl
@[simp] theorem issuer_setPort (a : Agent) (p : Port) (s : State) : (s.setPort a p).issuer = s.issuer := by cases a <;> rfl
@[simp] theorem draws_setPort (a : Agent) (p : Port) (s : State) : (s.setPort a p).draws = s.draws := by cases a <;> rfl
@[simp] theorem port_setPort (a : Agent) (p : Port) (s : State) (q : Agent) :
    (s.setPort a p).port q = if q = a then p else s.port q := by
  cases a <;> cases q <;> rfl

@[simp] theorem cfg_setBusy (a : Agent) (op : Option RingOp) (s : State) : (s.setBusy a op).cfg = s.cfg := by cases a <;> rfl
@[simp] theorem player_setBusy (a : Agent) (op : Option RingOp) (s : State) : (s.setBusy a op).player = s.player := by cases a <;> rfl
@[simp] theorem chip_setBusy (a : Agent) (op : Option RingOp) (s : State) : (s.setBusy a op).chip = s.chip := by cases a <;> rfl
@[simp] theorem eng_setBusy (a : Agent) (op : Option RingOp) (s : State) : (s.setBusy a op).eng = s.eng := by cases a <;> rfl
@[simp] theorem ring_setBusy (a : Agent) (op : Option RingOp) (s : State) : (s.setBusy a op).ring = s.ring := by cases a <;> rfl
@[simp] theorem sched_setBusy (a : Agent) (op : Option RingOp) (s : State) : (s.setBusy a op).sched = s.sched := by cases a <;> rfl
@[simp] theorem issuer_setBusy (a : Agent) (op : Option RingOp) (s : State) : (s.setBusy a op).issuer = s.issuer := by cases a <;> rfl
@[simp] theorem draws_setBusy (a : Agent) (op : Option RingOp) (s : State) : (s.setBusy a op).draws = s.draws := by cases a <;> rfl
@[simp] theorem port_setBusy (a : Agent) (op : Option RingOp) (s : State) (q : Agent) :
    (s.setBusy a op).port q = if q = a then { s.port a with busy := op } else s.port q := by
  cases a <;> cases q <;> rfl

@[simp] theorem cfg_deliver (a : Agent) (x : Answer) (s : State) : (s.deliver a x).cfg = s.cfg := by cases a <;> rfl
@[simp] theorem player_deliver (a : Agent) (x : Answer) (s : State) : (s.deliver a x).player = s.player := by cases a <;> rfl
@[simp] theorem chip_deliver (a : Agent) (x : Answer) (s : State) : (s.deliver a x).chip = s.chip := by cases a <;> rfl
@[simp] theorem eng_deliver (a : Agent) (x : Answer) (s : State) : (s.deliver a x).eng = s.eng := by cases a <;> rfl
@[simp] theorem ring_deliver (a : Agent) (x : Answer) (s : State) : (s.deliver a x).ring = s.ring := by cases a <;> rfl
@[simp] theorem sched_deliver (a : Agent) (x : Answer) (s : State) : (s.deliver a x).sched = s.sched := by cases a <;> rfl
@[simp] theorem issuer_deliver (a : Agent) (x : Answer) (s : State) : (s.deliver a x).issuer = s.issuer := by cases a <;> rfl
@[simp] theorem draws_deliver (a : Agent) (x : Answer) (s : State) : (s.deliver a x).draws = s.draws := by cases a <;> rfl
@[simp] theorem port_deliver (a : Agent) (x : Answer) (s : State) (q : Agent) :
    (s.deliver a x).port q = if q = a then { s.port a with answers := (s.port a).answers ++ [x] } else s.port q := by
  cases a <;> cases q <;> rfl

@[simp] theorem cfg_setInput (a : Agent) (l : List Item) (s : State) : (s.setInput a l).cfg = s.cfg := by cases a <;> rfl
@[simp] theorem player_setInput (a : Agent) (l : List Item) (s : State) : (s.setInput a l).player = s.player := by cases a <;> rfl
@[simp] theorem chip_setInput (a : Agent) (l : List Item) (s : State) : (s.setInput a l).chip = s.chip := by cases a <;> rfl
@[simp] theorem eng_setInput (a : Agent) (l : List Item) (s : State) : (s.setInput a l).eng = s.eng := by cases a <;> rfl
@[simp] theorem ring_setInput (a : Agent) (l : List Item) (s : State) : (s.setInput a l).ring = s.ring := by cases a <;> rfl
@[simp] theorem sched_setInput (a : Agent) (l : List Item) (s : State) : (s.setInput a l).sched = s.sched := by cases a <;> rfl
@[simp] theorem issuer_setInput (a : Agent) (l : List Item) (s : State) : (s.setInput a l).issuer = s.issuer := by cases a <;> rfl
@[simp] theorem draws_setInput (a : Agent) (l : List Item) (s : State) : (s.setInput a l).draws = s.draws := by cases a <;> rfl
@[simp] theorem port_setInput (a : Agent) (l : List Item) (s : State) (q : Agent) :
    (s.setInput a l).port q = if q = a then { s.port a with input := l } else s.port q := by
  cases a <;> cases q <;> rfl

theorem chip_eq (s : State) : s.player.chip = s.chip := rfl

theorem eng_eq (s : State) : s.player.eng = s.eng := rfl

theorem setChip_chip (s : State) : s.setChip s.chip = s := rfl

theorem setPlayer_player (s : State) : s.setPlayer s.player = s := rfl

end State

end Machine

end Sys2Proof
end

