-- ==== Sys2Proof/Laws/Chip.lean ====
section
/-! SUPPORT. Laws of the chip: the register file, the generators, the mixer's bounds, and that every chip operation
keeps the chip's invariant. -/

namespace Sys2Proof.Machine

/-! ### Registers -/

theorem regAt_set (reg : Bytes16) (a b : RegNum) (v : Byte) :
    regAt (reg.set a v) b = if b = a then v else regAt reg b := by
  unfold regAt
  simp only [Fin.getElem_fin, Vector.getElem_set]
  by_cases h : b = a
  · subst h; simp
  · have : (a : Nat) ≠ b := fun h' => h (Fin.ext h'.symm)
    simp [h, this]

theorem regAt_ext {p q : Bytes16} (h : ∀ a, regAt p a = regAt q a) : p = q := by
  apply Vector.ext
  intro i hi
  exact h ⟨i, hi⟩

@[simp] theorem regAt_maskedWrite (a b : RegNum) (d : Byte) (c : ChipState) :
    regAt (maskedWrite a d c).reg b = if b = a then d &&& regMask a else regAt c.reg b :=
  regAt_set _ _ _ _

@[simp] theorem reg_envRestart (c : ChipState) : (envRestart c).reg = c.reg := rfl

theorem reg_writeReg (a : RegNum) (d : Byte) (c : ChipState) :
    (writeReg a d c).reg = (maskedWrite a d c).reg := by
  unfold writeReg; split <;> rfl

@[simp] theorem regAt_writeReg (a b : RegNum) (d : Byte) (c : ChipState) :
    regAt (writeReg a d c).reg b = if b = a then d &&& regMask a else regAt c.reg b := by
  rw [reg_writeReg, regAt_maskedWrite]

/-- What WRITE_REG writes: the register, and the envelope's state when the register is R13. -/
theorem writeReg_eq (a : RegNum) (d : Byte) (c : ChipState) :
    writeReg a d c =
      { c with
        reg := c.reg.set a (d &&& regMask a)
        ecnt := if a = 13 then 0 else c.ecnt
        estep := if a = 13 then 0 else c.estep
        eup := if a = 13 then shapeAtt (c.reg.set a (d &&& regMask a)) else c.eup
        ehold := if a = 13 then false else c.ehold } := by
  unfold writeReg maskedWrite envRestart
  split <;> simp_all

theorem mem_allRegs (a : RegNum) : a ∈ allRegs := by revert a; decide

theorem nodup_allRegs : allRegs.Nodup := by decide

/-- A pass of masked writes over distinct registers. -/
theorem regAt_foldl_maskedWrite (p : Bytes16) (l : List RegNum) (hl : l.Nodup) (c : ChipState) (b : RegNum) :
    regAt (l.foldl (fun c a => maskedWrite a (regAt p a) c) c).reg b =
      if b ∈ l then regAt p b &&& regMask b else regAt c.reg b := by
  induction l generalizing c with
  | nil => simp
  | cons a l ih =>
    obtain ⟨ha, hl⟩ := List.nodup_cons.1 hl
    rw [List.foldl_cons, ih hl]
    by_cases h1 : b ∈ l
    · simp [h1]
    · by_cases h2 : b = a
      · subst h2; simp [h1]
      · simp [h1, h2]

@[simp] theorem regAt_loadRegs (p : Bytes16) (c : ChipState) (b : RegNum) :
    regAt (loadRegs p c).reg b = regAt p b &&& regMask b := by
  unfold loadRegs
  rw [reg_envRestart, regAt_foldl_maskedWrite p _ nodup_allRegs]
  simp [mem_allRegs]

/-- Masked writes touch nothing but the registers. -/
theorem foldl_maskedWrite_eq (p : Bytes16) (l : List RegNum) (c : ChipState) :
    l.foldl (fun c a => maskedWrite a (regAt p a) c) c =
      { c with reg := (l.foldl (fun c a => maskedWrite a (regAt p a) c) c).reg } := by
  induction l generalizing c with
  | nil => rfl
  | cons a l ih => rw [List.foldl_cons, ih]; rfl

/-! ### The invariant depends on a few fields -/

/-- The fields the chip's invariant speaks of. -/
theorem ChipState.Inv.congr {cfg : Config} {c d : ChipState} (h : c.Inv cfg) (hr : d.reg = c.reg)
    (hl : d.lfsr = c.lfsr) (hs : d.sub = c.sub) (hb : d.dcbuf = c.dcbuf) (hu : d.dcsum = c.dcsum)
    (hp : d.dcpos = c.dcpos) : d.Inv cfg where
  masked := by rw [hr]; exact h.masked
  lfsr_ne := by rw [hl]; exact h.lfsr_ne
  sub_lt := by rw [hs]; exact h.sub_lt
  dcbuf_len := by rw [hb]; exact h.dcbuf_len
  dcbuf_le := by rw [hb]; exact h.dcbuf_le
  dcsum_eq := by rw [hu, hb]; exact h.dcsum_eq
  dcpos_lt := by rw [hp]; exact h.dcpos_lt

theorem inv_envRestart {cfg : Config} {c : ChipState} (h : c.Inv cfg) : (envRestart c).Inv cfg :=
  h.congr rfl rfl rfl rfl rfl rfl

theorem inv_maskedWrite {cfg : Config} {c : ChipState} (h : c.Inv cfg) (a : RegNum) (d : Byte) :
    (maskedWrite a d c).Inv cfg where
  masked := by
    intro b
    rw [regAt_maskedWrite]
    split
    · rename_i hb; subst hb; rw [BitVec.and_assoc, BitVec.and_self]
    · exact h.masked b
  lfsr_ne := h.lfsr_ne
  sub_lt := h.sub_lt
  dcbuf_len := h.dcbuf_len
  dcbuf_le := h.dcbuf_le
  dcsum_eq := h.dcsum_eq
  dcpos_lt := h.dcpos_lt

theorem inv_writeReg {cfg : Config} {c : ChipState} (h : c.Inv cfg) (a : RegNum) (d : Byte) :
    (writeReg a d c).Inv cfg := by
  unfold writeReg
  split
  · exact inv_envRestart (inv_maskedWrite h a d)
  · exact inv_maskedWrite h a d

theorem inv_loadRegs {cfg : Config} {c : ChipState} (h : c.Inv cfg) (p : Bytes16) :
    (loadRegs p c).Inv cfg := by
  unfold loadRegs
  apply inv_envRestart
  generalize allRegs = l
  induction l generalizing c with
  | nil => exact h
  | cons a l ih => exact ih (inv_maskedWrite h a _)

/-! ### The generators -/

/-- `d` differs from `c` in the generators alone: the registers, sub-clock, DC window, latch, overrides and mutes are
equal. -/
structure SameButGenerators (c d : ChipState) : Prop where
  reg    : d.reg = c.reg
  sub    : d.sub = c.sub
  dcbuf  : d.dcbuf = c.dcbuf
  dcsum  : d.dcsum = c.dcsum
  dcpos  : d.dcpos = c.dcpos
  sample : d.sample = c.sample
  ovr    : d.ovr = c.ovr
  drum   : d.drum = c.drum
  mute   : d.mute = c.mute

theorem SameButGenerators.refl (c : ChipState) : SameButGenerators c c :=
  ⟨rfl, rfl, rfl, rfl, rfl, rfl, rfl, rfl, rfl⟩

theorem SameButGenerators.trans {c d e : ChipState} (h : SameButGenerators c d) (k : SameButGenerators d e) :
    SameButGenerators c e :=
  ⟨k.reg.trans h.reg, k.sub.trans h.sub, k.dcbuf.trans h.dcbuf, k.dcsum.trans h.dcsum, k.dcpos.trans h.dcpos,
    k.sample.trans h.sample, k.ovr.trans h.ovr, k.drum.trans h.drum, k.mute.trans h.mute⟩

/-- A tone tick leaves everything but the tones alone (41_tone.md R70). -/
theorem toneTick_eq (ch : Ch) (c : ChipState) :
    toneTick ch c = { c with tcnt := (toneTick ch c).tcnt, tout := (toneTick ch c).tout } := by
  unfold toneTick
  dsimp only
  split <;> rfl

/-- A noise tick leaves everything but the noise generator alone. -/
theorem noiseTick_eq (cfg : Config) (c : ChipState) :
    noiseTick cfg c = { c with ncnt := (noiseTick cfg c).ncnt, lfsr := (noiseTick cfg c).lfsr } := by
  unfold noiseTick
  dsimp only
  split <;> rfl

/-- An envelope advance leaves everything but the envelope alone. -/
theorem envAdvance_eq (c : ChipState) :
    envAdvance c =
      { c with estep := (envAdvance c).estep, eup := (envAdvance c).eup, ehold := (envAdvance c).ehold } := by
  unfold envAdvance
  split_ifs <;> rfl

/-- An envelope tick leaves everything but the envelope alone. -/
theorem envTick_eq (c : ChipState) :
    envTick c =
      { c with ecnt := (envTick c).ecnt, estep := (envTick c).estep, eup := (envTick c).eup,
               ehold := (envTick c).ehold } := by
  unfold envTick
  dsimp only
  split
  · rw [envAdvance_eq]
  · rfl

theorem toneTick_same (ch : Ch) (c : ChipState) : SameButGenerators c (toneTick ch c) := by
  rw [toneTick_eq]; exact ⟨rfl, rfl, rfl, rfl, rfl, rfl, rfl, rfl, rfl⟩

theorem noiseTick_same (cfg : Config) (c : ChipState) : SameButGenerators c (noiseTick cfg c) := by
  rw [noiseTick_eq]; exact ⟨rfl, rfl, rfl, rfl, rfl, rfl, rfl, rfl, rfl⟩

theorem envTick_same (c : ChipState) : SameButGenerators c (envTick c) := by
  rw [envTick_eq]; exact ⟨rfl, rfl, rfl, rfl, rfl, rfl, rfl, rfl, rfl⟩

/-- A tick changes the generators alone (44_mixer_chip.md R97). -/
theorem tick_same (cfg : Config) (c : ChipState) : SameButGenerators c (tick cfg c) :=
  (toneTick_same .A c).trans ((toneTick_same .B _).trans ((toneTick_same .C _).trans
    ((noiseTick_same cfg _).trans (envTick_same _))))

theorem ticks_same (cfg : Config) (k : Nat) (c : ChipState) : SameButGenerators c (ticks cfg k c) := by
  induction k generalizing c with
  | zero => exact .refl c
  | succ k ih => exact (tick_same cfg c).trans (ih _)

theorem lfsr_toneTick (ch : Ch) (c : ChipState) : (toneTick ch c).lfsr = c.lfsr := by rw [toneTick_eq]

theorem lfsr_envTick (c : ChipState) : (envTick c).lfsr = c.lfsr := by rw [envTick_eq]

/-- A nonzero register shifts to a nonzero one (42_noise.md R75). -/
theorem lfsrShift_ne_zero {v : BitVec 17} (h : v ≠ 0) : lfsrShift v ≠ 0 := by
  intro h0
  obtain ⟨h1, h2⟩ := BitVec.or_eq_zero_iff.1 h0
  have h3 : v.toNat / 2 = 0 := by
    have := congrArg BitVec.toNat h1
    simpa [Nat.shiftRight_eq_div_pow] using this
  have h4 : v.toNat ≠ 0 := fun hz => h (BitVec.eq_of_toNat_eq (by simpa using hz))
  have h5 : v = 1 := BitVec.eq_of_toNat_eq (by rw [show v.toNat = 1 by omega]; rfl)
  subst h5
  revert h2
  decide

theorem lfsr_noiseTick_ne_zero {cfg : Config} {c : ChipState} (h : c.lfsr ≠ 0) :
    (noiseTick cfg c).lfsr ≠ 0 := by
  unfold noiseTick
  dsimp only
  rw [if_neg h]
  split
  · exact lfsrShift_ne_zero h
  · exact h

theorem lfsr_tick (cfg : Config) (c : ChipState) :
    (tick cfg c).lfsr = (noiseTick cfg (toneTick .C (toneTick .B (toneTick .A c)))).lfsr := lfsr_envTick _

theorem inv_tick {cfg : Config} {c : ChipState} (h : c.Inv cfg) :
    (tick cfg c).Inv cfg := by
  have e := tick_same cfg c
  have hl : (toneTick .C (toneTick .B (toneTick .A c))).lfsr ≠ 0 := by
    rw [lfsr_toneTick, lfsr_toneTick, lfsr_toneTick]; exact h.lfsr_ne
  exact
    { masked := by rw [e.reg]; exact h.masked
      lfsr_ne := by rw [lfsr_tick]; exact lfsr_noiseTick_ne_zero hl
      sub_lt := by rw [e.sub]; exact h.sub_lt
      dcbuf_len := by rw [e.dcbuf]; exact h.dcbuf_len
      dcbuf_le := by rw [e.dcbuf]; exact h.dcbuf_le
      dcsum_eq := by rw [e.dcsum, e.dcbuf]; exact h.dcsum_eq
      dcpos_lt := by rw [e.dcpos]; exact h.dcpos_lt }

theorem inv_ticks {cfg : Config} (k : Nat) {c : ChipState} (h : c.Inv cfg) :
    (ticks cfg k c).Inv cfg := by
  induction k generalizing c with
  | zero => exact h
  | succ k ih => exact ih (inv_tick h)

/-! ### The mixer's bounds -/

theorem le_of_adjacent : ∀ (l : List Nat) (i : Nat) (x y : Nat),
    (List.zipWith (fun x y => decide (x ≤ y)) l l.tail).all id = true →
    l[i]? = some x → l.getLast? = some y → x ≤ y
  | [], _, _, _, _, hi, _ => by simp at hi
  | [a], i, x, y, _, hi, hl => by
    cases i with
    | zero => simp at hi hl; omega
    | succ i => simp at hi
  | a :: b :: l, i, x, y, h, hi, hl => by
    have h' : a ≤ b ∧ (List.zipWith (fun x y => decide (x ≤ y)) (b :: l) (b :: l).tail).all id = true := by
      simpa using h
    have hl' : (b :: l).getLast? = some y := by simpa [List.getLast?_cons_cons] using hl
    cases i with
    | zero =>
      have := le_of_adjacent (b :: l) 0 b y h'.2 rfl hl'
      have hx : a = x := by simpa using hi
      omega
    | succ i => exact le_of_adjacent (b :: l) i x y h'.2 (by simpa using hi) hl'

theorem levelAt_le {cfg : Config} (h : levelTableOk cfg.levelTable = true) (i : BitVec 5) :
    levelAt cfg i ≤ 65535 := by
  unfold levelTableOk at h
  simp only [Bool.and_eq_true, beq_iff_eq] at h
  obtain ⟨⟨_, h31⟩, hall⟩ := h
  refine le_of_adjacent cfg.levelTable.toList i.toNat _ 65535 hall ?_ ?_
  · unfold levelAt
    rw [List.getElem?_eq_getElem (by simpa using i.isLt)]
    simp
  · rw [List.getLast?_eq_getElem?, List.getElem?_eq_getElem (by simp)]
    simpa using h31

theorem levelAt_zero {cfg : Config} (h : levelTableOk cfg.levelTable = true) : levelAt cfg 0 = 0 := by
  unfold levelTableOk at h
  simp only [Bool.and_eq_true, beq_iff_eq] at h
  exact h.1.1

/-- A level code is at most 65535 (R92). -/
theorem levelCode_le {cfg : Config} (h : levelTableOk cfg.levelTable = true) (c : ChipState) (ch : Ch) :
    levelCode cfg c ch ≤ 65535 := by
  unfold levelCode
  split
  · omega
  · split
    · rename_i b _
      have := b.isLt
      omega
    · split
      · exact levelAt_le h _
      · omega

/-- The mix is at most 196605 (R93). -/
theorem mix_le {cfg : Config} (h : levelTableOk cfg.levelTable = true) (c : ChipState) :
    mix cfg c ≤ 196605 := by
  have ha := levelCode_le h c .A
  have hb := levelCode_le h c .B
  have hc := levelCode_le h c .C
  unfold mix
  omega

/-! ### The DC window -/

theorem sum_set (l : List Nat) (i m : Nat) (h : i < l.length) :
    (l.set i m).sum + l.getD i 0 = l.sum + m := by
  induction l generalizing i with
  | nil => simp at h
  | cons x l ih =>
    cases i with
    | zero => simp; omega
    | succ i =>
      have := ih i (by simpa using h)
      simp only [List.set_cons_succ, List.sum_cons, List.getD_cons_succ]
      omega

/-- DC_UPDATE keeps the window's sum, its length, its bound and its position (R39, R94). -/
theorem inv_dcUpdate {cfg : Config} {c : ChipState} (h : c.Inv cfg) {m : Nat} (hm : m ≤ 196605) :
    (dcUpdate cfg m c).Inv cfg where
  masked := h.masked
  lfsr_ne := h.lfsr_ne
  sub_lt := h.sub_lt
  dcbuf_len := by simp [dcUpdate, h.dcbuf_len]
  dcbuf_le := by
    intro x hx
    rcases List.mem_or_eq_of_mem_set hx with hx | rfl
    · exact h.dcbuf_le x hx
    · exact hm
  dcsum_eq := by
    have := sum_set c.dcbuf c.dcpos m (by rw [h.dcbuf_len]; exact h.dcpos_lt)
    simp only [dcUpdate, h.dcsum_eq]
    omega
  dcpos_lt := Nat.mod_lt _ (by have := h.dcpos_lt; omega)

theorem inv_takeSample {cfg : Config} (ht : levelTableOk cfg.levelTable = true) {c : ChipState}
    (h : c.Inv cfg) : (takeSample cfg c).Inv cfg :=
  (inv_dcUpdate h (mix_le ht c)).congr rfl rfl rfl rfl rfl rfl

/-- The parameters that keep the chip in its ranges. -/
structure ChipOk (cfg : Config) : Prop where
  rate_pos  : 0 < cfg.sampleRate
  table_ok  : levelTableOk cfg.levelTable = true
  reseed_ne : cfg.noiseReseed ≠ 0
  window    : 1 ≤ cfg.dcWindow

/-- CLOCK keeps the chip's invariant. -/
theorem inv_clockChip {cfg : Config} (hc : ChipOk cfg) {c : ChipState} (h : c.Inv cfg) :
    (clockChip cfg c).Inv cfg := by
  have := hc.rate_pos
  have hd : 0 < tickDiv cfg := by unfold tickDiv; omega
  apply inv_takeSample hc.table_ok
  apply inv_ticks
  exact
    { masked := h.masked
      lfsr_ne := h.lfsr_ne
      sub_lt := Nat.mod_lt _ hd
      dcbuf_len := h.dcbuf_len
      dcbuf_le := h.dcbuf_le
      dcsum_eq := h.dcsum_eq
      dcpos_lt := h.dcpos_lt }

theorem inv_generateChip {cfg : Config} (hc : ChipOk cfg) (n : Nat) {c : ChipState} (h : c.Inv cfg) :
    (generateChip cfg n c).1.Inv cfg := by
  induction n generalizing c with
  | zero => exact h
  | succ n ih => exact ih (inv_clockChip hc h)

/-- RESET establishes the chip's invariant, whatever it draws. -/
theorem inv_resetChip {cfg : Config} (hc : ChipOk cfg) (mode : ResetMode) (n : Nat) :
    (resetChip cfg mode n).Inv cfg where
  masked := by
    intro a
    have : regAt (resetChip cfg mode n).reg a = 0 := by
      show (Vector.replicate 16 (0 : Byte))[a] = 0
      simp
    rw [this]; simp
  lfsr_ne := by
    cases mode with
    | randomized =>
      intro h
      have := congrArg BitVec.toNat h
      have hl := (Config.drawLfsr n).isLt
      simp only [resetChip, envRestart, BitVec.toNat_ofNat] at this
      rw [Nat.mod_eq_of_lt (by omega)] at this
      simp at this
    | deterministic => exact hc.reseed_ne
  sub_lt := by have := hc.rate_pos; show 0 < tickDiv cfg; unfold tickDiv; omega
  dcbuf_len := by simp [resetChip, envRestart]
  dcbuf_le := by intro m hm; simp [resetChip, envRestart] at hm; omega
  dcsum_eq := by simp [resetChip, envRestart]
  dcpos_lt := hc.window

end Sys2Proof.Machine
end

