-- ==== Sys2Proof/Laws/PerInstr.lean ====
section
/-! SUPPORT. Statements about every instruction as syntax, one lemma per constructor. EncodedLength: an instruction is one
word and its payload, of the length 30_encoding.md R66 gives it. -/

namespace Sys2Proof.Laws.EncodedLength

/-- The payload of R66: sixteen bytes for LOAD_REGS, the samples of a ring write, nothing for the rest. -/
def payload : Instr → List Item
  | .loadRegs p => p.toList.map .byte
  | .rbWriteNb xs | .rbWriteBlk xs => xs.map .word
  | _ => []

/-- The encoding is one word and the payload, and the payload has its length. -/
def Statement (i : Instr) : Prop :=
  (∃ w : Word, encode i = .word w :: payload i) ∧
    match i with
    | .loadRegs _ => (payload i).length = 16
    | .rbWriteNb xs | .rbWriteBlk xs => (payload i).length = xs.length
    | _ => payload i = []

theorem writeReg (addr : RegNum) (data : Byte) : Statement (.writeReg addr data) := ⟨⟨_, rfl⟩, rfl⟩

theorem readReg (addr : RegNum) : Statement (.readReg addr) := ⟨⟨_, rfl⟩, rfl⟩

theorem loadRegs (p : Bytes16) : Statement (.loadRegs p) := ⟨⟨_, rfl⟩, by simp [payload]⟩

theorem dumpRegs : Statement .dumpRegs := ⟨⟨_, rfl⟩, rfl⟩

theorem clock : Statement .clock := ⟨⟨_, rfl⟩, rfl⟩

theorem getSample : Statement .getSample := ⟨⟨_, rfl⟩, rfl⟩

theorem chipGenerate (count : Count) : Statement (.chipGenerate count) := ⟨⟨_, rfl⟩, rfl⟩

theorem reset (mode : ResetMode) : Statement (.reset mode) := by cases mode <;> exact ⟨⟨_, rfl⟩, rfl⟩

theorem triggerEnv : Statement .triggerEnv := ⟨⟨_, rfl⟩, rfl⟩

theorem setMixerOvr (ch : Ch) (forceTone forceNoise : Bool) : Statement (.setMixerOvr ch forceTone forceNoise) := ⟨⟨_, rfl⟩, rfl⟩

theorem clrMixerOvr (ch : Ch) : Statement (.clrMixerOvr ch) := ⟨⟨_, rfl⟩, rfl⟩

theorem setDrumOvr (ch : Ch) (data : Byte) : Statement (.setDrumOvr ch data) := ⟨⟨_, rfl⟩, rfl⟩

theorem clrDrumOvr (ch : Ch) : Statement (.clrDrumOvr ch) := ⟨⟨_, rfl⟩, rfl⟩

theorem setMute (ch : Ch) (mute : Bool) : Statement (.setMute ch mute) := ⟨⟨_, rfl⟩, rfl⟩

theorem pbPlay : Statement .pbPlay := ⟨⟨_, rfl⟩, rfl⟩

theorem pbPause : Statement .pbPause := ⟨⟨_, rfl⟩, rfl⟩

theorem pbStop : Statement .pbStop := ⟨⟨_, rfl⟩, rfl⟩

theorem pbGenerate (count : Count) : Statement (.pbGenerate count) := ⟨⟨_, rfl⟩, rfl⟩

theorem pbPosition : Statement .pbPosition := ⟨⟨_, rfl⟩, rfl⟩

theorem pbSeek (frame : Count) : Statement (.pbSeek frame) := ⟨⟨_, rfl⟩, rfl⟩

theorem pbSetMute (ch : Ch) (mute : Bool) : Statement (.pbSetMute ch mute) := ⟨⟨_, rfl⟩, rfl⟩

theorem pbState : Statement .pbState := ⟨⟨_, rfl⟩, rfl⟩

theorem rbWriteNb (xs : List F32) : Statement (.rbWriteNb xs) := ⟨⟨_, rfl⟩, List.length_map _⟩

theorem rbWriteBlk (xs : List F32) : Statement (.rbWriteBlk xs) := ⟨⟨_, rfl⟩, List.length_map _⟩

theorem rbRead (count : Count) : Statement (.rbRead count) := ⟨⟨_, rfl⟩, rfl⟩

theorem rbAvailWrite : Statement .rbAvailWrite := ⟨⟨_, rfl⟩, rfl⟩

theorem rbAvailRead : Statement .rbAvailRead := ⟨⟨_, rfl⟩, rfl⟩

theorem rbFillPct : Statement .rbFillPct := ⟨⟨_, rfl⟩, rfl⟩

theorem rbFlush : Statement .rbFlush := ⟨⟨_, rfl⟩, rfl⟩

theorem rbStats : Statement .rbStats := ⟨⟨_, rfl⟩, rfl⟩

theorem fxNop (fch : BitVec 2) (id : Byte) (rate : BitVec 20) : Statement (.fxNop fch id rate) := ⟨⟨_, rfl⟩, rfl⟩

theorem fxDigidrum (fch : BitVec 2) (id : Byte) (rate : BitVec 20) : Statement (.fxDigidrum fch id rate) := ⟨⟨_, rfl⟩, rfl⟩

theorem fxSid (fch : BitVec 2) (id : Byte) (rate : BitVec 20) : Statement (.fxSid fch id rate) := ⟨⟨_, rfl⟩, rfl⟩

theorem fxSyncbuzz (fch : BitVec 2) (id : Byte) (rate : BitVec 20) : Statement (.fxSyncbuzz fch id rate) := ⟨⟨_, rfl⟩, rfl⟩

end Sys2Proof.Laws.EncodedLength
end

