-- ==== Sys2Proof/Laws/Player.lean ====
section
/-! SUPPORT. Laws of the effects FSM and the playback engine: what each operation leaves alone, and that it keeps the
player's ranges. -/

namespace Sys2Proof.Machine

/-! ### What an effect may touch (46_effects.md R136) -/

/-- The envelope's state is the same in `c` and `d`. -/
structure SameEnv (c d : ChipState) : Prop where
  ecnt  : d.ecnt = c.ecnt
  estep : d.estep = c.estep
  eup   : d.eup = c.eup
  ehold : d.ehold = c.ehold

theorem SameEnv.refl (c : ChipState) : SameEnv c c := ⟨rfl, rfl, rfl, rfl⟩

theorem SameEnv.trans {c d e : ChipState} (h : SameEnv c d) (k : SameEnv d e) : SameEnv c e :=
  ⟨k.ecnt.trans h.ecnt, k.estep.trans h.estep, k.eup.trans h.eup, k.ehold.trans h.ehold⟩

/-- `d` differs from `c` in the overrides, and in the envelope's state only as a restart leaves it: the reach of the
hooks. -/
structure SameButHooks (c d : ChipState) : Prop where
  reg    : d.reg = c.reg
  tcnt   : d.tcnt = c.tcnt
  tout   : d.tout = c.tout
  ncnt   : d.ncnt = c.ncnt
  lfsr   : d.lfsr = c.lfsr
  sub    : d.sub = c.sub
  dcbuf  : d.dcbuf = c.dcbuf
  dcsum  : d.dcsum = c.dcsum
  dcpos  : d.dcpos = c.dcpos
  sample : d.sample = c.sample
  mute   : d.mute = c.mute
  env    : SameEnv c d ∨ SameEnv (envRestart c) d

theorem SameButHooks.refl (c : ChipState) : SameButHooks c c :=
  ⟨rfl, rfl, rfl, rfl, rfl, rfl, rfl, rfl, rfl, rfl, rfl, .inl (.refl c)⟩

/-- A restart depends on R13 alone, so that after a restart and registers kept it is a restart of the first state. -/
theorem SameEnv.restart {c d : ChipState} (h : d.reg = c.reg) : SameEnv (envRestart c) (envRestart d) :=
  ⟨rfl, rfl, congrArg shapeAtt h, rfl⟩

theorem SameButHooks.trans {c d e : ChipState} (h : SameButHooks c d) (k : SameButHooks d e) :
    SameButHooks c e :=
  ⟨k.reg.trans h.reg, k.tcnt.trans h.tcnt, k.tout.trans h.tout, k.ncnt.trans h.ncnt, k.lfsr.trans h.lfsr,
    k.sub.trans h.sub, k.dcbuf.trans h.dcbuf, k.dcsum.trans h.dcsum, k.dcpos.trans h.dcpos,
    k.sample.trans h.sample, k.mute.trans h.mute,
    k.env.elim (fun e => h.env.imp (·.trans e) (·.trans e)) fun e => .inr ((SameEnv.restart h.reg).trans e)⟩

theorem SameButHooks.inv {cfg : Config} {c d : ChipState} (h : SameButHooks c d) (hc : c.Inv cfg) :
    d.Inv cfg :=
  hc.congr h.reg h.lfsr h.sub h.dcbuf h.dcsum h.dcpos

/-- Every slot is in its ranges. -/
def SlotsInv (cfg : Config) (p : Player) : Prop := ∀ ch, (p.slotOf ch).Inv cfg

/-- `q` comes from `p` by effects alone: the chip through the hooks, the engine's slots and decode flags. -/
structure ByEffects (cfg : Config) (p q : Player) : Prop where
  chip   : SameButHooks p.chip q.chip
  state  : q.eng.state = p.eng.state
  cursor : q.eng.cursor = p.eng.cursor
  sif    : q.eng.sif = p.eng.sif
  flen   : q.eng.flen = p.eng.flen
  racc   : q.eng.racc = p.eng.racc
  slots  : SlotsInv cfg p → SlotsInv cfg q

namespace ByEffects

variable {cfg : Config} {p q r : Player}

theorem refl (cfg : Config) (p : Player) : ByEffects cfg p p :=
  ⟨.refl _, rfl, rfl, rfl, rfl, rfl, id⟩

theorem trans (h : ByEffects cfg p q) (k : ByEffects cfg q r) : ByEffects cfg p r :=
  ⟨h.chip.trans k.chip, k.state.trans h.state, k.cursor.trans h.cursor, k.sif.trans h.sif,
    k.flen.trans h.flen, k.racc.trans h.racc, fun hs => k.slots (h.slots hs)⟩

theorem onChip (f : ChipState → ChipState) (p : Player) (h : SameButHooks p.chip (f p.chip)) :
    ByEffects cfg p (p.onChip f) :=
  ⟨h, rfl, rfl, rfl, rfl, rfl, id⟩

theorem setSlot (ch : Ch) (x : Slot) (p : Player) (h : x.Inv cfg) : ByEffects cfg p (p.setSlot ch x) :=
  ⟨.refl _, rfl, rfl, rfl, rfl, rfl, fun hs d => by
    have : (p.setSlot ch x).slotOf d = if d = ch then x else p.slotOf d := PerCh.get_set _ _ _ _
    rw [this]
    split
    · exact h
    · exact hs d⟩

theorem markSeen (ch : Ch) (p : Player) : ByEffects cfg p (p.markSeen ch) :=
  ⟨.refl _, rfl, rfl, rfl, rfl, rfl, id⟩

theorem clearDecode (p : Player) : ByEffects cfg p p.clearDecode :=
  ⟨.refl _, rfl, rfl, rfl, rfl, rfl, id⟩

end ByEffects

theorem hooks_setMixerOvr (ch : Ch) (t n : Bool) (c : ChipState) : SameButHooks c (setMixerOvr ch t n c) :=
  ⟨rfl, rfl, rfl, rfl, rfl, rfl, rfl, rfl, rfl, rfl, rfl, .inl ⟨rfl, rfl, rfl, rfl⟩⟩

theorem hooks_clrMixerOvr (ch : Ch) (c : ChipState) : SameButHooks c (clrMixerOvr ch c) :=
  ⟨rfl, rfl, rfl, rfl, rfl, rfl, rfl, rfl, rfl, rfl, rfl, .inl ⟨rfl, rfl, rfl, rfl⟩⟩

theorem hooks_setDrumOvr (ch : Ch) (b : Byte) (c : ChipState) : SameButHooks c (setDrumOvr ch b c) :=
  ⟨rfl, rfl, rfl, rfl, rfl, rfl, rfl, rfl, rfl, rfl, rfl, .inl ⟨rfl, rfl, rfl, rfl⟩⟩

theorem hooks_clrDrumOvr (ch : Ch) (c : ChipState) : SameButHooks c (clrDrumOvr ch c) :=
  ⟨rfl, rfl, rfl, rfl, rfl, rfl, rfl, rfl, rfl, rfl, rfl, .inl ⟨rfl, rfl, rfl, rfl⟩⟩

theorem hooks_envRestart (c : ChipState) : SameButHooks c (envRestart c) :=
  ⟨rfl, rfl, rfl, rfl, rfl, rfl, rfl, rfl, rfl, rfl, rfl, .inr (.refl _)⟩

@[simp] theorem slotOf_setSlot (ch d : Ch) (x : Slot) (p : Player) :
    (p.setSlot ch x).slotOf d = if d = ch then x else p.slotOf d := PerCh.get_set _ _ _ _

@[simp] theorem slotOf_onChip (f : ChipState → ChipState) (d : Ch) (p : Player) :
    (p.onChip f).slotOf d = p.slotOf d := rfl

@[simp] theorem slotOf_markSeen (ch d : Ch) (p : Player) : (p.markSeen ch).slotOf d = p.slotOf d := rfl

@[simp] theorem slotOf_clearDecode (d : Ch) (p : Player) : p.clearDecode.slotOf d = p.slotOf d := rfl

/-! ### Release -/

theorem release_byEffects (cfg : Config) (ch : Ch) (p : Player) : ByEffects cfg p (release ch p) := by
  unfold release
  split
  · exact .refl _ _
  · exact (ByEffects.onChip _ p (hooks_clrDrumOvr _ _)).trans (.setSlot _ _ _ trivial)
  · exact (ByEffects.onChip _ p (hooks_clrMixerOvr _ _)).trans (.setSlot _ _ _ trivial)
  · exact (ByEffects.onChip _ p (hooks_clrMixerOvr _ _)).trans (.setSlot _ _ _ trivial)

theorem releaseAll_byEffects (cfg : Config) (p : Player) : ByEffects cfg p (releaseAll p) :=
  (release_byEffects cfg .A p).trans ((release_byEffects cfg .B _).trans (release_byEffects cfg .C _))

/-- A release keeps the envelope (46_effects.md R130). -/
theorem sameEnv_release (ch : Ch) (p : Player) : SameEnv p.chip (release ch p).chip := by
  unfold release
  split <;> exact ⟨rfl, rfl, rfl, rfl⟩

theorem sameEnv_releaseAll (p : Player) : SameEnv p.chip (releaseAll p).chip :=
  (sameEnv_release .A p).trans ((sameEnv_release .B _).trans (sameEnv_release .C _))

/-- RELEASE empties its slot and leaves the other slots alone (46_effects.md R130). -/
theorem slotOf_release (ch d : Ch) (p : Player) :
    (release ch p).slotOf d = if d = ch then .empty else p.slotOf d := by
  unfold release
  split
  · rename_i h
    split
    · rename_i hd; subst hd; exact h
    · rfl
  all_goals simp

theorem slotOf_releaseAll (d : Ch) (p : Player) : (releaseAll p).slotOf d = .empty := by
  unfold releaseAll
  cases d <;> simp [slotOf_release]

/-! ### Effect words -/

theorem fxDigidrum_byEffects (cfg : Config) (fch : BitVec 2) (id : Byte) (rate : BitVec 20) (p : Player)
    (hr : 0 < cfg.sampleRate) : ByEffects cfg p (fxDigidrum cfg fch id rate p) := by
  unfold fxDigidrum
  split
  · rename_i ch b bs _ hb
    split
    · exact .refl _ _
    · rename_i hne
      refine (release_byEffects cfg ch p).trans ((ByEffects.setSlot ch (.drum id 0 0 rate) _ ?_).trans
        (.onChip _ _ (hooks_setDrumOvr _ _ _)))
      refine ⟨?_, hr, hne⟩
      rw [hb]; exact Nat.succ_pos _
  · exact .refl _ _

theorem fxSid_byEffects (cfg : Config) (fch : BitVec 2) (rate : BitVec 20) (p : Player)
    (hr : 0 < cfg.sampleRate) : ByEffects cfg p (fxSid fch rate p) := by
  unfold fxSid
  split
  · rename_i ch _
    split
    · exact .refl _ _
    · rename_i hne
      split
      · rename_i high acc r h
        refine ⟨.refl _, rfl, rfl, rfl, rfl, rfl, fun hs d => ?_⟩
        have h0 := hs ch
        rw [h] at h0
        rw [slotOf_setSlot, slotOf_markSeen]
        split
        · exact ⟨h0.1, hne⟩
        · exact hs d
      · exact (ByEffects.markSeen ch p).trans ((release_byEffects cfg ch _).trans
          ((ByEffects.setSlot ch (.sid true 0 rate) _ ⟨hr, hne⟩).trans (.onChip _ _ (hooks_setMixerOvr _ _ _ _))))
  · exact .refl _ _

theorem fxSyncbuzz_byEffects (cfg : Config) (fch : BitVec 2) (rate : BitVec 20) (p : Player)
    (hr : 0 < cfg.sampleRate) : ByEffects cfg p (fxSyncbuzz fch rate p) := by
  unfold fxSyncbuzz
  split
  · rename_i ch _
    split
    · exact .refl _ _
    · rename_i hne
      split
      · rename_i acc r h
        refine ⟨.refl _, rfl, rfl, rfl, rfl, rfl, fun hs d => ?_⟩
        have h0 := hs ch
        rw [h] at h0
        rw [slotOf_setSlot, slotOf_markSeen]
        split
        · exact ⟨h0.1, hne⟩
        · exact hs d
      · exact (ByEffects.markSeen ch p).trans ((release_byEffects cfg ch _).trans
          ((ByEffects.setSlot ch (.buzz 0 rate) _ ⟨hr, hne⟩).trans
            ((ByEffects.onChip _ _ (hooks_setMixerOvr _ _ _ _)).trans (.onChip _ _ (hooks_envRestart _)))))
  · exact .refl _ _

theorem fxWord_byEffects (cfg : Config) (w : Word) (p : Player) (hr : 0 < cfg.sampleRate) :
    ByEffects cfg p (fxWord cfg w p) := by
  unfold fxWord
  split
  · exact .refl _ _
  · exact fxDigidrum_byEffects _ _ _ _ _ hr
  · exact fxSid_byEffects _ _ _ _ hr
  · exact fxSyncbuzz_byEffects _ _ _ _ hr

theorem releaseUnseen_byEffects (cfg : Config) (ch : Ch) (p : Player) :
    ByEffects cfg p (releaseUnseen ch p) := by
  unfold releaseUnseen
  split
  · exact .refl _ _
  · exact .refl _ _
  · split
    · exact .refl _ _
    · exact release_byEffects _ _ _
  · split
    · exact .refl _ _
    · exact release_byEffects _ _ _

theorem fxFinish_byEffects (cfg : Config) (p : Player) : ByEffects cfg p (fxFinish p) :=
  (releaseUnseen_byEffects cfg .A p).trans ((releaseUnseen_byEffects cfg .B _).trans
    ((releaseUnseen_byEffects cfg .C _).trans (.clearDecode _)))

theorem foldl_fxWord_byEffects (cfg : Config) (ws : List Word) (p : Player) (hr : 0 < cfg.sampleRate) :
    ByEffects cfg p (ws.foldl (fun p w => fxWord cfg w p) p) := by
  induction ws generalizing p with
  | nil => exact .refl _ _
  | cons w ws ih => exact (fxWord_byEffects cfg w p hr).trans (ih _)

theorem fxDecode_byEffects (cfg : Config) (ws : List Word) (p : Player) (hr : 0 < cfg.sampleRate) :
    ByEffects cfg p (fxDecode cfg ws p) :=
  (ByEffects.clearDecode p).trans ((foldl_fxWord_byEffects cfg ws _ hr).trans (fxFinish_byEffects cfg _))

theorem seen_fxFinish (p : Player) : (fxFinish p).eng.seen = PerCh.all false := rfl

theorem fxq_fxFinish (p : Player) : (fxFinish p).eng.fxq = none := rfl

theorem seen_fxDecode (cfg : Config) (ws : List Word) (p : Player) :
    (fxDecode cfg ws p).eng.seen = PerCh.all false := rfl

theorem fxq_fxDecode (cfg : Config) (ws : List Word) (p : Player) : (fxDecode cfg ws p).eng.fxq = none := rfl

/-! ### FX_ADVANCE -/

/-- An effect operation between frame loads leaves the decode flags alone. -/
structure KeepsDecode (p q : Player) : Prop where
  seen : q.eng.seen = p.eng.seen
  fxq  : q.eng.fxq = p.eng.fxq

theorem KeepsDecode.refl (p : Player) : KeepsDecode p p := ⟨rfl, rfl⟩

theorem KeepsDecode.trans {p q r : Player} (h : KeepsDecode p q) (k : KeepsDecode q r) : KeepsDecode p r :=
  ⟨k.seen.trans h.seen, k.fxq.trans h.fxq⟩

theorem release_keepsDecode (ch : Ch) (p : Player) : KeepsDecode p (release ch p) := by
  unfold release
  split <;> exact ⟨rfl, rfl⟩

theorem releaseAll_keepsDecode (p : Player) : KeepsDecode p (releaseAll p) :=
  (release_keepsDecode .A p).trans ((release_keepsDecode .B _).trans (release_keepsDecode .C _))

theorem fxEvent_keepsDecode (cfg : Config) (ch : Ch) (p : Player) : KeepsDecode p (fxEvent cfg ch p) := by
  unfold fxEvent
  split
  · exact .refl _
  · split
    · exact ⟨rfl, rfl⟩
    · exact release_keepsDecode _ _
  · exact ⟨rfl, rfl⟩
  · exact ⟨rfl, rfl⟩

theorem fxEvent_byEffects (cfg : Config) (ch : Ch) (p : Player) (h : (p.slotOf ch).Inv cfg) :
    ByEffects cfg p (fxEvent cfg ch p) := by
  unfold fxEvent
  split
  · exact .refl _ _
  · rename_i id cur acc rate hs
    rw [hs] at h
    split
    · rename_i b hb
      obtain ⟨hl, _⟩ := List.getElem?_eq_some_iff.1 hb
      exact (ByEffects.setSlot ch (.drum id (cur + 1) acc rate) _ ⟨hl, h.2⟩).trans (.onChip _ _ (hooks_setDrumOvr _ _ _))
    · exact release_byEffects _ _ _
  · rename_i high acc rate hs
    rw [hs] at h
    exact (ByEffects.setSlot ch (.sid (!high) acc rate) _ h).trans (.onChip _ _ (hooks_setMixerOvr _ _ _ _))
  · exact .onChip _ _ (hooks_envRestart _)

/-- A slot in its ranges but for an accumulator below `bound`. -/
def Slot.InvBelow (cfg : Config) (bound : Nat) : Slot → Prop
  | .empty => True
  | .drum id cur acc rate => cur < (drumSample cfg id).length ∧ acc < bound ∧ rate ≠ 0
  | .sid _ acc rate => acc < bound ∧ rate ≠ 0
  | .buzz acc rate => acc < bound ∧ rate ≠ 0

theorem Slot.invBelow_sampleRate {cfg : Config} {x : Slot} : x.InvBelow cfg cfg.sampleRate ↔ x.Inv cfg := by
  cases x <;> rfl

theorem Slot.invBelow_withAcc {cfg : Config} {x : Slot} {b b' acc : Nat} (h : x.InvBelow cfg b) (ha : acc < b') :
    (x.withAcc acc).InvBelow cfg b' := by
  cases x with
  | empty => trivial
  | drum id cur a rate => exact ⟨h.1, ha, h.2.2⟩
  | sid high a rate => exact ⟨ha, h.2⟩
  | buzz a rate => exact ⟨ha, h.2⟩

theorem Slot.acc_lt {cfg : Config} {x : Slot} {b acc : Nat} (h : x.InvBelow cfg b) (ha : x.acc? = some acc) :
    acc < b := by
  cases x with
  | empty => simp [Slot.acc?] at ha
  | drum id cur a rate => simp [Slot.acc?] at ha; subst ha; exact h.2.1
  | sid high a rate => simp [Slot.acc?] at ha; subst ha; exact h.1
  | buzz a rate => simp [Slot.acc?] at ha; subst ha; exact h.1

theorem Slot.invBelow_mono {cfg : Config} {x : Slot} {b b' acc : Nat} (h : x.InvBelow cfg b)
    (ha : x.acc? = some acc) (hb : acc < b') : x.InvBelow cfg b' := by
  cases x with
  | empty => trivial
  | drum id cur a rate => simp [Slot.acc?] at ha; subst ha; exact ⟨h.1, hb, h.2.2⟩
  | sid high a rate => simp [Slot.acc?] at ha; subst ha; exact ⟨hb, h.2⟩
  | buzz a rate => simp [Slot.acc?] at ha; subst ha; exact ⟨hb, h.2⟩

/-- An event keeps the slot in its ranges but for the accumulator, which it does not touch. -/
theorem fxEvent_invBelow {cfg : Config} {b : Nat} (ch : Ch) (p : Player) (h : (p.slotOf ch).InvBelow cfg b) :
    ((fxEvent cfg ch p).slotOf ch).InvBelow cfg b := by
  unfold fxEvent
  split
  · exact h
  · rename_i id cur acc rate hs
    rw [hs] at h
    split
    · rename_i x hx
      obtain ⟨hl, _⟩ := List.getElem?_eq_some_iff.1 hx
      simp only [slotOf_onChip, slotOf_setSlot, if_true]
      exact ⟨hl, h.2⟩
    · rw [slotOf_release]; simp [Slot.InvBelow]
  · rename_i high acc rate hs
    rw [hs] at h
    simp only [slotOf_onChip, slotOf_setSlot, if_true]
    exact h
  · exact h

/-- One channel's events leave the other channels' slots alone. -/
theorem slotOf_fxEvent_ne (cfg : Config) {ch d : Ch} (hd : d ≠ ch) (p : Player) :
    (fxEvent cfg ch p).slotOf d = p.slotOf d := by
  unfold fxEvent
  split
  · rfl
  · split
    · simp [hd]
    · rw [slotOf_release, if_neg hd]
  · simp [hd]
  · rfl

/-- What one channel's events do to a player, its own slot's accumulator aside. -/
structure ByEvents (ch : Ch) (p q : Player) : Prop where
  chip   : SameButHooks p.chip q.chip
  state  : q.eng.state = p.eng.state
  cursor : q.eng.cursor = p.eng.cursor
  sif    : q.eng.sif = p.eng.sif
  flen   : q.eng.flen = p.eng.flen
  racc   : q.eng.racc = p.eng.racc
  others : ∀ d, d ≠ ch → q.slotOf d = p.slotOf d
  keeps  : KeepsDecode p q

namespace ByEvents

variable {ch : Ch} {p q r : Player}

theorem refl (ch : Ch) (p : Player) : ByEvents ch p p :=
  ⟨.refl _, rfl, rfl, rfl, rfl, rfl, fun _ _ => rfl, .refl _⟩

theorem trans (h : ByEvents ch p q) (k : ByEvents ch q r) : ByEvents ch p r :=
  ⟨h.chip.trans k.chip, k.state.trans h.state, k.cursor.trans h.cursor, k.sif.trans h.sif,
    k.flen.trans h.flen, k.racc.trans h.racc, fun d hd => (k.others d hd).trans (h.others d hd),
    h.keeps.trans k.keeps⟩

theorem setSlot (ch : Ch) (x : Slot) (p : Player) : ByEvents ch p (p.setSlot ch x) :=
  ⟨.refl _, rfl, rfl, rfl, rfl, rfl, fun d hd => by simp [hd], ⟨rfl, rfl⟩⟩

theorem onChip (ch : Ch) (f : ChipState → ChipState) (p : Player) (h : SameButHooks p.chip (f p.chip)) :
    ByEvents ch p (p.onChip f) :=
  ⟨h, rfl, rfl, rfl, rfl, rfl, fun _ _ => rfl, ⟨rfl, rfl⟩⟩

theorem release (ch : Ch) (p : Player) : ByEvents ch p (Machine.release ch p) :=
  have h := release_byEffects Config.default ch p
  ⟨h.chip, h.state, h.cursor, h.sif, h.flen, h.racc, fun d hd => by rw [slotOf_release, if_neg hd],
    release_keepsDecode ch p⟩

end ByEvents

theorem fxEvent_byEvents (cfg : Config) (ch : Ch) (p : Player) : ByEvents ch p (fxEvent cfg ch p) := by
  unfold fxEvent
  split
  · exact .refl _ _
  · split
    · exact (ByEvents.setSlot ch _ p).trans (.onChip _ _ _ (hooks_setDrumOvr _ _ _))
    · exact .release _ _
  · exact (ByEvents.setSlot ch _ p).trans (.onChip _ _ _ (hooks_setMixerOvr _ _ _ _))
  · exact .onChip _ _ _ (hooks_envRestart _)

theorem runEvents_byEvents (cfg : Config) (ch : Ch) (n : Nat) (p : Player) :
    ByEvents ch p (runEvents cfg ch n p) := by
  induction n generalizing p with
  | zero => exact .refl _ _
  | succ n ih =>
    unfold runEvents
    split
    · exact .refl _ _
    · split
      · exact (ByEvents.setSlot ch _ p).trans ((fxEvent_byEvents cfg ch _).trans (ih _))
      · exact .refl _ _

/-- With room for `n` events the loop ends with the accumulator below SAMPLE_RATE. -/
theorem runEvents_inv {cfg : Config} (ch : Ch) (n : Nat) (p : Player)
    (h : (p.slotOf ch).InvBelow cfg ((n + 1) * cfg.sampleRate)) :
    ((runEvents cfg ch n p).slotOf ch).Inv cfg := by
  induction n generalizing p with
  | zero =>
    rw [← Slot.invBelow_sampleRate]
    simpa [runEvents] using h
  | succ n ih =>
    unfold runEvents
    split
    · rename_i hn
      cases hs : p.slotOf ch <;> simp [hs, Slot.acc?] at hn
      trivial
    · rename_i acc ha
      have hlt := Slot.acc_lt h ha
      split
      · apply ih
        apply fxEvent_invBelow
        simp only [slotOf_setSlot, if_true]
        apply Slot.invBelow_withAcc h
        rw [Nat.add_mul] at hlt
        omega
      · rw [← Slot.invBelow_sampleRate]
        exact Slot.invBelow_mono h ha (by omega)

theorem fxAdvanceCh_byEvents (cfg : Config) (ch : Ch) (p : Player) :
    ByEvents ch p (fxAdvanceCh cfg ch p) := by
  unfold fxAdvanceCh
  split
  · exact .refl _ _
  · exact (ByEvents.setSlot ch _ p).trans (runEvents_byEvents cfg ch _ _)

theorem fxAdvanceCh_inv {cfg : Config} (hr : 0 < cfg.sampleRate) (ch : Ch) (p : Player)
    (h : (p.slotOf ch).Inv cfg) : ((fxAdvanceCh cfg ch p).slotOf ch).Inv cfg := by
  unfold fxAdvanceCh
  split
  · exact h
  · rename_i acc ha
    apply runEvents_inv
    simp only [slotOf_setSlot, if_true]
    apply Slot.invBelow_withAcc (Slot.invBelow_sampleRate.2 h)
    have := Nat.div_add_mod (acc + (p.slotOf ch).rate) cfg.sampleRate
    have := Nat.mod_lt (acc + (p.slotOf ch).rate) hr
    rw [Nat.add_mul, Nat.mul_comm]
    omega

theorem fxAdvanceCh_byEffects {cfg : Config} (hr : 0 < cfg.sampleRate) (ch : Ch) (p : Player) :
    ByEffects cfg p (fxAdvanceCh cfg ch p) :=
  have h := fxAdvanceCh_byEvents cfg ch p
  ⟨h.chip, h.state, h.cursor, h.sif, h.flen, h.racc, fun hs d => by
    by_cases hd : d = ch
    · subst hd; exact fxAdvanceCh_inv hr d p (hs d)
    · rw [h.others d hd]; exact hs d⟩

theorem fxAdvance_byEffects {cfg : Config} (hr : 0 < cfg.sampleRate) (p : Player) :
    ByEffects cfg p (fxAdvance cfg p) :=
  (fxAdvanceCh_byEffects hr .A p).trans ((fxAdvanceCh_byEffects hr .B _).trans (fxAdvanceCh_byEffects hr .C _))

theorem fxAdvance_keepsDecode (cfg : Config) (p : Player) : KeepsDecode p (fxAdvance cfg p) :=
  (fxAdvanceCh_byEvents cfg .A p).keeps.trans ((fxAdvanceCh_byEvents cfg .B _).keeps.trans
    (fxAdvanceCh_byEvents cfg .C _).keeps)

/-! ### Frame loads -/

theorem inv_loadFrameRegs {cfg : Config} {c : ChipState} (h : c.Inv cfg) (b : Bytes16) :
    (loadFrameRegs cfg b c).Inv cfg := by
  unfold loadFrameRegs
  generalize allRegs = l
  induction l generalizing c with
  | nil => exact h
  | cons a l ih =>
    apply ih
    unfold loadFrameReg
    split
    · exact h
    · exact inv_writeReg h _ _

/-- What a frame load does to the engine besides its slots (45_playback.md R117, R118). -/
theorem frameLoad_eng {cfg : Config} (hr : 0 < cfg.sampleRate) (k : Nat) (p : Player) :
    let q := frameLoad cfg k p
    q.eng.state = p.eng.state ∧ q.eng.cursor = p.eng.cursor ∧ q.eng.sif = p.eng.sif ∧
      q.eng.flen = (frameLen cfg p.eng).flen ∧ q.eng.racc = (frameLen cfg p.eng).racc ∧
      q.eng.seen = PerCh.all false ∧ q.eng.fxq = none := by
  have h := fxDecode_byEffects cfg (frameAt cfg k).fx
    ((p.onChip (loadFrameRegs cfg (frameAt cfg k).bytes)).onEng (frameLen cfg)) hr
  have hs : ∀ e : EngineState, (frameLen cfg e).state = e.state ∧ (frameLen cfg e).cursor = e.cursor ∧
      (frameLen cfg e).sif = e.sif := by
    intro e; unfold frameLen; dsimp only; split <;> exact ⟨rfl, rfl, rfl⟩
  exact ⟨h.state.trans (hs _).1, h.cursor.trans (hs _).2.1, h.sif.trans (hs _).2.2, h.flen, h.racc, rfl, rfl⟩

theorem frameLoad_chip_inv {cfg : Config} (hr : 0 < cfg.sampleRate) (k : Nat) {p : Player}
    (h : p.chip.Inv cfg) : (frameLoad cfg k p).chip.Inv cfg :=
  (fxDecode_byEffects cfg _ _ hr).chip.inv (inv_loadFrameRegs h _)

theorem frameLen_slot (cfg : Config) (e : EngineState) : (frameLen cfg e).slot = e.slot := by
  unfold frameLen; dsimp only; split <;> rfl

theorem frameLoad_slots {cfg : Config} (hr : 0 < cfg.sampleRate) (k : Nat) {p : Player}
    (h : SlotsInv cfg p) : SlotsInv cfg (frameLoad cfg k p) := by
  apply (fxDecode_byEffects cfg _ _ hr).slots
  intro ch
  show ((frameLen cfg p.eng).slot.get ch).Inv cfg
  rw [frameLen_slot]
  exact h ch

/-- The parameters the engine's invariant needs. -/
structure EngineOk (cfg : Config) : Prop where
  chip     : ChipOk cfg
  tick_pos : 0 < cfg.tickRate
  frames   : frameCount cfg ≠ 0
  loop_lt  : loopStart cfg < frameCount cfg
  rate_le  : cfg.tickRate ≤ cfg.sampleRate

theorem frameLen_racc_lt {cfg : Config} (hk : EngineOk cfg) {e : EngineState} (h : e.racc < cfg.tickRate) :
    (frameLen cfg e).racc < cfg.tickRate := by
  have := Nat.mod_lt cfg.sampleRate hk.tick_pos
  unfold frameLen
  dsimp only
  split
  · show e.racc + cfg.sampleRate % cfg.tickRate - cfg.tickRate < cfg.tickRate; omega
  · show e.racc + cfg.sampleRate % cfg.tickRate < cfg.tickRate; omega

theorem frameLen_flen (cfg : Config) (e : EngineState) :
    (frameLen cfg e).flen = cfg.sampleRate / cfg.tickRate ∨
      (frameLen cfg e).flen = cfg.sampleRate / cfg.tickRate + 1 := by
  unfold frameLen
  dsimp only
  split
  · exact Or.inr rfl
  · exact Or.inl rfl

theorem frameLen_pos {cfg : Config} (hk : EngineOk cfg) (e : EngineState) : 0 < (frameLen cfg e).flen := by
  have := Nat.div_pos hk.rate_le hk.tick_pos
  rcases frameLen_flen cfg e with h | h <;> omega

theorem Player.Inv.slots {cfg : Config} {p : Player} (h : p.Inv cfg) : SlotsInv cfg p := h.eng.slot_inv

/-- Effects between frame loads keep the player in its ranges. -/
theorem ByEffects.inv {cfg : Config} {p q : Player} (h : ByEffects cfg p q) (k : KeepsDecode p q)
    (hp : p.Inv cfg) : q.Inv cfg where
  chip := h.chip.inv hp.chip
  eng :=
    { cursor_le := by rw [h.cursor]; exact hp.eng.cursor_le
      cursor_lt := by rw [h.cursor, h.state]; exact hp.eng.cursor_lt
      sif_lt := by rw [h.state, h.sif, h.flen]; exact hp.eng.sif_lt
      sif_zero := by rw [h.state, h.sif]; exact hp.eng.sif_zero
      flen_val := by rw [h.flen]; exact hp.eng.flen_val
      racc_lt := by rw [h.racc]; exact hp.eng.racc_lt
      slot_inv := h.slots hp.slots
      seen_none := by rw [k.seen, k.fxq]; exact hp.eng.seen_none }

/-- A frame load at sample 0 of a frame in range puts the player in its ranges. -/
theorem inv_frameLoad {cfg : Config} (hk : EngineOk cfg) (k : Nat) {p : Player} (hc : p.chip.Inv cfg)
    (hs : SlotsInv cfg p) (hcur : p.eng.cursor < frameCount cfg) (hsif : p.eng.sif = 0)
    (hr : p.eng.racc < cfg.tickRate) : (frameLoad cfg k p).Inv cfg where
  chip := frameLoad_chip_inv hk.chip.rate_pos k hc
  eng := by
    obtain ⟨_, h2, h3, h4, h5, h6, _⟩ := frameLoad_eng hk.chip.rate_pos k p
    exact
      { cursor_le := by rw [h2]; exact hcur.le
        cursor_lt := by rw [h2]; exact fun _ => hcur
        sif_lt := by rw [h3, h4, hsif]; exact fun _ => frameLen_pos hk _
        sif_zero := by rw [h3]; exact fun _ => hsif
        flen_val := by rw [h4]; exact Or.inr (frameLen_flen cfg _)
        racc_lt := by rw [h5]; exact frameLen_racc_lt hk hr
        slot_inv := frameLoad_slots hk.chip.rate_pos k hs
        seen_none := fun _ => h6 }

/-! ### Samples -/

theorem inv_onChip {cfg : Config} {p : Player} (h : p.Inv cfg) {f : ChipState → ChipState}
    (hf : (f p.chip).Inv cfg) : (p.onChip f).Inv cfg := ⟨hf, h.eng⟩

theorem inv_endFrame {cfg : Config} (hk : EngineOk cfg) {p : Player} (h : p.Inv cfg)
    (hst : p.eng.state = .playing) : (endFrame cfg p).Inv cfg := by
  have hlt := h.eng.cursor_lt (by rw [hst]; decide)
  unfold endFrame
  dsimp only
  split
  · split
    · exact inv_frameLoad hk _ h.chip h.slots hk.loop_lt rfl h.eng.racc_lt
    · rename_i hF _
      refine (releaseAll_byEffects cfg _).inv (releaseAll_keepsDecode _) ?_
      exact
        ⟨h.chip,
          { cursor_le := by show p.eng.cursor + 1 ≤ _; omega
            cursor_lt := fun hne => absurd rfl hne
            sif_lt := fun hs => by
              have : PbState.finished = .playing ∨ PbState.finished = .paused := hs
              rcases this with h | h <;> cases h
            sif_zero := fun _ => rfl
            flen_val := h.eng.flen_val
            racc_lt := h.eng.racc_lt
            slot_inv := h.eng.slot_inv
            seen_none := h.eng.seen_none }⟩
  · rename_i hF
    exact inv_frameLoad hk _ h.chip h.slots (by show p.eng.cursor + 1 < _; omega) rfl h.eng.racc_lt

theorem inv_sampleStep {cfg : Config} (hk : EngineOk cfg) {p : Player} (h : p.Inv cfg)
    (hst : p.eng.state = .playing) : (sampleStep cfg p).Inv cfg := by
  have h1 : (p.onChip (clockChip cfg)).Inv cfg := inv_onChip h (inv_clockChip hk.chip h.chip)
  have hb := fxAdvance_byEffects hk.chip.rate_pos (p.onChip (clockChip cfg))
  have h2 := hb.inv (fxAdvance_keepsDecode cfg _) h1
  have hst2 : (fxAdvance cfg (p.onChip (clockChip cfg))).eng.state = .playing := hb.state.trans hst
  unfold sampleStep
  dsimp only
  split
  · exact inv_endFrame hk h2 hst2
  · rename_i hne
    refine ⟨h2.chip, ?_⟩
    have hlt := h2.eng.sif_lt (Or.inl hst2)
    exact
      { cursor_le := h2.eng.cursor_le
        cursor_lt := h2.eng.cursor_lt
        sif_lt := fun _ => by
          show (fxAdvance cfg (p.onChip (clockChip cfg))).eng.sif + 1 < _
          exact lt_of_le_of_ne hlt hne
        sif_zero := fun hs => by
          have hs' : (fxAdvance cfg (p.onChip (clockChip cfg))).eng.state = .idle ∨
              (fxAdvance cfg (p.onChip (clockChip cfg))).eng.state = .finished := hs
          rw [hst2] at hs'
          rcases hs' with h | h <;> cases h
        flen_val := h2.eng.flen_val
        racc_lt := h2.eng.racc_lt
        slot_inv := h2.eng.slot_inv
        seen_none := h2.eng.seen_none }

theorem inv_generateEngine {cfg : Config} (hk : EngineOk cfg) (n : Nat) {p : Player} (h : p.Inv cfg) :
    (generateEngine cfg n p).1.Inv cfg := by
  induction n generalizing p with
  | zero => exact h
  | succ n ih =>
    unfold generateEngine
    split
    · rename_i hst
      exact ih (inv_sampleStep hk h hst)
    · exact ih h

/-! ### Commands -/

theorem inv_play {cfg : Config} (hk : EngineOk cfg) {p : Player} (h : p.Inv cfg) : (play cfg p).Inv cfg := by
  have load : ∀ k, k < frameCount cfg →
      ((frameLoad cfg k (p.onEng fun e => { e with cursor := k, sif := 0 })).onEng
        fun e => { e with state := .playing }).Inv cfg := by
    intro k hlt
    have h1 := inv_frameLoad hk k (p := p.onEng fun e => { e with cursor := k, sif := 0 }) h.chip h.slots hlt
      rfl h.eng.racc_lt
    obtain ⟨_, h2, h3, h4, _⟩ := frameLoad_eng hk.chip.rate_pos k (p.onEng fun e => { e with cursor := k, sif := 0 })
    refine ⟨h1.chip, ?_⟩
    exact
      { cursor_le := h1.eng.cursor_le
        cursor_lt := fun _ => by
          show (frameLoad cfg k (p.onEng fun e => { e with cursor := k, sif := 0 })).eng.cursor < _
          rw [h2]; exact hlt
        sif_lt := fun _ => by
          show (frameLoad cfg k (p.onEng fun e => { e with cursor := k, sif := 0 })).eng.sif <
            (frameLoad cfg k (p.onEng fun e => { e with cursor := k, sif := 0 })).eng.flen
          rw [h3, h4]; exact frameLen_pos hk _
        sif_zero := fun _ => h3
        flen_val := h1.eng.flen_val
        racc_lt := h1.eng.racc_lt
        slot_inv := h1.eng.slot_inv
        seen_none := h1.eng.seen_none }
  have hk0 : (if p.eng.cursor = frameCount cfg then 0 else p.eng.cursor) < frameCount cfg := by
    have := h.eng.cursor_le
    have := hk.frames
    split <;> omega
  unfold play
  split
  · exact load _ hk0
  · exact load _ hk0
  · rename_i hst
    refine ⟨h.chip, ?_⟩
    exact
      { cursor_le := h.eng.cursor_le
        cursor_lt := fun _ => h.eng.cursor_lt (by rw [hst]; decide)
        sif_lt := fun _ => h.eng.sif_lt (Or.inr hst)
        sif_zero := fun hs => by
          have : PbState.playing = .idle ∨ PbState.playing = .finished := hs
          rcases this with h | h <;> cases h
        flen_val := h.eng.flen_val
        racc_lt := h.eng.racc_lt
        slot_inv := h.eng.slot_inv
        seen_none := h.eng.seen_none }
  · exact h

theorem inv_pause {cfg : Config} {p : Player} (h : p.Inv cfg) : (pause p).Inv cfg := by
  unfold pause
  split
  · rename_i hst
    refine ⟨h.chip, ?_⟩
    exact
      { cursor_le := h.eng.cursor_le
        cursor_lt := fun _ => h.eng.cursor_lt (by rw [hst]; decide)
        sif_lt := fun _ => h.eng.sif_lt (Or.inl hst)
        sif_zero := fun hs => by
          have : PbState.paused = .idle ∨ PbState.paused = .finished := hs
          rcases this with h | h <;> cases h
        flen_val := h.eng.flen_val
        racc_lt := h.eng.racc_lt
        slot_inv := h.eng.slot_inv
        seen_none := h.eng.seen_none }
  all_goals exact h

theorem inv_stop {cfg : Config} (hk : EngineOk cfg) {p : Player} (h : p.Inv cfg) : (stop p).Inv cfg := by
  have h1 := (releaseAll_byEffects cfg p).inv (releaseAll_keepsDecode p) h
  have := hk.frames
  refine ⟨h1.chip, ?_⟩
  exact
    { cursor_le := Nat.zero_le _
      cursor_lt := fun _ => Nat.pos_of_ne_zero hk.frames
      sif_lt := fun hs => by
        have : PbState.idle = .playing ∨ PbState.idle = .paused := hs
        rcases this with h | h <;> cases h
      sif_zero := fun _ => rfl
      flen_val := h1.eng.flen_val
      racc_lt := hk.tick_pos
      slot_inv := h1.eng.slot_inv
      seen_none := h1.eng.seen_none }

theorem inv_seek {cfg : Config} (hk : EngineOk cfg) (target : Nat) {p : Player} (h : p.Inv cfg) :
    (seek cfg target p).Inv cfg := by
  have h1 := (releaseAll_byEffects cfg p).inv (releaseAll_keepsDecode p) h
  have := hk.frames
  unfold seek
  exact inv_frameLoad hk _ h1.chip h1.slots
    (by show min target (frameCount cfg - 1) < frameCount cfg; omega) rfl h1.eng.racc_lt

end Sys2Proof.Machine
end

