-- ==== Sys2Proof/Laws/Ring.lean ====
section
/-! SUPPORT. Laws of the ring's slots and cursors: read after write, the canonical form, the arithmetic of the gap,
and what the commit sub-steps do to the invariant and to the unread samples. -/

namespace Sys2Proof.Machine

namespace Memory

@[simp] theorem read_write_same (m : Memory) (i : Nat) (x : F32) : read (write m i x) i = some x := by
  induction m with
  | nil => simp [write, read]
  | cons p m ih =>
    obtain ⟨j, y⟩ := p
    simp only [write]
    split
    · simp [read]
    · split
      · simp [read]
      · rename_i h1 h2
        simp [read, h2, ih]

theorem read_write_ne (m : Memory) {i j : Nat} (x : F32) (h : j ≠ i) : read (write m i x) j = read m j := by
  induction m with
  | nil => simp [write, read, h]
  | cons p m ih =>
    obtain ⟨k, y⟩ := p
    simp only [write]
    split
    · simp [read, h]
    · split
      · rename_i h2; subst h2; simp [read, h]
      · simp only [read, ih]

theorem mem_write {m : Memory} {i : Nat} {x : F32} {p : Nat × F32} (h : p ∈ write m i x) :
    p = (i, x) ∨ p ∈ m := by
  induction m with
  | nil => simpa [write] using h
  | cons q m ih =>
    obtain ⟨j, y⟩ := q
    simp only [write] at h
    split at h
    · simpa using h
    · split at h
      · simp only [List.mem_cons] at h ⊢; tauto
      · simp only [List.mem_cons] at h ⊢
        rcases h with h | h
        · tauto
        · have := ih h; tauto

/-- A canonical memory's tail is canonical and lies above its head. -/
theorem wf_cons {i : Nat} {x : F32} {m : Memory} :
    wf ((i, x) :: m) = true ↔ (∀ p ∈ m, i < p.1) ∧ wf m = true := by
  induction m generalizing i x with
  | nil => simp [wf]
  | cons q m ih =>
    obtain ⟨j, y⟩ := q
    simp only [wf, Bool.and_eq_true, decide_eq_true_eq, List.mem_cons]
    constructor
    · rintro ⟨hij, hm⟩
      refine ⟨?_, hm⟩
      rintro p (rfl | hp)
      · exact hij
      · exact lt_trans hij ((ih.1 hm).1 p hp)
    · rintro ⟨h, hm⟩
      exact ⟨h _ (Or.inl rfl), hm⟩

/-- A write keeps the canonical form. -/
theorem wf_write {m : Memory} (i : Nat) (x : F32) (h : wf m = true) : wf (write m i x) = true := by
  induction m with
  | nil => rfl
  | cons q m ih =>
    obtain ⟨j, y⟩ := q
    obtain ⟨hj, hm⟩ := wf_cons.1 h
    simp only [write]
    split
    · rename_i hij
      refine wf_cons.2 ⟨?_, h⟩
      intro p hp
      rcases List.mem_cons.1 hp with rfl | hp
      · exact hij
      · exact lt_trans hij (hj p hp)
    · split
      · rename_i hij; subst hij
        exact wf_cons.2 ⟨hj, hm⟩
      · rename_i h1 h2
        refine wf_cons.2 ⟨?_, ih hm⟩
        intro p hp
        rcases mem_write hp with rfl | hp
        · show j < i; omega
        · exact hj p hp

theorem wf_writeFrom (cap : Nat) {m : Memory} (i : Nat) (xs : List F32) (h : wf m = true) :
    wf (writeFrom cap m i xs) = true := by
  induction xs generalizing m i with
  | nil => exact h
  | cons x xs ih => exact ih (i + 1) (wf_write _ _ h)

theorem mem_writeFrom {cap : Nat} {m : Memory} {i : Nat} {xs : List F32} (hc : 0 < cap)
    (h : ∀ p ∈ m, p.1 < cap) : ∀ p ∈ writeFrom cap m i xs, p.1 < cap := by
  induction xs generalizing m i with
  | nil => exact h
  | cons x xs ih =>
    refine ih ?_
    intro p hp
    rcases mem_write hp with rfl | hp
    · exact Nat.mod_lt _ hc
    · exact h p hp

/-- Slots outside the written ones keep their contents. -/
theorem read_writeFrom_ne {cap : Nat} (m : Memory) (i : Nat) (xs : List F32) (j : Nat)
    (h : ∀ k < xs.length, j ≠ (i + k) % cap) : read (writeFrom cap m i xs) j = read m j := by
  induction xs generalizing m i with
  | nil => rfl
  | cons x xs ih =>
    have h0 : j ≠ i % cap := h 0 (Nat.succ_pos _)
    have : read (writeFrom cap (write m (i % cap) x) (i + 1) xs) j = read (write m (i % cap) x) j := by
      apply ih
      intro k hk
      have := h (k + 1) (by simpa using hk)
      rwa [show i + (k + 1) = i + 1 + k by omega] at this
    rw [writeFrom, this, read_write_ne _ _ h0]

theorem readFrom_congr {cap : Nat} {m m' : Memory} {i n : Nat}
    (h : ∀ k < n, read m ((i + k) % cap) = read m' ((i + k) % cap)) :
    readFrom cap m i n = readFrom cap m' i n := by
  induction n generalizing i with
  | zero => rfl
  | succ n ih =>
    have h0 := h 0 (Nat.succ_pos _)
    have hs : readFrom cap m (i + 1) n = readFrom cap m' (i + 1) n := by
      apply ih
      intro k hk
      have := h (k + 1) (by omega)
      rwa [show i + (k + 1) = i + 1 + k by omega] at this
    simp only [readFrom, hs]
    simp only [Nat.add_zero] at h0
    rw [h0]

theorem readFrom_mod (cap : Nat) (m : Memory) (i n : Nat) :
    readFrom cap m (i % cap) n = readFrom cap m i n := by
  suffices ∀ j, i % cap = j % cap → readFrom cap m j n = readFrom cap m i n from this _ (by simp)
  intro j hj
  induction n generalizing i j with
  | zero => rfl
  | succ n ih =>
    have : readFrom cap m (j + 1) n = readFrom cap m (i + 1) n := by
      apply ih
      rw [Nat.add_mod, hj, ← Nat.add_mod]
    simp only [readFrom, hj, this]

/-- The slots a read passes are all written exactly when it answers. -/
theorem readFrom_isSome {cap : Nat} {m : Memory} {i n : Nat} :
    (readFrom cap m i n).isSome ↔ ∀ k < n, (read m ((i + k) % cap)).isSome := by
  induction n generalizing i with
  | zero => simp [readFrom]
  | succ n ih =>
    have step : (readFrom cap m i (n + 1)).isSome ↔
        (read m (i % cap)).isSome ∧ (readFrom cap m (i + 1) n).isSome := by
      simp only [readFrom]
      cases read m (i % cap) <;> cases readFrom cap m (i + 1) n <;> simp
    rw [step, ih]
    constructor
    · rintro ⟨h0, h⟩ k hk
      cases k with
      | zero => exact h0
      | succ k =>
        have := h k (by omega)
        rwa [show i + 1 + k = i + (k + 1) by omega] at this
    · intro h
      refine ⟨h 0 (Nat.succ_pos _), fun k hk => ?_⟩
      have := h (k + 1) (by omega)
      rwa [show i + (k + 1) = i + 1 + k by omega] at this

theorem readFrom_add {cap : Nat} {m : Memory} {i a b : Nat} {xs ys : List F32}
    (hx : readFrom cap m i a = some xs) (hy : readFrom cap m (i + a) b = some ys) :
    readFrom cap m i (a + b) = some (xs ++ ys) := by
  induction a generalizing i xs with
  | zero =>
    simp only [readFrom, Option.some.injEq] at hx
    subst hx
    simpa using hy
  | succ a ih =>
    rw [show a + 1 + b = (a + b) + 1 by omega]
    simp only [readFrom] at hx ⊢
    cases h1 : read m (i % cap) with
    | none => simp [h1] at hx
    | some x =>
      cases h2 : readFrom cap m (i + 1) a with
      | none => simp [h1, h2] at hx
      | some xs' =>
        simp only [h1, h2, Option.some.injEq] at hx
        subst hx
        have := ih h2 (by rwa [show i + 1 + a = i + (a + 1) by omega])
        simp [this]

theorem readFrom_length {cap : Nat} {m : Memory} {i n : Nat} {xs : List F32}
    (h : readFrom cap m i n = some xs) : xs.length = n := by
  induction n generalizing i xs with
  | zero => simp only [readFrom, Option.some.injEq] at h; subst h; rfl
  | succ n ih =>
    simp only [readFrom] at h
    split at h
    · rename_i x xs' h1 h2
      simp only [Option.some.injEq] at h
      subst h
      simp [ih h2]
    · simp at h

theorem mod_ne_of_lt {cap i k : Nat} (hk : 0 < k) (hk' : k < cap) : i % cap ≠ (i + k) % cap := by
  intro h
  have h2 : (i + k) % cap = (i + 0) % cap := by simpa using h.symm
  have := (Nat.ModEq.add_left_cancel' i (show i + k ≡ i + 0 [MOD cap] from h2))
  have h3 : k % cap = 0 % cap := this
  rw [Nat.mod_eq_of_lt hk', Nat.zero_mod] at h3
  omega

/-- What a write puts into the slots, a read of the same slots gives back. -/
theorem readFrom_writeFrom_same {cap : Nat} (m : Memory) (i : Nat) (xs : List F32)
    (h : xs.length ≤ cap) : readFrom cap (writeFrom cap m i xs) i xs.length = some xs := by
  induction xs generalizing m i with
  | nil => rfl
  | cons x xs ih =>
    have hlen : xs.length + 1 ≤ cap := by simpa using h
    have h1 : read (writeFrom cap (write m (i % cap) x) (i + 1) xs) (i % cap) = some x := by
      rw [read_writeFrom_ne, read_write_same]
      intro k hk
      rw [show i + 1 + k = i + (k + 1) by omega]
      exact mod_ne_of_lt (Nat.succ_pos _) (by omega)
    have h2 := ih (write m (i % cap) x) (i + 1) (by omega)
    simp only [List.length_cons, readFrom, writeFrom, h1, h2]

end Memory

/-! ### The gap between two cursors -/

theorem mod_of_lt_two_mul {a c : Nat} (h : a < 2 * c) : a % c = if a < c then a else a - c := by
  split
  · exact Nat.mod_eq_of_lt ‹_›
  · rw [Nat.mod_eq_sub_mod (by omega), Nat.mod_eq_of_lt (by omega)]

theorem cursorGap_eq {cap w r : Nat} (hw : w < cap) (hr : r < cap) :
    cursorGap cap w r = if r ≤ w then w - r else w + cap - r := by
  unfold cursorGap
  rw [mod_of_lt_two_mul (by omega)]
  split <;> split <;> omega

theorem cursorGap_lt {cap : Nat} (w r : Nat) (h : 0 < cap) : cursorGap cap w r < cap := Nat.mod_lt _ h

/-- The gap is the cursors' difference under the mask `cap - 1`, `cap` a power of two (47_ring_buffer.md R141). -/
theorem cursorGap_eq_mask (k w r : Nat) :
    cursorGap (2 ^ k) w r = (w + 2 ^ k - r) &&& (2 ^ k - 1) := by
  rw [Nat.and_two_pow_sub_one_eq_mod]; rfl

theorem cursorGap_write {cap w r n : Nat} (hw : w < cap) (hr : r < cap) (hn : cursorGap cap w r + n < cap) :
    cursorGap cap ((w + n) % cap) r = cursorGap cap w r + n := by
  have hm : (w + n) % cap < cap := Nat.mod_lt _ (by omega)
  rw [cursorGap_eq hw hr] at hn ⊢
  rw [cursorGap_eq hm hr, mod_of_lt_two_mul (by split at hn <;> omega)]
  split at hn <;> split <;> split <;> omega

theorem cursorGap_read {cap w r n : Nat} (hw : w < cap) (hr : r < cap) (hn : n ≤ cursorGap cap w r) :
    cursorGap cap w ((r + n) % cap) = cursorGap cap w r - n := by
  have hm : (r + n) % cap < cap := Nat.mod_lt _ (by omega)
  rw [cursorGap_eq hw hr] at hn ⊢
  rw [cursorGap_eq hw hm, mod_of_lt_two_mul (by split at hn <;> omega)]
  split at hn <;> split <;> split <;> omega

/-- Slot `r + gap` is the write cursor. -/
theorem cursorGap_reach {cap w r : Nat} (hw : w < cap) (hr : r < cap) : (r + cursorGap cap w r) % cap = w := by
  rw [cursorGap_eq hw hr, mod_of_lt_two_mul (by split <;> omega)]
  split <;> split <;> omega

/-! ### The commit sub-steps -/

theorem ringCapacity_pos (n : Nat) : 2 ≤ ringCapacity n := by
  unfold ringCapacity
  split
  · exact le_rfl
  · rw [pow_succ]
    have := Nat.one_le_two_pow (n := Nat.log2 (n - 1))
    omega

theorem RingState.Inv.cap_pos {cfg : Config} {g : RingState} (h : g.Inv cfg) : 0 < g.cap := by
  have := ringCapacity_pos cfg.rbRequestedSize
  rw [h.cap_eq]; omega

theorem availRead_lt {cfg : Config} {g : RingState} (h : g.Inv cfg) : availRead g < g.cap :=
  cursorGap_lt _ _ h.cap_pos

theorem availRead_commitWrite {cfg : Config} {g : RingState} (h : g.Inv cfg) (xs : List F32) {n : Nat}
    (hn : n ≤ availWrite g) : availRead (commitWrite xs n g) = availRead g + n := by
  have := availRead_lt h
  unfold availWrite at hn
  exact cursorGap_write h.w_lt h.r_lt (by show availRead g + n < g.cap; omega)

theorem availRead_advanceRead {cfg : Config} {g : RingState} (h : g.Inv cfg) (count : Nat) {n : Nat}
    (hn : n ≤ availRead g) : availRead (advanceRead count n g) = availRead g - n :=
  cursorGap_read h.w_lt h.r_lt hn

/-- Unread slots are not touched by a write that fits. -/
theorem read_commitWrite {cfg : Config} {g : RingState} (h : g.Inv cfg) (xs : List F32) {n : Nat}
    (hn : n ≤ availWrite g) {i : Nat} (hi : i < availRead g) :
    Memory.read (commitWrite xs n g).buf ((g.r + i) % g.cap) = Memory.read g.buf ((g.r + i) % g.cap) := by
  apply Memory.read_writeFrom_ne
  intro k hk
  have hlt := availRead_lt h
  have hk' : k < n := lt_of_lt_of_le hk (by simp)
  have hw : g.w = (g.r + availRead g) % g.cap := (cursorGap_reach h.w_lt h.r_lt).symm
  unfold availWrite at hn
  rw [hw, Nat.mod_add_mod, show g.r + availRead g + k = (g.r + i) + (availRead g + k - i) by omega]
  exact Memory.mod_ne_of_lt (by omega) (by omega)

/-- The write's slots read back as what was written. -/
theorem readFrom_commitWrite {cfg : Config} {g : RingState} (h : g.Inv cfg) (xs : List F32) {n : Nat}
    (hx : n ≤ xs.length) (hn : n ≤ availWrite g) :
    Memory.readFrom g.cap (commitWrite xs n g).buf (g.r + availRead g) n = some (xs.take n) := by
  have hcap := h.cap_pos
  have hl : (xs.take n).length = n := by simp [hx]
  have := Memory.readFrom_writeFrom_same (cap := g.cap) g.buf g.w (xs.take n) (by
    unfold availWrite at hn; omega)
  rw [hl] at this
  rw [← Memory.readFrom_mod, show (g.r + availRead g) % g.cap = g.w from cursorGap_reach h.w_lt h.r_lt]
  exact this

theorem readFrom_pending {cfg : Config} {g : RingState} (h : g.Inv cfg) :
    Memory.readFrom g.cap g.buf g.r (availRead g) = some (pending g) := by
  have := Memory.readFrom_isSome.2 h.filled
  obtain ⟨xs, hxs⟩ := Option.isSome_iff_exists.1 this
  simp [pending, hxs]

theorem length_pending {cfg : Config} {g : RingState} (h : g.Inv cfg) : (pending g).length = availRead g :=
  Memory.readFrom_length (readFrom_pending h)

theorem readFrom_commitWrite_all {cfg : Config} {g : RingState} (h : g.Inv cfg) (xs : List F32) {n : Nat}
    (hx : n ≤ xs.length) (hn : n ≤ availWrite g) :
    Memory.readFrom g.cap (commitWrite xs n g).buf g.r (availRead g + n) = some (pending g ++ xs.take n) := by
  refine Memory.readFrom_add ?_ (readFrom_commitWrite h xs hx hn)
  rw [← readFrom_pending h]
  exact Memory.readFrom_congr fun k hk => read_commitWrite h xs hn hk

/-- A write's commit keeps the ring's invariant. -/
theorem inv_commitWrite {cfg : Config} {g : RingState} (h : g.Inv cfg) (xs : List F32) {n : Nat}
    (hx : n ≤ xs.length) (hn : n ≤ availWrite g) : (commitWrite xs n g).Inv cfg where
  cap_eq := h.cap_eq
  w_lt := Nat.mod_lt _ h.cap_pos
  r_lt := h.r_lt
  buf_wf := Memory.wf_writeFrom _ _ _ h.buf_wf
  buf_lt := Memory.mem_writeFrom h.cap_pos h.buf_lt
  filled := by
    rw [availRead_commitWrite h xs hn]
    exact Memory.readFrom_isSome.1 (by
      show (Memory.readFrom g.cap (commitWrite xs n g).buf g.r (availRead g + n)).isSome
      rw [readFrom_commitWrite_all h xs hx hn]; rfl)

theorem filled_advance {cfg : Config} {g : RingState} (h : g.Inv cfg) {n i : Nat}
    (hi : i + n < availRead g) : (Memory.read g.buf (((g.r + n) % g.cap + i) % g.cap)).isSome := by
  have := h.filled (i + n) hi
  rwa [Nat.mod_add_mod, show g.r + n + i = g.r + (i + n) by omega]

/-- A read's commit keeps the ring's invariant. -/
theorem inv_advanceRead {cfg : Config} {g : RingState} (h : g.Inv cfg) (count : Nat) {n : Nat}
    (hn : n ≤ availRead g) : (advanceRead count n g).Inv cfg where
  cap_eq := h.cap_eq
  w_lt := h.w_lt
  r_lt := Nat.mod_lt _ h.cap_pos
  buf_wf := h.buf_wf
  buf_lt := h.buf_lt
  filled := by
    rw [availRead_advanceRead h count hn]
    intro i hi
    exact filled_advance h (by omega)

theorem cursorGap_between {cap w r wa : Nat} (hw : w < cap) (hr : r < cap) (ha : wa < cap)
    (h : cursorGap cap wa r ≤ cursorGap cap w r) :
    cursorGap cap w wa = cursorGap cap w r - cursorGap cap wa r := by
  rw [cursorGap_eq hw hr, cursorGap_eq ha hr] at *
  rw [cursorGap_eq hw ha]
  split at h <;> split at h <;> split <;> omega

/-- A flush's commit keeps the ring's invariant. -/
theorem inv_commitFlush {cfg : Config} {g : RingState} (h : g.Inv cfg) {wa : Nat} (ha : wa < g.cap)
    (hle : cursorGap g.cap wa g.r ≤ availRead g) : (commitFlush wa g).Inv cfg where
  cap_eq := h.cap_eq
  w_lt := h.w_lt
  r_lt := ha
  buf_wf := h.buf_wf
  buf_lt := h.buf_lt
  filled := by
    intro i hi
    have hgap : availRead (commitFlush wa g) = availRead g - cursorGap g.cap wa g.r :=
      cursorGap_between h.w_lt h.r_lt ha hle
    rw [hgap] at hi
    have := filled_advance h (n := cursorGap g.cap wa g.r) (i := i) (by omega)
    rw [cursorGap_reach ha h.r_lt] at this
    exact this

/-- A write appends what it accepted to the unread samples (R149 item 2). -/
theorem pending_commitWrite {cfg : Config} {g : RingState} (h : g.Inv cfg) (xs : List F32) {n : Nat}
    (hx : n ≤ xs.length) (hn : n ≤ availWrite g) :
    pending (commitWrite xs n g) = pending g ++ xs.take n := by
  have h1 := readFrom_commitWrite_all h xs hx hn
  have h2 : pending (commitWrite xs n g) =
      (Memory.readFrom g.cap (commitWrite xs n g).buf g.r (availRead (commitWrite xs n g))).getD [] := rfl
  rw [h2, availRead_commitWrite h xs hn, h1]; rfl

/-- The first `n` unread samples are what a read of `n` returns. -/
theorem readFrom_take {cfg : Config} {g : RingState} (h : g.Inv cfg) {n : Nat} (hn : n ≤ availRead g) :
    Memory.readFrom g.cap g.buf g.r n = some ((pending g).take n) ∧
      Memory.readFrom g.cap g.buf (g.r + n) (availRead g - n) = some ((pending g).drop n) := by
  have ha : (Memory.readFrom g.cap g.buf g.r n).isSome :=
    Memory.readFrom_isSome.2 fun k hk => h.filled k (by omega)
  have hb : (Memory.readFrom g.cap g.buf (g.r + n) (availRead g - n)).isSome :=
    Memory.readFrom_isSome.2 fun k hk => by
      have := h.filled (n + k) (by omega)
      rwa [show g.r + n + k = g.r + (n + k) by omega]
  obtain ⟨xs, hxs⟩ := Option.isSome_iff_exists.1 ha
  obtain ⟨ys, hys⟩ := Option.isSome_iff_exists.1 hb
  have hall := Memory.readFrom_add hxs hys
  rw [show n + (availRead g - n) = availRead g by omega, readFrom_pending h, Option.some.injEq] at hall
  have hl := Memory.readFrom_length hxs
  rw [hxs, hys, hall]
  constructor
  · rw [List.take_append_of_le_length (by omega), List.take_of_length_le (by omega)]
  · rw [List.drop_append_of_le_length (by omega), List.drop_of_length_le (by omega), List.nil_append]

/-- A read takes its samples off the front of the unread ones (R149 item 2). -/
theorem pending_advanceRead {cfg : Config} {g : RingState} (h : g.Inv cfg) (count : Nat) {n : Nat}
    (hn : n ≤ availRead g) : pending (advanceRead count n g) = (pending g).drop n := by
  have h2 : pending (advanceRead count n g) =
      (Memory.readFrom g.cap g.buf ((g.r + n) % g.cap) (availRead (advanceRead count n g))).getD [] := rfl
  rw [h2, availRead_advanceRead h count hn, Memory.readFrom_mod, (readFrom_take h hn).2]; rfl

end Sys2Proof.Machine
end

