-- ==== Sys2Proof/Laws/Step.lean ====
section
/-! SUPPORT. Laws of the step: what each kind of update of the state needs to keep the machine's invariant, and what
the shared points of the meanings (`owned`, `inspected`, `hasRole`, `carryOn`) can answer. -/

namespace Sys2Proof.Machine

/-! ### The parameters -/

theorem engineOk_of_configOk {cfg : Config} (h : configOk cfg = true) : EngineOk cfg := by
  simp only [configOk, paramsInRange, Bool.and_eq_true, decide_eq_true_eq, Bool.or_eq_true] at h
  obtain ⟨⟨⟨⟨⟨⟨⟨⟨⟨⟨⟨_, hs⟩, ht⟩, hl⟩, _⟩, hr⟩, hw⟩, _⟩, _⟩, hf⟩, hp⟩, hst⟩ := h
  refine ⟨⟨hs, hl, hr, hw⟩, ht, hf, ?_, hst⟩
  unfold loopStart
  cases hlp : cfg.loopPoint with
  | none => exact Nat.pos_of_ne_zero hf
  | some l => simpa [hlp] using hp

theorem State.Inv.engineOk {s : State} (h : s.Inv) : EngineOk s.cfg := engineOk_of_configOk h.cfg_ok

theorem State.Inv.playerInv {s : State} (h : s.Inv) : s.player.Inv s.cfg := ⟨h.chip_inv, h.eng_inv⟩

/-! ### Updates that keep the invariant -/

/-- An update of anything but the parameters, the player, the ring and the commands under way. -/
theorem State.Inv.of_same {s t : State} (h : s.Inv) (hc : t.cfg = s.cfg) (hp : t.player = s.player)
    (hr : t.ring = s.ring) (hb : ∀ a, (t.port a).busy = (s.port a).busy) : t.Inv where
  cfg_ok := by rw [hc]; exact h.cfg_ok
  chip_inv := by rw [hc]; show t.player.chip.Inv _; rw [hp]; exact h.chip_inv
  eng_inv := by rw [hc]; show t.player.eng.Inv _; rw [hp]; exact h.eng_inv
  ring_inv := by rw [hc, hr]; exact h.ring_inv
  prod_op := by rw [hb, hc, hr]; exact h.prod_op
  cons_op := by rw [hb, hr]; exact h.cons_op
  other_op := by rw [hb]; exact h.other_op

theorem State.Inv.setPlayer {s : State} (h : s.Inv) {p : Player} (hp : p.Inv s.cfg) : (s.setPlayer p).Inv where
  cfg_ok := h.cfg_ok
  chip_inv := hp.chip
  eng_inv := hp.eng
  ring_inv := h.ring_inv
  prod_op := h.prod_op
  cons_op := h.cons_op
  other_op := h.other_op

theorem State.Inv.setChip {s : State} (h : s.Inv) {c : ChipState} (hc : c.Inv s.cfg) : (s.setChip c).Inv :=
  h.setPlayer (p := { s.player with chip := c }) ⟨hc, h.eng_inv⟩

theorem State.Inv.setEng {s : State} (h : s.Inv) {e : EngineState} (he : e.Inv s.cfg) : (s.setEng e).Inv :=
  h.setPlayer (p := { s.player with eng := e }) ⟨h.chip_inv, he⟩

theorem State.Inv.deliver {s : State} (h : s.Inv) (a : Agent) (x : Answer) : (s.deliver a x).Inv :=
  h.of_same (by simp) (by simp) (by simp) fun b => by
    rw [State.port_deliver]; split
    · rename_i hb; subst hb; rfl
    · rfl

theorem State.Inv.setInput {s : State} (h : s.Inv) (a : Agent) (l : List Item) : (s.setInput a l).Inv :=
  h.of_same (by simp) (by simp) (by simp) fun b => by
    rw [State.port_setInput]; split
    · rename_i hb; subst hb; rfl
    · rfl

theorem State.Inv.setSched {s : State} (h : s.Inv) (l : List Agent) : (s.setSched l).Inv :=
  h.of_same rfl rfl rfl fun b => by simp

theorem State.Inv.setIssuer {s : State} (h : s.Inv) (a : Agent) : (s.setIssuer a).Inv :=
  h.of_same rfl rfl rfl fun b => by simp

theorem State.Inv.setDraws {s : State} (h : s.Inv) (n : Nat) : (s.setDraws n).Inv :=
  h.of_same rfl rfl rfl fun b => by simp

theorem State.Inv.setBusyProducer {s : State} (h : s.Inv) (op : Option RingOp)
    (ho : ∀ o, op = some o → producerOpInv s.cfg s.ring o) : (s.setBusy .producer op).Inv where
  cfg_ok := h.cfg_ok
  chip_inv := h.chip_inv
  eng_inv := h.eng_inv
  ring_inv := h.ring_inv
  prod_op := ho
  cons_op := h.cons_op
  other_op := h.other_op

theorem State.Inv.setBusyConsumer {s : State} (h : s.Inv) (op : Option RingOp)
    (ho : ∀ o, op = some o → consumerOpInv s.ring o) : (s.setBusy .consumer op).Inv where
  cfg_ok := h.cfg_ok
  chip_inv := h.chip_inv
  eng_inv := h.eng_inv
  ring_inv := h.ring_inv
  prod_op := h.prod_op
  cons_op := ho
  other_op := h.other_op

/-- Effects inside an unfinished FX_DECODE keep the player in its ranges; the decode's flags are free there. -/
theorem ByEffects.inv_decoding {cfg : Config} {p q : Player} (h : ByEffects cfg p q) (hq : q.eng.fxq ≠ none)
    (hp : p.Inv cfg) : q.Inv cfg where
  chip := h.chip.inv hp.chip
  eng :=
    { cursor_le := by rw [h.cursor]; exact hp.eng.cursor_le
      cursor_lt := by rw [h.cursor, h.state]; exact hp.eng.cursor_lt
      sif_lt := by rw [h.state, h.sif, h.flen]; exact hp.eng.sif_lt
      sif_zero := by rw [h.state, h.sif]; exact hp.eng.sif_zero
      flen_val := by rw [h.flen]; exact hp.eng.flen_val
      racc_lt := by rw [h.racc]; exact hp.eng.racc_lt
      slot_inv := h.slots hp.slots
      seen_none := fun e => absurd e hq }

theorem fxq_release (ch : Ch) (p : Player) : (release ch p).eng.fxq = p.eng.fxq := (release_keepsDecode ch p).fxq

theorem fxq_fxDigidrum (cfg : Config) (fch : BitVec 2) (id : Byte) (rate : BitVec 20) (p : Player) :
    (fxDigidrum cfg fch id rate p).eng.fxq = p.eng.fxq := by
  unfold fxDigidrum
  split
  · split
    · rfl
    · exact fxq_release _ _
  · rfl

theorem fxq_fxSid (fch : BitVec 2) (rate : BitVec 20) (p : Player) : (fxSid fch rate p).eng.fxq = p.eng.fxq := by
  unfold fxSid
  split
  · split
    · rfl
    · split
      · rfl
      · exact fxq_release _ _
  · rfl

theorem fxq_fxSyncbuzz (fch : BitVec 2) (rate : BitVec 20) (p : Player) :
    (fxSyncbuzz fch rate p).eng.fxq = p.eng.fxq := by
  unfold fxSyncbuzz
  split
  · split
    · rfl
    · split
      · rfl
      · exact fxq_release _ _
  · rfl

/-! ### One agent's commit and the other's command under way -/

/-- A write leaves what the consumer found: the samples can only have grown (47_ring_buffer.md R141, R143). -/
theorem consumerOpInv_commitWrite {cfg : Config} {g : RingState} (h : g.Inv cfg) (xs : List F32) {n : Nat}
    (hn : n ≤ availWrite g) {op : RingOp} (ho : consumerOpInv g op) : consumerOpInv (commitWrite xs n g) op := by
  have e := availRead_commitWrite h xs hn
  cases op with
  | read count m => exact ⟨ho.1, by rw [e]; exact ho.2.trans (Nat.le_add_right _ _)⟩
  | flush wa => exact ⟨ho.1, by rw [e]; exact ho.2.trans (Nat.le_add_right _ _)⟩
  | _ => exact ho

theorem availWrite_mono {g g' : RingState} (hc : g'.cap = g.cap) (ha : availRead g' ≤ availRead g) :
    availWrite g ≤ availWrite g' := by
  unfold availWrite; omega

/-- A read or a flush leaves what the producer found: the room can only have grown. -/
theorem producerOpInv_mono {cfg : Config} {g g' : RingState} (hc : g'.cap = g.cap)
    (ha : availRead g' ≤ availRead g) {op : RingOp} (ho : producerOpInv cfg g op) : producerOpInv cfg g' op := by
  have hw := availWrite_mono hc ha
  cases op with
  | write xs n => exact ⟨ho.1, ho.2.trans hw⟩
  | writeBlk rest n done sleeps => exact ⟨ho.1, ho.2.1.trans hw, ho.2.2⟩
  | asleep rest done sleeps => exact ho
  | stats p => exact ho
  | read count n => exact ho
  | flush wa => exact ho

theorem State.Inv.commitWrite {s : State} (h : s.Inv) (xs : List F32) {n : Nat} (hx : n ≤ xs.length)
    (hn : n ≤ availWrite s.ring) (op : Option RingOp)
    (ho : ∀ o, op = some o → producerOpInv s.cfg (commitWrite xs n s.ring) o) :
    ((s.setRing (Machine.commitWrite xs n s.ring)).setBusy .producer op).Inv where
  cfg_ok := h.cfg_ok
  chip_inv := h.chip_inv
  eng_inv := h.eng_inv
  ring_inv := inv_commitWrite h.ring_inv xs hx hn
  prod_op := ho
  cons_op := fun o hb => consumerOpInv_commitWrite h.ring_inv xs hn (h.cons_op o hb)
  other_op := h.other_op

theorem State.Inv.advanceRead {s : State} (h : s.Inv) (count : Nat) {n : Nat} (hn : n ≤ availRead s.ring) :
    ((s.setRing (Machine.advanceRead count n s.ring)).setBusy .consumer none).Inv where
  cfg_ok := h.cfg_ok
  chip_inv := h.chip_inv
  eng_inv := h.eng_inv
  ring_inv := inv_advanceRead h.ring_inv count hn
  prod_op := fun o hb => producerOpInv_mono (g := s.ring) (g' := Machine.advanceRead count n s.ring) rfl
    (by rw [availRead_advanceRead h.ring_inv count hn]; omega) (h.prod_op o hb)
  cons_op := fun o hb => by cases hb
  other_op := h.other_op

theorem availRead_commitFlush {cfg : Config} {g : RingState} (h : g.Inv cfg) {wa : Nat} (ha : wa < g.cap)
    (hle : cursorGap g.cap wa g.r ≤ availRead g) :
    availRead (commitFlush wa g) = availRead g - cursorGap g.cap wa g.r :=
  cursorGap_between h.w_lt h.r_lt ha hle

theorem State.Inv.commitFlush {s : State} (h : s.Inv) {wa : Nat} (ha : wa < s.ring.cap)
    (hle : cursorGap s.ring.cap wa s.ring.r ≤ availRead s.ring) :
    ((s.setRing (Machine.commitFlush wa s.ring)).setBusy .consumer none).Inv where
  cfg_ok := h.cfg_ok
  chip_inv := h.chip_inv
  eng_inv := h.eng_inv
  ring_inv := inv_commitFlush h.ring_inv ha hle
  prod_op := fun o hb => producerOpInv_mono (g := s.ring) (g' := Machine.commitFlush wa s.ring) rfl
    (by rw [availRead_commitFlush h.ring_inv ha hle]; omega) (h.prod_op o hb)
  cons_op := fun o hb => by cases hb
  other_op := h.other_op

/-! ### What the shared points can answer -/

theorem owned_next {s t : State} {o : Outcome} (h : owned s o = .next t) :
    s.issuer = .producer ∧ o = .next t := by
  unfold owned at h
  split at h
  · exact ⟨‹_›, h⟩
  · cases h

theorem inspected_next {s t : State} {o : Outcome} (h : inspected s o = .next t) : o = .next t := by
  unfold inspected at h
  split at h
  · exact h
  · cases h

theorem hasRole_next {role : Agent} {s t : State} {o : Outcome} (h : hasRole role s o = .next t) :
    s.issuer = role ∧ o = .next t := by
  unfold hasRole at h
  split at h
  · exact ⟨‹_›, h⟩
  · cases h

theorem hasEitherRole_next {s t : State} {o : Outcome} (h : hasEitherRole s o = .next t) : o = .next t := by
  unfold hasEitherRole at h
  split at h
  · exact h
  · cases h

/-- A command stops between two sub-steps or goes on, from the same state but for the schedule. -/
theorem carryOn_next {a : Agent} {s t : State} {k : State → Outcome} (h : carryOn a s k = .next t) :
    t = s ∨ ∃ l, k (s.setSched l) = .next t := by
  unfold carryOn at h
  split at h
  · rename_i hs
    refine Or.inr ⟨[], ?_⟩
    rw [show s.setSched [] = s by rw [← hs]; rfl]
    exact h
  · split at h
    · exact Or.inr ⟨_, h⟩
    · exact Or.inl (by cases h; rfl)

theorem owned_not_fault {s : State} {o : Outcome} {f : Fault} (h : owned s o = .fault f) : o = .fault f := by
  unfold owned at h
  split at h
  · exact h
  · cases h

/-! ### The ring's sub-steps -/

theorem inv_finishWrite {s t : State} (h : s.Inv) {xs : List F32} {n : Nat} (hx : n ≤ xs.length)
    (hn : n ≤ availWrite s.ring) (e : finishWrite xs n s = .next t) : t.Inv := by
  cases e
  exact (h.commitWrite xs hx hn none fun o ho => by cases ho).deliver _ _

theorem inv_finishWriteBlk {s t : State} (h : s.Inv) {rest : List F32} {n done sleeps : Nat}
    (hx : n ≤ rest.length) (hn : n ≤ availWrite s.ring) (hs : sleeps ≤ s.cfg.rbRetryLimit)
    (e : finishWriteBlk rest n done sleeps s = .next t) : t.Inv := by
  unfold finishWriteBlk at e
  dsimp only at e
  split at e
  · cases e
    exact (h.commitWrite rest hx hn none fun o ho => by cases ho).deliver _ _
  · rename_i hne
    cases e
    refine h.commitWrite rest hx hn _ fun o ho => ?_
    cases ho
    show sleeps + 1 ≤ s.cfg.rbRetryLimit
    push Not at hne
    omega

theorem fitting_le (g : RingState) (count : Nat) : fitting g count ≤ count ∧ fitting g count ≤ availWrite g :=
  ⟨Nat.min_le_left _ _, Nat.min_le_right _ _⟩

theorem inv_attemptWriteBlk {s t : State} (h : s.Inv) {rest : List F32} {done sleeps : Nat}
    (hs : sleeps ≤ s.cfg.rbRetryLimit) (e : attemptWriteBlk rest done sleeps s = .next t) : t.Inv := by
  have hf := fitting_le s.ring rest.length
  have hb : (s.setBusy .producer (some (.writeBlk rest (fitting s.ring rest.length) done sleeps))).Inv :=
    h.setBusyProducer _ fun o ho => by cases ho; exact ⟨hf.1, hf.2, hs⟩
  rcases carryOn_next e with rfl | ⟨l, e⟩
  · exact hb
  · exact inv_finishWriteBlk (hb.setSched l) hf.1 hf.2 hs e

theorem inv_finishRead {s t : State} (h : s.Inv) {count n : Nat} (hn : n ≤ availRead s.ring)
    (e : finishRead count n s = .next t) : t.Inv := by
  unfold finishRead at e
  split at e
  · cases e
    exact (h.advanceRead count hn).deliver _ _
  · cases e

theorem inv_finishFlush {s t : State} (h : s.Inv) {wa : Nat} (ha : wa < s.ring.cap)
    (hle : cursorGap s.ring.cap wa s.ring.r ≤ availRead s.ring) (e : finishFlush wa s = .next t) : t.Inv := by
  cases e
  exact h.commitFlush ha hle

theorem inv_finishStats {s t : State} (h : s.Inv) {p : BitVec 64} (e : finishStats p s = .next t) : t.Inv := by
  cases e
  exact (h.setBusyProducer none fun o ho => by cases ho).deliver _ _

/-- The read sub-step of a command under way meets written slots only (20_memory.md R45). -/
theorem finishRead_not_fault {s : State} (h : s.ring.Inv s.cfg) {count n : Nat} (hn : n ≤ availRead s.ring)
    (f : Fault) : finishRead count n s ≠ .fault f := by
  unfold finishRead
  rw [(readFrom_take h hn).1]
  exact fun e => by cases e

/-! ### Decoding yields commands -/

theorem ifZero_ok {z : Nat} {i j : Instr} {l rest : List Item} (h : ifZero z i l = .ok (j, rest)) :
    z = 0 ∧ j = i ∧ rest = l := by
  unfold ifZero at h
  split at h
  · cases h; exact ⟨‹_›, rfl, rfl⟩
  · cases h

theorem formatC_ok {w : Word} {u : Nat} {mk : Ch → Instr} {j : Instr} {l rest : List Item}
    (h : formatC w u mk l = .ok (j, rest)) :
    (field w 23 18 = 0 ∧ field w 15 8 = 0 ∧ u = 0) ∧ ∃ ch, chField w = some ch ∧ j = mk ch ∧ rest = l := by
  unfold formatC at h
  split at h
  · split at h
    · rename_i ch hch; cases h; exact ⟨‹_›, ch, hch, rfl, rfl⟩
    · cases h
  · cases h

theorem withBytes_ok {z : Nat} {j : Instr} {l rest : List Item} (h : withBytes z l = .ok (j, rest)) :
    z = 0 ∧ ∃ bs, takeBytes 16 l = some (bs, rest) ∧ j = .loadRegs (bytes16 bs) := by
  unfold withBytes at h
  split at h
  · split at h
    · rename_i bs rest' hb; cases h; exact ⟨‹_›, bs, hb, rfl⟩
    · cases h
  · cases h

theorem withSamples_ok {w : Word} {mk : List F32 → Instr} {j : Instr} {l rest : List Item}
    (h : withSamples w mk l = .ok (j, rest)) :
    ∃ xs, takeWords (field w 23 0) l = some (xs, rest) ∧ j = mk xs := by
  unfold withSamples at h
  split at h
  · rename_i xs rest' hx; cases h; exact ⟨xs, hx, rfl⟩
  · cases h

/-- An agent's input never decodes to an effect word (30_encoding.md R63). -/
theorem isEffect_of_decode {l rest : List Item} {i : Instr} (h : decode l = .ok (i, rest)) :
    i.isEffect = false := by
  unfold decode at h
  split at h
  · cases h
  · cases h
  · unfold decodeCommand at h
    split at h
    all_goals first
      | (obtain ⟨_, rfl, _⟩ := ifZero_ok h; rfl)
      | (obtain ⟨_, ch, _, rfl, _⟩ := formatC_ok h; rfl)
      | (obtain ⟨_, bs, _, rfl⟩ := withBytes_ok h; rfl)
      | (obtain ⟨xs, _, rfl⟩ := withSamples_ok h; rfl)
      | (cases h; rfl)
      | cases h

/-! ### What a step can do -/

/-- The state in which agent `a` moves: its turn is off the schedule and it is the issuer. -/
def State.turn (a : Agent) (s : State) : State := (s.setSched s.sched.tail).setIssuer a

/-- Everything that can make a step answer a next state: an effect word, the end of a decode, a command under way, a
new command, or nothing to do. -/
theorem step_next {s t : State} (h : step s = .next t) :
    (∃ w ws, s.eng.fxq = some (w :: ws) ∧
      exec (decodeEffect w) (s.setEng { s.eng with fxq := some ws }) = .next t) ∨
    (s.eng.fxq = some [] ∧ t = s.setPlayer (fxFinish s.player)) ∨
    (s.eng.fxq = none ∧ ∃ a op, nextAgent s = some a ∧ (s.port a).busy = some op ∧
      resumeOp op (s.turn a) = .next t) ∨
    (s.eng.fxq = none ∧ ∃ a i rest, nextAgent s = some a ∧ (s.port a).busy = none ∧
      decode (s.port a).input = .ok (i, rest) ∧ exec i ((s.turn a).setInput a rest) = .next t) ∨
    (s.eng.fxq = none ∧ ∃ l, t = s.setSched l) := by
  unfold step fetch at h
  cases hq : s.eng.fxq with
  | some l =>
    cases l with
    | nil => rw [hq] at h; cases h; exact Or.inr (Or.inl ⟨rfl, rfl⟩)
    | cons w ws => rw [hq] at h; exact Or.inl ⟨w, ws, rfl, h⟩
  | none =>
    rw [hq] at h
    refine Or.inr (Or.inr ?_)
    cases ha : nextAgent s with
    | none =>
      rw [ha] at h; cases h
      exact Or.inr (Or.inr ⟨rfl, s.sched, rfl⟩)
    | some a =>
      rw [ha] at h
      unfold fetchFor at h
      dsimp only at h
      rw [State.port_setSched] at h
      cases hb : (s.port a).busy with
      | some op => rw [hb] at h; exact Or.inl ⟨rfl, a, op, rfl, hb, h⟩
      | none =>
        rw [hb] at h
        cases hd : decode (s.port a).input with
        | ok r =>
          obtain ⟨i, rest⟩ := r
          rw [hd] at h
          refine Or.inr (Or.inl ⟨rfl, a, i, rest, rfl, hb, hd, ?_⟩)
          rw [← h]
          congr 1
          cases a <;> rfl
        | error e =>
          rw [hd] at h
          cases e <;> first | (cases h; exact Or.inr (Or.inr ⟨rfl, _, rfl⟩)) | cases h

end Sys2Proof.Machine
end

