-- ==== Sys2Proof/Tests/Slice0.lean ====
section
/-! SUPPORT. The model's own tests, and a witness for the hypotheses of every obligation that has some. Expected values
come from spec/95_test_vectors.md (named in each comment) or from hand calculation with the rules. -/

namespace Sys2Proof.Tests

open Sys2Proof.Machine

/-! ### Small states -/

/-- The registers of program P4's frames, with VOL `v` on A. -/
def p4Bytes (v : Byte) : Bytes16 := #v[1, 0, 0, 0, 0, 0, 0, 0x3E, v, 0, 0, 0, 0, 0xFF, 0, 0]

/-- The parameters of program P4 (one tick per CLOCK, two frames, no loop), with a drum bank and a ring of 4. -/
def p4 : Config :=
  { Config.default with
    masterClock := 80, sampleRate := 10, tickRate := 3, resetMode := .deterministic, rbRequestedSize := 4
    rbRetryLimit := 2
    frames := [⟨p4Bytes 0x0F, []⟩, ⟨p4Bytes 0x08, []⟩], drumBank := [[0x00, 0x80, 0xFF], []] }

/-- Program P5's parameters: three frames, looping from frame 1. -/
def p5 : Config :=
  { p4 with frames := [⟨p4Bytes 0x0F, []⟩, ⟨p4Bytes 0x08, []⟩, ⟨p4Bytes 0x04, []⟩], loopPoint := some 1 }

/-- The frame of vector X3: the envelope on A at EP 5, shape 0x0C, and a Buzz word at 2 Hz. -/
def x3Bytes : Bytes16 := #v[0, 0, 0, 0, 0, 0, 0, 0x3F, 0x10, 0, 0, 5, 0, 0x0C, 0, 0]

/-- The machine that boot builds for deterministic parameters. -/
def booted (cfg : Config) : State where
  cfg := cfg
  player :=
    { chip := constructChip cfg 0
      eng :=
        { state := .idle, cursor := 0, sif := 0, flen := 0, racc := 0, slot := PerCh.all .empty,
          seen := PerCh.all false, fxq := none } }
  ring := constructRing cfg
  prod := Port.idle
  cons := Port.idle
  other := Port.idle
  sched := []
  issuer := .producer
  draws := 0

/-- The state after one instruction; the state before when it does not complete. -/
def after (i : Instr) (s : State) : State :=
  match exec i s with
  | .next t => t
  | .fault _ | .refused _ => s

/-- The last answer an agent was given. -/
def lastAnswer (a : Agent) (s : State) : Option Answer := (s.port a).answers.getLast?

/-- The base state, and a second with three frames that loop. -/
def base : State := booted p4

def baseLoop : State := booted p5

/-- The base state with a slot and a chip prepared by hand. -/
def withSlot (x : Slot) : State := base.setPlayer (base.player.setSlot .B x)

/-- A ring of capacity 4 that holds three samples, and its consumer about to issue. -/
def fullRing : State := base.setRing (commitWrite [0x3F800000, 0x40000000, 0x40400000] 3 base.ring)

def asConsumer (s : State) : State := s.setIssuer .consumer

/-! ### WellFormed -/

theorem test_wf_refuses_long_write (xs : List F32) (h : xs.length = 2 ^ 24) :
    (Instr.rbWriteNb xs).wf = false ∧ (Instr.rbWriteBlk xs).wf = false := by
  unfold Instr.wf
  dsimp only
  rw [h]
  decide

/-- Such a payload exists. -/
theorem test_wf_ill_formed_write : (List.replicate (2 ^ 24) (0 : F32)).length = 2 ^ 24 := List.length_replicate

theorem test_wf_accepts_longest_write (xs : List F32) (h : xs.length = 2 ^ 24 - 1) : (Instr.rbWriteNb xs).wf = true := by
  unfold Instr.wf
  dsimp only
  rw [h]
  decide

/-! ### Decoding: the words of 95_test_vectors.md 2.1 -/

/-- What an input decodes to. -/
def dec (l : List Item) : Option (Instr × List Item) := (decode l).toOption

theorem test_decode_chip_words :
    dec [.word 0x0100073E] = some (.writeReg 7 0x3E, []) ∧
    dec [.word 0x01000D0D] = some (.writeReg 13 0x0D, []) ∧
    dec [.word 0x02000D00] = some (.readReg 13, []) ∧
    dec [.word 0x04000000] = some (.dumpRegs, []) ∧
    dec [.word 0x05000000] = some (.clock, []) ∧
    dec [.word 0x06000000] = some (.getSample, []) ∧
    dec [.word 0x07000028] = some (.chipGenerate 40, []) ∧
    dec [.word 0x08000000] = some (.reset .randomized, []) ∧
    dec [.word 0x08000001] = some (.reset .deterministic, []) ∧
    dec [.word 0x09000000] = some (.triggerEnv, []) := by decide

theorem test_decode_hook_words :
    dec [.word 0x0A010002] = some (.setMixerOvr .B true false, []) ∧
    dec [.word 0x0B020000] = some (.clrMixerOvr .C, []) ∧
    dec [.word 0x0C010080] = some (.setDrumOvr .B 0x80, []) ∧
    dec [.word 0x0D010000] = some (.clrDrumOvr .B, []) ∧
    dec [.word 0x0E020001] = some (.setMute .C true, []) := by decide

theorem test_decode_engine_words :
    dec [.word 0x10000000] = some (.pbPlay, []) ∧
    dec [.word 0x11000000] = some (.pbPause, []) ∧
    dec [.word 0x12000000] = some (.pbStop, []) ∧
    dec [.word 0x13FFFFFF] = some (.pbGenerate 16777215, []) ∧
    dec [.word 0x14000000] = some (.pbPosition, []) ∧
    dec [.word 0x15000019] = some (.pbSeek 25, []) ∧
    dec [.word 0x16000001] = some (.pbSetMute .A true, []) ∧
    dec [.word 0x17000000] = some (.pbState, []) := by decide

theorem test_decode_ring_words :
    dec [.word 0x20000002, .word 0x3F800000, .word 0x40000000] = some (.rbWriteNb [0x3F800000, 0x40000000], []) ∧
    dec [.word 0x21000001, .word 0x3F800000, .byte 7] = some (.rbWriteBlk [0x3F800000], [.byte 7]) ∧
    dec [.word 0x22000005] = some (.rbRead 5, []) ∧
    dec [.word 0x23000000] = some (.rbAvailWrite, []) ∧
    dec [.word 0x24000000] = some (.rbAvailRead, []) ∧
    dec [.word 0x25000000] = some (.rbFillPct, []) ∧
    dec [.word 0x26000000] = some (.rbFlush, []) ∧
    dec [.word 0x27000000] = some (.rbStats, []) := by decide

/-- LOAD_REGS with the payload of program P2. -/
theorem test_decode_load_regs :
    dec (.word 0x03000000 ::
        [0, 0, 0, 0, 0, 0, 1, 0x37, 0x10, 0, 0, 1, 0, 0x0D, 0, 0x7F].map Item.byte) =
      some (.loadRegs #v[0, 0, 0, 0, 0, 0, 1, 0x37, 0x10, 0, 0, 1, 0, 0x0D, 0, 0x7F], []) := by decide

theorem test_decode_effect_words :
    decodeEffect 0x900001B8 = .fxSid 1 0 440 ∧ decodeEffect 0x4050000A = .fxDigidrum 0 5 10 ∧
    decodeEffect 0x5000000A = .fxDigidrum 1 0 10 ∧ decodeEffect 0xC0000002 = .fxSyncbuzz 0 0 2 ∧
    decodeEffect 0xB0000005 = .fxSid 3 0 5 ∧ decodeEffect 0x00000000 = .fxNop 0 0 0 := by decide

/-- The refused words of 95_test_vectors.md 2.1. -/
theorem test_decode_refuses :
    [0x00000000, 0x0F000000, 0x18000000, 0x28000000, 0xFF000000, 0x05000001, 0x02000D01, 0x08000002, 0x0A030003,
      0x0A000004, 0x0E000002, 0x0100F000].map (fun w => dec [.word w]) = List.replicate 12 none := by decide

/-- A bare table word runs as the first instruction after reset (log 12). -/
theorem test_fetch_word_runs_effect :
    decodeTableWord 32 0x0B020000 = some (.clrMixerOvr .C) ∧ decodeTableWord 32 0x900001B8 = some (.fxSid 1 0 440) := by
  decide

/-! ### Chip commands -/

/-- Vector T6. -/
theorem test_write_reg_masks_high_byte :
    tonePeriod (after (.writeReg 1 0xAB) (after (.writeReg 0 0x34) base)).chip.reg .A = 2868 := by decide

/-- Vector EV4. -/
theorem test_write_reg_13_restarts :
    let c := (after (.writeReg 13 0xFF) (base.setChip { base.chip with estep := 9, ecnt := 3, ehold := true })).chip
    regAt c.reg 13 = 0x0F ∧ c.estep = 0 ∧ c.ecnt = 0 ∧ c.eup = true ∧ c.ehold = false := by decide

/-- Program P3, steps 8 and 9. -/
theorem test_read_reg_masked :
    lastAnswer .producer (after (.readReg 6) (after (.writeReg 6 0xFF) base)) = some (.byte 0x1F) := by decide

/-- Program P2, step 2. -/
theorem test_load_regs :
    let c := (after (.loadRegs #v[0, 0, 0, 0, 0, 0, 1, 0x37, 0x10, 0, 0, 1, 0, 0x0D, 0, 0]) base).chip
    c.eup = true ∧ c.estep = 0 ∧ regAt c.reg 7 = 0x37 ∧ regAt c.reg 13 = 0x0D := by decide

theorem test_dump_regs :
    lastAnswer .producer (after .dumpRegs (after (.writeReg 15 0x5A) base)) =
      some (.bytes #v[0, 0, 0, 0, 0, 0, 0, 0, 0, 0, 0, 0, 0, 0, 0, 0x5A]) := by decide

/-- Vector DC1 at n = 1: a mix of 65535 gives 511/1536. -/
theorem test_clock_first_sample :
    (after .clock (base.setChip { base.chip with reg := p4Bytes 0x0F, tout := ⟨false, false, false⟩ })).chip.sample =
      0x3EAA5555 := by decide +kernel

/-- Vector DC4. -/
theorem test_get_sample_after_reset :
    lastAnswer .producer (after .getSample (after (.reset .deterministic) base)) = some (.sample 0) := by decide +kernel

/-- Program P2, step 3 at the P2 rate of one tick per CLOCK. -/
theorem test_chip_generate :
    lastAnswer .producer
        (after (.chipGenerate 3)
          (base.setChip (loadRegs #v[0, 0, 0, 0, 0, 0, 1, 0x37, 0x10, 0, 0, 1, 0, 0x0D, 0, 0] base.chip))) =
      some (.samples [0x3AF585F6, 0xB67600F6, 0xB67600F6]) := by decide +kernel

/-- R107: the deterministic phases. -/
theorem test_reset_deterministic :
    let c := (after (.reset .deterministic) (base.setChip { base.chip with ncnt := 5, lfsr := 77, sub := 3 })).chip
    c.ncnt = 0 ∧ c.lfsr = 1 ∧ c.sub = 0 ∧ c.tcnt = PerCh.all 0 := by decide +kernel

/-- Vector EV3. -/
theorem test_trigger_env_restarts :
    let c := (after .triggerEnv (base.setChip { writeReg 13 0x08 base.chip with estep := 17 })).chip
    c.estep = 0 ∧ envLevel c = 31 := by decide

/-- Vector M4. -/
theorem test_mixer_override :
    gate (after (.setMixerOvr .A true true) base).chip .A = true ∧
    gate (after (.setMixerOvr .A true false) base).chip .A = false ∧
    gate (after (.setMixerOvr .A false true) base).chip .A = false := by decide

theorem test_clear_mixer_override :
    (after (.clrMixerOvr .A) (base.setChip (setMixerOvr .C true true (setMixerOvr .A true true base.chip)))).chip.ovr =
      ⟨none, none, some ⟨true, true⟩⟩ := by decide

/-- Vector M5. -/
theorem test_drum_override : levelCode p4 (after (.setDrumOvr .B 0x80) base).chip .B = 32896 := by decide

theorem test_clear_drum_override :
    (after (.clrDrumOvr .B) (base.setChip (setDrumOvr .B 7 (setDrumOvr .A 7 base.chip)))).chip.drum =
      ⟨some 7, none, none⟩ := by decide

/-- Vector M6. -/
theorem test_mute_over_drum :
    levelCode p4 (after (.setMute .C true) (base.setChip (setDrumOvr .C 0xFF base.chip))).chip .C = 0 := by decide

/-! ### Generators -/

/-- Vector T2 at ticks 3 and 6. -/
theorem test_tone_period_3 :
    let c := writeReg 0 3 base.chip
    (ticks p4 3 c).tout.a = true ∧ (ticks p4 5 c).tout.a = true ∧ (ticks p4 6 c).tout.a = false := by decide +kernel

/-- Vector T4: the counter is kept over a period change and the compare is `>=`. -/
theorem test_tone_period_shrinks :
    let c := tick p4 (writeReg 0 3 (ticks p4 5 (writeReg 0 10 base.chip)))
    c.tcnt.a = 0 ∧ c.tout.a = true := by decide +kernel

/-- Vector N1. -/
theorem test_lfsr_sequence :
    (List.range 20).map (fun n => lfsrShift^[n + 1] 1) =
      [0x10000, 0x08000, 0x04000, 0x02000, 0x01000, 0x00800, 0x00400, 0x00200, 0x00100, 0x00080,
       0x00040, 0x00020, 0x00010, 0x00008, 0x10004, 0x08002, 0x04001, 0x12000, 0x09000, 0x04800] := by decide +kernel

/-- Vector N3 at the first shift. -/
theorem test_noise_rate :
    (ticks p4 9 (writeReg 6 5 base.chip)).lfsr = 1 ∧ (ticks p4 10 (writeReg 6 5 base.chip)).lfsr = 0x10000 := by
  decide +kernel

/-- Vector EV2. -/
theorem test_envelope_period :
    let c := ticks p4 7 (writeReg 13 0x0D (writeReg 11 3 base.chip))
    c.ecnt = 1 ∧ c.estep = 2 := by decide +kernel

/-- Vector M3. -/
theorem test_level_indices :
    [0, 1, 8, 15].map (fun v => (levelIndex (writeReg 8 v base.chip) .A).toNat) = [0, 3, 17, 31] := by decide

/-! ### Engine commands -/

/-- Program P4, step 1: R13 is skipped, flen = 3, racc = 1. -/
theorem test_play :
    let s := after .pbPlay base
    s.eng.state = .playing ∧ s.eng.flen = 3 ∧ s.eng.racc = 1 ∧ regAt s.chip.reg 8 = 0x0F ∧ regAt s.chip.reg 13 = 0 := by
  decide +kernel

/-- Vector FS7. -/
theorem test_pause_stop :
    (after .pbPause base).eng.state = .idle ∧ (after .pbPause (after .pbPlay base)).eng.state = .paused ∧
    (after .pbStop (after .pbPlay base)).eng.state = .idle := by decide +kernel

/-- Program P4, step 2: six samples, then +0.0. -/
theorem test_generate_p4 :
    lastAnswer .producer (after (.pbGenerate 8) (after .pbPlay base)) =
      some (.samples [0x3EAA5555, 0xBA2AAAAB, 0x3EAA0000, 0xBAAAAAAB, 0x3CE83C98, 0xBAB245B2, 0, 0]) := by
  decide +kernel

/-- Program P5 at its fourth sample: `(cursor, sif, flen, racc)`. -/
theorem test_generate_p5 :
    let e := (after (.pbGenerate 10) (after .pbPlay baseLoop)).eng
    (e.cursor, e.sif, e.flen, e.racc) = (1, 0, 3, 1) := by decide +kernel

/-- Vector FS3: F = 3 with cursor 2. -/
theorem test_position :
    lastAnswer .producer (after .pbPosition (baseLoop.setEng { baseLoop.eng with cursor := 2 })) =
      some (.sample 0x3F2AAAAB) := by decide +kernel

/-- Vector FS4: the target is clamped, and Paused is kept. -/
theorem test_seek :
    (after (.pbSeek 25) baseLoop).eng.cursor = 2 ∧
    (after (.pbSeek 1) (baseLoop.setEng { baseLoop.eng with state := .paused, flen := 3 })).eng.state = .paused := by
  decide +kernel

theorem test_engine_mute : (after (.pbSetMute .A true) base).chip.mute = ⟨true, false, false⟩ := by decide

theorem test_state_codes :
    [PbState.idle, .playing, .paused, .finished].map
        (fun x => lastAnswer .producer (after .pbState (base.setEng { base.eng with state := x }))) =
      [some (.byte 0), some (.byte 1), some (.byte 2), some (.byte 3)] := by decide

/-! ### Effect words -/

/-- 95_test_vectors.md 2.1: a Sid on B. -/
theorem test_fx_sid :
    let s := after (.fxSid 1 0 440) base
    s.eng.slot.b = .sid true 0 440 ∧ s.chip.ovr.b = some ⟨true, true⟩ := by decide

theorem test_fx_sid_ignored : after (.fxSid 3 0 5) base = base ∧ after (.fxSid 0 0 0) base = base := by decide +kernel

theorem test_fx_digidrum :
    let s := after (.fxDigidrum 1 0 10) base
    s.eng.slot.b = .drum 0 0 0 10 ∧ s.chip.drum.b = some 0x00 := by decide

/-- An id without an entry, and one with an empty entry. -/
theorem test_fx_digidrum_ignored :
    after (.fxDigidrum 0 5 10) base = base ∧ after (.fxDigidrum 0 1 10) base = base := by decide +kernel

theorem test_fx_syncbuzz :
    let s := after (.fxSyncbuzz 0 0 2) (base.setChip { writeReg 13 0x0C base.chip with estep := 9 })
    s.eng.slot.a = .buzz 0 2 ∧ s.chip.ovr.a = some ⟨true, true⟩ ∧ s.chip.estep = 0 ∧ s.chip.eup = true := by decide

theorem test_fx_nop : after (.fxNop 1 2 3) base = base := by decide +kernel

/-- Vector X4: the later word wins. -/
theorem test_fx_replacement :
    (fxDecode p4 [0x80000005, 0xC0000002] base.player).eng.slot.a = .buzz 0 2 := by decide

/-- Vector X3: at SAMPLE_RATE 10 and RATE 2 the accumulator passes the rate at the fifth sample. -/
theorem test_buzz_event :
    let p := (base.player.onChip fun c => { writeReg 13 0x0C c with estep := 1 }).setSlot .A (.buzz 8 2)
    (fxAdvance p4 p).chip.estep = 0 ∧ (fxAdvance p4 p).eng.slot.a = .buzz 0 2 := by decide

/-- Program P7 after its third sample: the drum is exhausted and released. -/
theorem test_drum_released :
    let p := (base.player.onChip (setDrumOvr .B 0xFF)).setSlot .B (.drum 0 2 0 10)
    (fxAdvance p4 p).eng.slot.b = .empty ∧ (fxAdvance p4 p).chip.drum.b = none := by decide

/-! ### Ring commands -/

/-- Program P6, step 1: one slot stays empty. -/
theorem test_ring_write :
    let s := after (.rbWriteNb [0x3F800000, 0x40000000, 0x40400000, 0x40800000]) base
    s.ring.w = 3 ∧ lastAnswer .producer s = some (.nat 3) ∧
    s.ring.buf = [(0, 0x3F800000), (1, 0x40000000), (2, 0x40400000)] := by decide

/-- Vector RB3: the write wraps. -/
theorem test_ring_write_wraps :
    let s := after (.rbWriteNb [0x40E00000, 0x41000000, 0x41100000])
      (base.setRing { base.ring with w := 3, r := 3, buf := [(0, 1), (1, 2), (2, 3)] })
    s.ring.w = 2 ∧ s.ring.buf = [(0, 0x41000000), (1, 0x41100000), (2, 3), (3, 0x40E00000)] := by decide

/-- Vector RB5: a full ring puts the writer to sleep, and with no retries it answers 0. -/
theorem test_ring_write_blocking :
    ((after (.rbWriteBlk [1]) fullRing).port .producer).busy = some (.asleep [1] 0 1) ∧
    lastAnswer .producer (after (.rbWriteBlk [1]) { fullRing with cfg := { p4 with rbRetryLimit := 0 } }) =
      some (.nat 0) := by decide

/-- Program P6, step 3. -/
theorem test_ring_read :
    let s := after (.rbRead 2) (asConsumer fullRing)
    lastAnswer .consumer s = some (.read 2 [0x3F800000, 0x40000000]) ∧ s.ring.r = 2 ∧ s.ring.under = 0 := by decide

/-- Program P6, step 5: a short read counts one underrun. -/
theorem test_ring_read_short :
    let s := after (.rbRead 5) (asConsumer fullRing)
    s.ring.under = 1 ∧ s.ring.played = 3 ∧ s.ring.r = 3 := by decide

theorem test_ring_counts :
    lastAnswer .producer (after .rbAvailWrite fullRing) = some (.nat 0) ∧
    lastAnswer .consumer (after .rbAvailRead (asConsumer fullRing)) = some (.nat 3) := by decide

/-- Program P6, steps 2 and 4. -/
theorem test_ring_fill :
    lastAnswer .producer (after .rbFillPct fullRing) = some (.sample 0x42C80000) ∧
    lastAnswer .producer (after .rbFillPct (fullRing.setRing { fullRing.ring with r := 2 })) =
      some (.sample 0x42055555) := by decide +kernel

/-- Program P6, step 10: the read cursor alone moves. -/
theorem test_ring_flush :
    (after .rbFlush (asConsumer fullRing)).ring = { fullRing.ring with r := 3 } := by decide

theorem test_ring_stats :
    lastAnswer .consumer (after .rbStats (asConsumer (base.setRing { base.ring with played := 3, under := 2 }))) =
      some (.stats 3 2) := by decide

/-! ### The small states are in range -/

/-- The parameters of P4 and P5 are in range. -/
theorem witness_configOk : configOk p4 = true ∧ configOk p5 = true := by decide +kernel

theorem small_inv {cfg : Config} (h : cfg = p4 ∨ cfg = p5) : (booted cfg).Inv := by
  have hc : configOk cfg = true := by rcases h with rfl | rfl; exacts [witness_configOk.1, witness_configOk.2]
  have hk := engineOk_of_configOk hc
  have ha : availRead (booted cfg).ring = 0 := by rcases h with rfl | rfl <;> rfl
  have hcap : 0 < (booted cfg).ring.cap := by rcases h with rfl | rfl <;> decide
  exact
    { cfg_ok := hc
      chip_inv := inv_resetChip hk.chip _ _
      eng_inv :=
        { cursor_le := Nat.zero_le _
          cursor_lt := fun _ => Nat.pos_of_ne_zero hk.frames
          sif_lt := fun h => by rcases h with h | h <;> cases h
          sif_zero := fun _ => rfl
          flen_val := Or.inl rfl
          racc_lt := hk.tick_pos
          slot_inv := fun ch => by cases ch <;> trivial
          seen_none := fun _ => rfl }
      ring_inv :=
        { cap_eq := rfl
          w_lt := hcap
          r_lt := hcap
          buf_wf := rfl
          buf_lt := by intro p hp; cases hp
          filled := by rw [ha]; intro i hi; omega }
      prod_op := by intro op h; cases h
      cons_op := by intro op h; cases h
      other_op := rfl }

theorem base_inv : base.Inv := small_inv (.inl rfl)

theorem baseLoop_inv : baseLoop.Inv := small_inv (.inr rfl)

/-- Playing, with P4's and P5's parameters. -/
def playing : State := base.setPlayer (play p4 base.player)

def playingLoop : State := baseLoop.setPlayer (play p5 baseLoop.player)

theorem playing_inv : playing.Inv := base_inv.setPlayer (inv_play base_inv.engineOk base_inv.playerInv)

theorem playingLoop_inv : playingLoop.Inv := baseLoop_inv.setPlayer (inv_play baseLoop_inv.engineOk baseLoop_inv.playerInv)

/-- The end of the song: Finished at cursor F. -/
def finished : State := base.setEng { base.eng with state := .finished, cursor := 2 }

theorem finished_inv : finished.Inv :=
  base_inv.setEng
    { cursor_le := le_rfl
      cursor_lt := fun h => absurd rfl h
      sif_lt := fun h => by rcases h with h | h <;> cases h
      sif_zero := fun _ => rfl
      flen_val := Or.inl rfl
      racc_lt := by decide
      slot_inv := fun ch => by cases ch <;> trivial
      seen_none := fun _ => rfl }

theorem fullRing_inv : fullRing.Inv :=
  base_inv.commitWrite [0x3F800000, 0x40000000, 0x40400000] (n := 3) (by decide) (by decide) none (fun _ h => by cases h)

/-- The producer asleep in RB_WRITE_BLK, with turns enough for its retries. -/
def sleeping (m : Nat) : State :=
  (fullRing.setBusy .producer (some (.asleep [1] 0 1))).setSched (List.replicate (2 * (p4.rbRetryLimit + 1) + m) .producer)

theorem sleeping_inv (m : Nat) : (sleeping m).Inv :=
  (fullRing_inv.setBusyProducer _ fun op h => by
    cases h
    show 1 ≤ p4.rbRetryLimit
    decide).setSched _

/-! ### Witnesses: a state and operands that meet an obligation's hypotheses -/

theorem witness_ReservedCommandSpace :
    formatZeros 0x01 = some 0x00FFF000 ∧ (0x01000FFF : Word) &&& 0x00FFF000 = 0 ∧ (0x01001000 : Word) &&& 0x00FFF000 ≠ 0 ∧
    payloadPresent 0x20 1 [.word 7] ∧ payloadPresent 0x20 0 [] :=
  ⟨rfl, by decide, by decide, ⟨[7], [], rfl, rfl⟩, ⟨[], [], rfl, rfl⟩⟩

theorem witness_CommandRoundTrip_encode :
    (Instr.rbWriteNb []).wf = true ∧ (Instr.rbWriteNb []).isEffect = false ∧
    (Instr.writeReg 15 0xFF).wf = true ∧ (Instr.writeReg 15 0xFF).isEffect = false := by decide

theorem witness_CommandRoundTrip_decode :
    decode [.word 0x13FFFFFF, .byte 1] = .ok (.pbGenerate 16777215, [.byte 1]) := rfl

theorem witness_EffectWordRoundTrip : (Instr.fxSyncbuzz 3 255 0xFFFFF).isEffect = true ∧ (Instr.fxNop 0 0 0).isEffect = true := by
  decide

/-- A schedule, an empty schedule with a ready producer, and a machine with nothing to do. -/
theorem witness_StepRunsDecodedInstruction_turns :
    (base.setSched [.consumer]).sched = .consumer :: [] ∧
    (base.setInput .producer [.word 0x05000000]).sched = [] ∧
    ((base.setInput .producer [.word 0x05000000]).port .producer).ready = true ∧
    base.eng.fxq = none ∧ nextAgent base = none := by decide

theorem witness_StepRunsDecodedInstruction_decode_under_way :
    (base.setEng { base.eng with fxq := some [0x900001B8] }).eng.fxq = some (0x900001B8 :: []) ∧
    (base.setEng { base.eng with fxq := some [] }).eng.fxq = some [] := by decide

theorem witness_StepRunsDecodedInstruction_command :
    let s := base.setInput .producer [.word 0x05000000]
    s.eng.fxq = none ∧ nextAgent s = some .producer ∧ (s.port .producer).busy = none ∧
      decode (s.port .producer).input = .ok (.clock, []) := ⟨rfl, rfl, rfl, rfl⟩

theorem witness_StepRunsDecodedInstruction_resume :
    let s := sleeping 0
    s.eng.fxq = none ∧ nextAgent s = some .producer ∧ (s.port .producer).busy = some (.asleep [1] 0 1) := ⟨rfl, rfl, rfl⟩

theorem witness_StepRunsDecodedInstruction_idle_and_refused :
    (let s := base.setSched [.other]
     s.eng.fxq = none ∧ nextAgent s = some .other ∧ (s.port .other).busy = none ∧ (s.port .other).input = []) ∧
    (let s := base.setInput .producer [.word 0x05000001]
     s.eng.fxq = none ∧ nextAgent s = some .producer ∧ (s.port .producer).busy = none ∧
       decode (s.port .producer).input = .error .reservedField ∧ DecodeError.reservedField ≠ .noWord) :=
  ⟨⟨rfl, rfl, rfl, rfl⟩, rfl, rfl, rfl, rfl, by decide⟩

theorem witness_BootEstablishesInvariant : configOk p4 = true := witness_configOk.1

/-- One parameter choice for each clause: no frames; a loop point at F; just below F with the rates equal; a rate one
too low. -/
theorem witness_EngineConstruction :
    ({ p4 with frames := [] } : Config).frames = [] ∧
    (p4.frames ≠ [] ∧ ({ p4 with loopPoint := some 2 } : Config).loopPoint = some 2 ∧ p4.frames.length ≤ 2) ∧
    (∀ l, ({ p4 with loopPoint := some 1, tickRate := 10 } : Config).loopPoint = some l → l < p4.frames.length) ∧
    (10 : Nat) ≤ p4.sampleRate ∧ p4.sampleRate < 11 ∧ p4.loopPoint = none ∧ p4.loopEnabledGiven = none ∧
    ({ p4 with loopEnabledGiven := some false } : Config).loopEnabledGiven = some false := by
  refine ⟨rfl, ⟨by decide, rfl, by decide⟩, ?_, by decide, by decide, rfl, rfl, rfl⟩
  intro l h
  cases h
  decide

theorem witness_RingConstruction : max p4.rbRequestedSize 2 ≤ 2 ^ 2 := by decide

/-- The producer issues, in a state in range: the premise of the chip and engine statements. -/
theorem witness_producer : base.Inv ∧ base.issuer = .producer := ⟨base_inv, rfl⟩

theorem witness_ResetCommand : base.issuer = .producer := rfl

theorem witness_ResetSilence : base.Inv ∧ base.issuer = .producer := witness_producer

theorem witness_WriteRegister :
    base.issuer = .producer ∧ (13 : RegNum) = 13 ∧ (12 : RegNum) ≠ 13 ∧ (14 : RegNum) ≠ 13 := by decide

theorem witness_LoadRegisters : base.issuer = .producer := rfl

/-- For each clause an instruction outside its list that completes. -/
theorem witness_OnlyNamedWriters :
    exec .clock base = .next (after .clock base) ∧ Instr.clock.writesRegs = false ∧ Instr.clock.writesMutes = false ∧
    exec .pbPlay base = .next (after .pbPlay base) ∧ Instr.pbPlay.clocksChip = false ∧
    Instr.clock.writesOvr = false ∧ Instr.clock.writesDrum = false ∧
    exec (.writeReg 12 9) base = .next (after (.writeReg 12 9) base) ∧ (Instr.writeReg 12 9).writesEnv = false :=
  ⟨rfl, rfl, rfl, rfl, rfl, rfl, rfl, rfl, rfl⟩

theorem witness_PeriodWrites : base.issuer = .producer ∧ (0 : Nat) ≤ 4095 ∧ (4095 : Nat) ≤ 4095 ∧ (65535 : Nat) ≤ 65535 := by
  decide

theorem witness_HookCommands : base.issuer = .producer := rfl

theorem witness_TriggerEnvelope : base.issuer = .producer := rfl

/-- The owner, and a synced agent while no command of the owner is under way. -/
theorem witness_ChipReads :
    base.allows .reader ∧ ((base.setPort .other { Port.idle with synced := true }).setIssuer .other).allows .reader :=
  ⟨.inl rfl, .inr ⟨rfl, rfl⟩⟩

/-- Every access is held by someone, and every one but the decode's is lacked by someone. -/
theorem witness_EveryInstructionCompletes :
    base.Inv ∧ base.allows .owner ∧ base.allows .reader ∧ base.allows .producer ∧ base.allows .eitherRole ∧
    base.allows .decode ∧ (asConsumer base).Inv ∧ (asConsumer base).allows .consumer :=
  ⟨base_inv, rfl, .inl rfl, rfl, .inl rfl, trivial, base_inv.setIssuer _, rfl⟩

theorem witness_RefusedExactlyWithoutAccess :
    ¬ (asConsumer base).allows .owner ∧ ¬ (asConsumer base).allows .reader ∧ ¬ base.allows .consumer := by
  refine ⟨fun h => ?_, ?_, fun h => ?_⟩
  · cases h
  · rintro (h | ⟨h, _⟩) <;> cases h
  · cases h

/-- From 0, and a tick before the first toggle; the period at its ends. -/
theorem witness_ToneCycle :
    base.chip.tcnt.get .A = 0 ∧ 0 < max (tonePeriodEff base.chip.reg .A - (base.chip.tcnt.get .A).toNat) 1 ∧
    tonePeriodEff base.chip.reg .A = 1 ∧
    tonePeriodEff (writeReg 1 0xFF (writeReg 0 0xFF base.chip)).reg .A = 4095 := by decide

/-- Two chips that differ outside channel A. -/
theorem witness_TickOrderIrrelevant :
    let c := base.chip
    let d := writeReg 2 9 { base.chip with ncnt := 3 }
    c ≠ d ∧ c.tcnt.get .A = d.tcnt.get .A ∧ c.tout.get .A = d.tout.get .A ∧
      regAt c.reg (toneLoReg .A) = regAt d.reg (toneLoReg .A) ∧ regAt c.reg (toneHiReg .A) = regAt d.reg (toneHiReg .A) := by
  decide +kernel

theorem witness_NoiseRate :
    (p4.noisePrescale = 1 ∨ p4.noisePrescale = 2) ∧ base.chip.ncnt = 0 ∧ base.chip.lfsr ≠ 0 ∧
    (let c := { base.chip with ncnt := 63 }
     c.lfsr ≠ 0 ∧ max (p4.noisePrescale * noisePeriodEff c.reg - c.ncnt.toNat) 1 = 1) ∧
    (let c := { writeReg 6 31 base.chip with ncnt := 1 }
     c.lfsr ≠ 0 ∧ 28 < max (p4.noisePrescale * noisePeriodEff c.reg - c.ncnt.toNat) 1) ∧
    (let c := { base.chip with lfsr := 0, ncnt := 63 }
     c.lfsr = 0 ∧ p4.noisePrescale * noisePeriodEff c.reg ≤ c.ncnt.toNat + 1) := by decide

theorem witness_LfsrMaximalPeriod : 15 < 16 ∧ (1 : BitVec 17) ≠ 0 := by decide

/-- A counter at 0, one short of the longest period and one past its period. -/
theorem witness_EnvelopeRate :
    base.chip.ecnt = 0 ∧
    (let c := writeReg 11 0xFF (writeReg 12 0xFF base.chip)
     65534 < max (envPeriodEff c.reg - c.ecnt.toNat) 1) ∧
    (let c := { base.chip with ecnt := 9 }
     max (envPeriodEff c.reg - c.ecnt.toNat) 1 = 1) := by decide

/-- Each branch of the level index and of the level code is met by some chip. -/
theorem witness_MixerLevels :
    (regAt (writeReg 8 0x10 base.chip).reg (volReg .A)).getLsbD 4 = true ∧
    (regAt base.chip.reg (volReg .A)).getLsbD 4 = false ∧ (regAt base.chip.reg (volReg .A)).toNat % 16 = 0 ∧
    (regAt (writeReg 8 0x0F base.chip).reg (volReg .A)).toNat % 16 ≠ 0 ∧
    (setMixerOvr .A true false base.chip).ovr.get .A = some ⟨true, false⟩ ∧ base.chip.ovr.get .A = none ∧
    (setMute .A true base.chip).mute.get .A = true ∧ base.chip.mute.get .A = false ∧
    (setDrumOvr .A 0xFF base.chip).drum.get .A = some 0xFF ∧ base.chip.drum.get .A = none ∧
    levelTableOk p4.levelTable = true := by decide +kernel

theorem witness_DcWindow :
    1 ≤ p4.dcWindow ∧ base.chip.dcbuf = List.replicate p4.dcWindow 0 ∧ base.chip.dcsum = 0 ∧ base.chip.dcpos = 0 :=
  ⟨by decide, rfl, rfl, rfl⟩

theorem witness_OutputRange : base.Inv ∧ base.issuer = .producer := witness_producer

/-- Both ends of the range and its middle. -/
theorem witness_F32RoundsToNearestEven :
    (0 < 1 ∧ (100 : Int).natAbs ≤ 100 * 1) ∧ (-100 : Int).natAbs ≤ 100 * 1 ∧ (0 : Int).natAbs ≤ 100 * 1 ∧
    f32Finite 0x7F7FFFFF ∧ f32Finite 0 := by
  unfold f32Finite
  decide

theorem witness_SubClockConverter :
    0 < p4.sampleRate ∧ base.chip.sub = 0 ∧ (79 : Nat) < 8 * p4.sampleRate ∧ p4.masterClock % 8 = 0 := by decide

theorem witness_ClockCommand : base.issuer = .producer := rfl

theorem witness_ChipGenerate : base.issuer = .producer := rfl

theorem witness_FrameLengths : 0 < p4.tickRate ∧ p4.tickRate ≤ p4.sampleRate ∧ base.eng.racc = 0 := by decide

/-- A frame of the song, one that skips R13 and one that does not. -/
theorem witness_FrameLoad :
    p4.frames[1]? = some ⟨p4Bytes 0x08, []⟩ ∧
    (p4.frameR13SkipFf = true ∧ regAt (frameAt p4 0).bytes 13 = 0xFF) ∧
    ¬ (({ p4 with frameR13SkipFf := false } : Config).frameR13SkipFf = true ∧ regAt (frameAt p4 0).bytes 13 = 0xFF) := by
  decide

/-- Inside a frame; at the end of a frame, of the last frame of a song that loops, and of one that does not. -/
theorem witness_SampleStep :
    playing.player.eng.sif + 1 ≠ playing.player.eng.flen ∧
    (let e := { playing.player.eng with sif := 2 }
     e.sif + 1 = e.flen ∧ e.cursor + 1 ≠ frameCount p4) ∧
    (let e := { playingLoop.player.eng with sif := 2, cursor := 2 }
     e.sif + 1 = e.flen ∧ e.cursor + 1 = frameCount p5 ∧ loopEnabled p5 = true) ∧
    (let e := { playing.player.eng with sif := 2, cursor := 1 }
     e.sif + 1 = e.flen ∧ e.cursor + 1 = frameCount p4 ∧ loopEnabled p4 = false) := by decide +kernel

theorem witness_PlayCommand :
    base.issuer = .producer ∧ playing.eng.state = .playing ∧
    (playing.setEng { playing.eng with state := .paused }).eng.state = .paused ∧ base.eng.state = .idle ∧
    finished.eng.state = .finished ∧ finished.eng.cursor = frameCount p4 := by decide +kernel

theorem witness_PlaybackTransitions : base.issuer = .producer ∧ base.allows .reader ∧ playing.player.eng.state = .playing :=
  ⟨rfl, .inl rfl, by decide +kernel⟩

theorem witness_PauseCommand : playing.issuer = .producer ∧ playing.eng.state = .playing ∧ base.eng.state ≠ .playing := by
  decide +kernel

theorem witness_StopCommand : playing.issuer = .producer := rfl

theorem witness_GenerateCommand :
    base.issuer = .producer ∧ base.eng.state ≠ .playing ∧ playing.player.eng.state = .playing := by decide +kernel

/-- A frame in the middle, the last, and one past the end; the last frame leaves R13 alone. -/
theorem witness_SeekCommand :
    base.Inv ∧ base.issuer = .producer ∧ min (BitVec.toNat (25 : Count)) (frameCount p4 - 1) = 1 ∧
    p4.frameR13SkipFf = true ∧ regAt (frameAt p4 1).bytes 13 = 0xFF ∧
    (∀ w ∈ (frameAt p4 1).fx, w.toNat / 2 ^ 30 ≠ 3 ∨ w.toNat / 2 ^ 28 % 4 = 3 ∨ w.toNat % 2 ^ 20 = 0) :=
  ⟨base_inv, rfl, by decide, rfl, rfl, fun _ h => by rw [show (frameAt p4 1).fx = [] from rfl] at h; cases h⟩

/-- A SID word, a SYNCBUZZ word without a channel and one of rate 0 leave the envelope alone. -/
theorem witness_SeekCommand_words :
    ∀ w ∈ ([0x900001B8, 0xF0000005, 0xC0000000] : List Word),
      w.toNat / 2 ^ 30 ≠ 3 ∨ w.toNat / 2 ^ 28 % 4 = 3 ∨ w.toNat % 2 ^ 20 = 0 := by
  intro w hw
  simp only [List.mem_cons, List.not_mem_nil, or_false] at hw
  rcases hw with rfl | rfl | rfl <;> decide

theorem witness_PositionCommand :
    base.allows .reader ∧ finished.Inv ∧ finished.allows .reader ∧ finished.eng.cursor = frameCount finished.cfg :=
  ⟨.inl rfl, finished_inv, .inl rfl, rfl⟩

theorem witness_SongLength :
    configOk p4 = true ∧ base.player.Inv p4 ∧ base.player.eng.state = .idle ∧ base.player.eng.cursor = 0 ∧
    base.player.eng.racc = 0 ∧ loopEnabled p4 = false ∧ finished.player.Inv p4 ∧
    finished.player.eng.state = .finished ∧ finished.player.eng.cursor = frameCount p4 ∧
    finished.player.eng.racc = 0 :=
  ⟨witness_configOk.1, base_inv.playerInv, rfl, rfl, rfl, rfl, finished_inv.playerInv, rfl, rfl, rfl⟩

theorem witness_LoopNeverFinishes :
    configOk p5 = true ∧ loopEnabled p5 = true ∧ playingLoop.player.Inv p5 ∧ playingLoop.player.eng.state = .playing :=
  ⟨witness_configOk.2, rfl, playingLoop_inv.playerInv, by decide +kernel⟩

theorem witness_ReleaseEffects :
    base.player.eng.slot.get .B = .empty ∧
    (withSlot (.drum 0 2 9 10)).player.eng.slot.get .B = .drum 0 2 9 10 ∧
    (withSlot (.sid false 9 5)).player.eng.slot.get .B = .sid false 9 5 ∧
    (withSlot (.buzz 9 2)).player.eng.slot.get .B = .buzz 9 2 := by decide

/-- An invalid channel, rate and id; a valid channel and rate with an empty slot and with each running effect. -/
theorem witness_EffectWords :
    ((3 : BitVec 2) = 3 ∨ (5 : BitVec 20) = 0) ∧ ((0 : BitVec 2) = 3 ∨ (0 : BitVec 20) = 0) ∧
    p4.drumBank.getD (BitVec.toNat (1 : Byte)) [] = [] ∧ (1 : BitVec 2).toNat = Ch.B.num ∧ (0xFFFFF : BitVec 20) ≠ 0 ∧
    p4.drumBank[(BitVec.toNat (0 : Byte))]? = some (0x00 :: [0x80, 0xFF]) ∧
    (withSlot (.sid false 9 5)).eng.slot.get .B = .sid false 9 5 ∧
    (withSlot (.buzz 9 2)).eng.slot.get .B = .buzz 9 2 ∧
    (∀ high acc r, base.eng.slot.get .B ≠ .sid high acc r) ∧ (∀ acc r, base.eng.slot.get .B ≠ .buzz acc r) := by
  refine ⟨by decide, by decide, by decide, by decide, by decide, by decide, by decide, by decide, ?_, ?_⟩
  · intro _ _ _ h; cases h
  · intro _ _ h; cases h

/-- Two valid words for one channel in either order (R131: the later one replaces the effect); the marked and the
unmarked Sid and Buzz, the drum and the empty slot at the end of a decode; the conditions on a frame's words. -/
theorem witness_SidBuzzNeedRenewal :
    (fxDecode p4 [0x900001B8, 0xD0000002] base.player).eng.slot.get .B = .buzz 0 2 ∧
    (fxDecode p4 [0xD0000002, 0x900001B8] base.player).eng.slot.get .B = .sid true 0 440 ∧
    (withSlot (.sid true 9 5)).player.eng.slot.get .B = .sid true 9 5 ∧
    (withSlot (.sid true 9 5)).player.eng.seen.get .B = false ∧
    ((withSlot (.buzz 8 2)).player.markSeen .B).eng.slot.get .B = .buzz 8 2 ∧
    ((withSlot (.buzz 8 2)).player.markSeen .B).eng.seen.get .B = true ∧
    (withSlot (.drum 0 2 9 10)).player.eng.slot.get .B = .drum 0 2 9 10 ∧
    base.player.eng.slot.get .B = .empty ∧
    (fxDecode p4 [0x900001B8] base.player).eng.slot.get .B = .sid true 0 440 ∧
    (fxDecode p4 [0xC0000002] base.player).eng.slot.get .A = .buzz 0 2 ∧
    (∀ w ∈ ([0x80000005, 0xB0000005, 0x90000000, 0x50100005, 0x50500005] : List Word),
      w.toNat / 2 ^ 30 = 0 ∨ w.toNat / 2 ^ 28 % 4 ≠ Ch.B.num ∨ w.toNat % 2 ^ 20 = 0 ∨
        (w.toNat / 2 ^ 30 = 1 ∧ p4.drumBank.getD (w.toNat / 2 ^ 20 % 256) [] = [])) := by
  refine ⟨by decide, by decide, rfl, rfl, rfl, rfl, rfl, rfl, by decide, by decide, ?_⟩
  intro w hw
  simp only [List.mem_cons, List.not_mem_nil, or_false] at hw
  rcases hw with rfl | rfl | rfl | rfl | rfl <;> decide

theorem witness_SidAndBuzzEvents :
    0 < p4.sampleRate ∧ (withSlot (.sid true 9 5)).player.eng.slot.get .B = .sid true 9 5 ∧ 9 < p4.sampleRate ∧
    (withSlot (.buzz 8 2)).player.eng.slot.get .B = .buzz 8 2 ∧ p4.sampleRate ≤ 8 + (2 : BitVec 20).toNat ∧
    (withSlot (.buzz 8 2)).player.eng.slot.get .A = .empty ∧
    ∀ ch acc rate, (withSlot (.buzz 7 2)).player.eng.slot.get ch = .buzz acc rate →
      acc + rate.toNat < p4.sampleRate := by
  refine ⟨by decide, rfl, by decide, rfl, by decide, rfl, fun ch acc rate h => ?_⟩
  cases ch <;> cases h
  decide

theorem witness_DrumPlaysItsBytes :
    let s := (withSlot (.drum 0 2 9 10)).setChip (setDrumOvr .B 0xFF base.chip)
    0 < p4.sampleRate ∧ s.player.eng.slot.get .B = .drum 0 2 9 10 ∧ 9 < p4.sampleRate ∧
      2 < (drumSample p4 0).length ∧ s.player.chip.drum.get .B = (drumSample p4 0)[2]? := by decide

theorem witness_EffectsUseHooksOnly :
    (Instr.fxSid 1 0 440).isEffect = true ∧ exec (.fxSid 1 0 440) base = .next (after (.fxSid 1 0 440) base) := ⟨rfl, rfl⟩

/-- With an empty schedule and with the command's own next turn. -/
theorem witness_RingWrite :
    base.Inv ∧ base.issuer = .producer ∧ base.uninterrupted .producer ∧
    (base.setSched [.producer]).uninterrupted .producer :=
  ⟨base_inv, rfl, .inl rfl, .inr ⟨[], rfl⟩⟩

theorem witness_RingRead :
    (asConsumer fullRing).Inv ∧ (asConsumer fullRing).issuer = .consumer ∧ (asConsumer fullRing).uninterrupted .consumer :=
  ⟨fullRing_inv.setIssuer _, rfl, .inl rfl⟩

/-- An empty and a full ring. -/
theorem witness_RingQueries :
    base.Inv ∧ base.allows .eitherRole ∧ availRead base.ring = 0 ∧ fullRing.Inv ∧ fullRing.allows .eitherRole ∧
    availWrite fullRing.ring = 0 :=
  ⟨base_inv, .inl rfl, rfl, fullRing_inv, .inl rfl, by decide⟩

theorem witness_RingFlushAndStats :
    (asConsumer fullRing).issuer = .consumer ∧ (asConsumer fullRing).uninterrupted .consumer ∧
    fullRing.issuer = .producer ∧ fullRing.uninterrupted .producer := ⟨rfl, .inl rfl, rfl, .inl rfl⟩

/-- Data that fits exactly, data that does not, no retries, and a sleeper with turns for its last attempts. -/
theorem witness_RingBlockingWrite :
    base.Inv ∧ base.issuer = .producer ∧ base.uninterrupted .producer ∧ ([1, 2, 3] : List F32).length ≤ availWrite base.ring ∧
    availWrite base.ring < ([1, 2, 3, 4] : List F32).length ∧ 0 < base.cfg.rbRetryLimit ∧ (sleeping 0).Inv ∧
    (sleeping 0).issuer = .producer ∧ (sleeping 0).uninterrupted .producer ∧
    ((sleeping 0).port .producer).busy = some (.asleep [1] 0 1) ∧ (sleeping 0).eng.fxq = none ∧
    (∃ m, (sleeping 0).sched = List.replicate (2 * ((sleeping 0).cfg.rbRetryLimit + 1) + m) .producer) :=
  ⟨base_inv, rfl, .inl rfl, by decide, by decide, by decide, sleeping_inv 0, rfl, .inr ⟨_, rfl⟩, rfl, rfl, 0, rfl⟩

theorem witness_RingBlockingWrite_no_retries :
    ({ base with cfg := { p4 with rbRetryLimit := 0 } } : State).cfg.rbRetryLimit = 0 := rfl

theorem witness_RingSubSteps_interrupted :
    ((fullRing.setSched [.consumer]).sched = .consumer :: [] ∧ Agent.consumer ≠ .producer ∧
      (fullRing.setSched [.consumer]).issuer = .producer) ∧
    (let s := asConsumer (fullRing.setSched [.producer])
     s.sched = .producer :: [] ∧ Agent.producer ≠ .consumer ∧ s.issuer = .consumer) := by decide

/-- The commit of an RB_WRITE_BLK that was interrupted: what fits is not all, and a sleep is left. -/
theorem witness_RingSubSteps_writeBlk :
    let s := base.setBusy .producer (some (.writeBlk [1, 2] 1 3 0))
    s.Inv ∧ (s.port .producer).busy = some (.writeBlk [1, 2] 1 3 0) ∧ 0 < s.cfg.rbRetryLimit :=
  ⟨base_inv.setBusyProducer _ (by intro op h; cases h; exact ⟨by decide, by decide, by decide⟩), rfl, by decide⟩

theorem witness_RingSubSteps_resumed :
    (base.setBusy .producer (some (.write [1] 1))).Inv ∧
    ((base.setBusy .producer (some (.write [1] 1))).port .producer).busy = some (.write [1] 1) ∧
    (fullRing.setBusy .consumer (some (.read 5 3))).Inv ∧
    ((fullRing.setBusy .consumer (some (.read 5 3))).port .consumer).busy = some (.read 5 3) ∧
    (fullRing.setBusy .consumer (some (.flush 3))).Inv ∧
    ((fullRing.setBusy .consumer (some (.flush 3))).port .consumer).busy = some (.flush 3) := by
  refine ⟨base_inv.setBusyProducer _ ?_, rfl, fullRing_inv.setBusyConsumer _ ?_, rfl, fullRing_inv.setBusyConsumer _ ?_, rfl⟩
  · intro op h; cases h; exact ⟨by decide, by decide⟩
  · intro op h; cases h; exact ⟨by decide, by decide⟩
  · intro op h; cases h; exact ⟨by decide, by decide⟩

/-- A step from a state in range that commits nothing, for want of an agent that moves and for an interruption, and a
write of `cap - 1` samples to an empty ring. -/
theorem witness_RingIsFifo :
    base.Inv ∧ step base = .next base ∧ base.issuer = .producer ∧ base.sched = [] ∧ base.ring.w = base.ring.r ∧
    ([1, 2, 3] : List F32).length ≤ base.ring.cap - 1 ∧ (3 : Count).toNat = ([1, 2, 3] : List F32).length ∧
    (∀ xs n done, ¬ base.commitsWrite xs n done) ∧ (∀ count n, ¬ base.commitsRead count n) ∧
    ∀ wa, ¬ base.commitsFlush wa :=
  ⟨base_inv, rfl, rfl, rfl, rfl, by decide, by decide, fun _ _ _ h => (nomatch h.2.1), fun _ _ h => (nomatch h.2.1),
    fun _ h => (nomatch h.2.1)⟩

theorem witness_RingIsFifo_interrupted :
    let s := (base.setInput .producer [.word 0x20000001, .word 1]).setSched [.producer, .consumer]
    s.Inv ∧ (∃ t, step s = .next t) ∧ (∀ xs n done, ¬ s.commitsWrite xs n done) ∧
    (∀ count n, ¬ s.commitsRead count n) ∧ ∀ wa, ¬ s.commitsFlush wa := by
  have no : ∀ {P : Prop}, nextAgent ((base.setInput .producer [.word 0x20000001, .word 1]).setSched
      [.producer, .consumer]) = some .consumer → P := fun h => nomatch h
  refine ⟨(base_inv.setInput _ _).setSched _, ⟨_, rfl⟩, ?_, fun _ _ h => no h.2.1, fun _ h => no h.2.1⟩
  rintro _ _ _ ⟨-, -, (⟨h, -⟩ | ⟨_, h⟩) | ⟨-, h | ⟨_, h⟩, -⟩⟩ <;> cases h

/-- Each way to commit a write: an interrupted RB_WRITE_NB and RB_WRITE_BLK, a waking one, and the two as they begin. -/
theorem witness_RingIsFifo_write :
    (let s := base.setBusy .producer (some (.write [1] 1))
     s.Inv ∧ (∃ t, step s = .next t) ∧ s.commitsWrite [1] 1 0) ∧
    (let s := base.setBusy .producer (some (.writeBlk [1, 2] 1 3 0))
     s.Inv ∧ (∃ t, step s = .next t) ∧ s.commitsWrite [1, 2] 1 3) ∧
    ((sleeping 0).Inv ∧ (∃ t, step (sleeping 0) = .next t) ∧ (sleeping 0).commitsWrite [1] 0 0) ∧
    (let s := base.setInput .producer [.word 0x20000001, .word 1]
     s.Inv ∧ (∃ t, step s = .next t) ∧ s.commitsWrite [1] 1 0) ∧
    (let s := base.setInput .producer [.word 0x21000001, .word 1]
     s.Inv ∧ (∃ t, step s = .next t) ∧ s.commitsWrite [1] 1 0) := by
  refine ⟨⟨base_inv.setBusyProducer _ ?_, ⟨_, rfl⟩, rfl, rfl, .inl (.inl ⟨rfl, rfl⟩)⟩,
    ⟨witness_RingSubSteps_writeBlk.1, ⟨_, rfl⟩, rfl, rfl, .inl (.inr ⟨_, rfl⟩)⟩,
    ⟨sleeping_inv 0, ⟨_, rfl⟩, rfl, rfl, .inr ⟨rfl, .inr ⟨_, rfl⟩, .inl ⟨_, rfl⟩⟩⟩,
    ⟨base_inv.setInput _ _, ⟨_, rfl⟩, rfl, rfl, .inr ⟨rfl, .inl rfl, .inr ⟨rfl, rfl, _, .inl rfl⟩⟩⟩,
    ⟨base_inv.setInput _ _, ⟨_, rfl⟩, rfl, rfl, .inr ⟨rfl, .inl rfl, .inr ⟨rfl, rfl, _, .inr rfl⟩⟩⟩⟩
  intro op h; cases h; exact ⟨by decide, by decide⟩

/-- Each way to commit a read, a short one, and a flush. -/
theorem witness_RingIsFifo_read_and_flush :
    (let s := fullRing.setBusy .consumer (some (.read 5 3))
     s.Inv ∧ (∃ t, step s = .next t) ∧ s.commitsRead 5 3) ∧
    (let s := fullRing.setInput .consumer [.word 0x22000005]
     s.Inv ∧ (∃ t, step s = .next t) ∧ s.commitsRead 5 3) ∧
    (let s := fullRing.setBusy .consumer (some (.flush 3))
     s.Inv ∧ (∃ t, step s = .next t) ∧ s.commitsFlush 3) ∧
    (let s := fullRing.setInput .consumer [.word 0x26000000]
     s.Inv ∧ (∃ t, step s = .next t) ∧ s.commitsFlush 3) :=
  ⟨⟨witness_RingSubSteps_resumed.2.2.1, ⟨_, rfl⟩, rfl, rfl, .inl rfl⟩,
    ⟨fullRing_inv.setInput _ _, ⟨_, rfl⟩, rfl, rfl, .inr ⟨rfl, .inl rfl, rfl, 5, _, rfl, rfl⟩⟩,
    ⟨witness_RingSubSteps_resumed.2.2.2.2.1, ⟨_, rfl⟩, rfl, rfl, .inl rfl⟩,
    ⟨fullRing_inv.setInput _ _, ⟨_, rfl⟩, rfl, rfl, .inr ⟨rfl, .inl rfl, rfl, _, rfl⟩⟩⟩

theorem witness_StepKeepsInvariant :
    (base.setInput .producer [.word 0x10000000]).Inv ∧
    step (base.setInput .producer [.word 0x10000000]) = .next (after .pbPlay base) :=
  ⟨base_inv.setInput _ _, rfl⟩

theorem witness_ConfigFixedUnitsSeparate :
    step (base.setInput .producer [.word 0x10000000]) = .next (after .pbPlay base) := rfl

end Sys2Proof.Tests
end

section
/-! Proofs about the command space (30_encoding.md R59, R60, R65, R66) and the effect words (R64). -/

namespace Sys2Proof

open Sys2Proof.Machine

/-! ### Fields and masks -/

/-- The word whose bits `hi` down to `lo` are 1. -/
def fieldMask (hi lo : Nat) : Word := (BitVec.allOnes (hi + 1 - lo)).setWidth 32 <<< lo

theorem getLsbD_fieldMask {hi : Nat} (h : hi < 32) (lo i : Nat) :
    (fieldMask hi lo).getLsbD i = decide (lo ≤ i ∧ i ≤ hi) := by
  simp only [fieldMask, BitVec.getLsbD_shiftLeft, BitVec.getLsbD_setWidth, BitVec.getLsbD_allOnes]
  grind

theorem and_fieldMask_eq_zero_iff (w : Word) {hi : Nat} (h : hi < 32) (lo : Nat) :
    w &&& fieldMask hi lo = 0 ↔ ∀ i, lo ≤ i → i ≤ hi → w.getLsbD i = false := by
  simp only [BitVec.eq_of_getLsbD_eq_iff, BitVec.getLsbD_and, getLsbD_fieldMask h]
  grind

theorem field_eq_toNat_extractLsb' (w : Word) (hi lo : Nat) :
    field w hi lo = (w.extractLsb' lo (hi + 1 - lo)).toNat := by
  simp [field, Nat.shiftRight_eq_div_pow]

theorem field_eq_zero_iff_bits (w : Word) (hi lo : Nat) :
    field w hi lo = 0 ↔ ∀ i, lo ≤ i → i ≤ hi → w.getLsbD i = false := by
  have hzero : field w hi lo = 0 ↔ w.extractLsb' lo (hi + 1 - lo) = 0 := by
    rw [field_eq_toNat_extractLsb', ← BitVec.toNat_inj]
    rfl
  simp only [hzero, BitVec.eq_of_getLsbD_eq_iff, BitVec.getLsbD_extractLsb']
  constructor
  · intro h i hlo hhi
    have hi' := h (i - lo) (by omega)
    grind
  · intro h j hj
    simpa [hj] using h (lo + j) (by omega) (by omega)

/-- A field is 0 exactly when the word has no bit of its mask. -/
theorem field_eq_zero_iff (w : Word) {hi : Nat} (h : hi < 32) (lo : Nat) :
    field w hi lo = 0 ↔ w &&& fieldMask hi lo = 0 :=
  (field_eq_zero_iff_bits w hi lo).trans (and_fieldMask_eq_zero_iff w h lo).symm

theorem and_or_eq_zero_iff (w a b : Word) : w &&& (a ||| b) = 0 ↔ w &&& a = 0 ∧ w &&& b = 0 := by
  rw [BitVec.and_or_distrib_left]
  exact BitVec.or_eq_zero_iff

theorem opcode_eq_div (w : Word) : opcode w = w.toNat / 2 ^ 24 := by
  have := w.isLt
  simp only [opcode, field]
  omega

theorem exists_chField_iff (w : Word) : (∃ ch, chField w = some ch) ↔ w.toNat / 2 ^ 16 % 4 ≠ 3 := by
  have hlt : w.toNat / 2 ^ 16 % 4 < 4 := Nat.mod_lt _ (by decide)
  change (∃ ch, chOfNat (w.toNat / 2 ^ 16 % 4) = some ch) ↔ _
  generalize w.toNat / 2 ^ 16 % 4 = n at hlt ⊢
  interval_cases n <;> simp [chOfNat]

/-! ### Payloads -/

theorem takeBytes_eq_some_iff (n : Nat) (l more : List Item) (bs : List Byte) :
    takeBytes n l = some (bs, more) ↔ bs.length = n ∧ l = bs.map .byte ++ more := by
  fun_induction takeBytes n l generalizing bs with
  | case1 l => cases bs <;> simp [eq_comm]
  | case2 n b l ih =>
    cases bs with
    | nil => simp
    | cons b' bs => simp [ih, and_assoc, and_left_comm, and_comm]
  | case3 n l hl => cases bs <;> grind

theorem takeWords_eq_some_iff (n : Nat) (l more : List Item) (ws : List Word) :
    takeWords n l = some (ws, more) ↔ ws.length = n ∧ l = ws.map .word ++ more := by
  fun_induction takeWords n l generalizing ws with
  | case1 l => cases ws <;> simp [eq_comm]
  | case2 n w l ih =>
    cases ws with
    | nil => simp
    | cons w' ws => simp [ih, and_assoc, and_left_comm, and_comm]
  | case3 n l hl => cases ws <;> grind

/-! ### What each format accepts -/

/-- Decoding gives an instruction. -/
def Accepts (d : Decoded) : Prop := ∃ i rest, d = .ok (i, rest)

theorem accepts_ok (i : Instr) (rest : List Item) : Accepts (.ok (i, rest)) := ⟨i, rest, rfl⟩

theorem not_accepts_error (e : DecodeError) : ¬ Accepts (.error e) := fun ⟨_, _, h⟩ => nomatch h

theorem accepts_ifZero_iff (z : Nat) (i : Instr) (rest : List Item) : Accepts (ifZero z i rest) ↔ z = 0 where
  mp := fun ⟨_, _, h⟩ => (ifZero_ok h).1
  mpr hz := ⟨i, rest, if_pos hz⟩

theorem accepts_formatC_iff (w : Word) (u : Nat) (mk : Ch → Instr) (rest : List Item) :
    Accepts (formatC w u mk rest) ↔
      (field w 23 18 = 0 ∧ field w 15 8 = 0 ∧ u = 0) ∧ w.toNat / 2 ^ 16 % 4 ≠ 3 := by
  rw [← exists_chField_iff]
  constructor
  · rintro ⟨i, rest', h⟩
    obtain ⟨hzeros, ch, hch, -, -⟩ := formatC_ok h
    exact ⟨hzeros, ch, hch⟩
  · rintro ⟨hzeros, ch, hch⟩
    exact ⟨mk ch, rest, by simp [formatC, hzeros, hch]⟩

theorem accepts_withBytes_iff (z : Nat) (rest : List Item) :
    Accepts (withBytes z rest) ↔ z = 0 ∧ ∃ (bs : List Byte) (more : List Item),
      bs.length = 16 ∧ rest = bs.map .byte ++ more := by
  constructor
  · rintro ⟨i, more, h⟩
    obtain ⟨hz, bs, hbs, -⟩ := withBytes_ok h
    exact ⟨hz, bs, more, (takeBytes_eq_some_iff ..).1 hbs⟩
  · rintro ⟨hz, bs, more, hbs⟩
    have htake := (takeBytes_eq_some_iff 16 rest more bs).2 hbs
    exact ⟨.loadRegs (bytes16 bs), more, by simp [withBytes, hz, htake]⟩

theorem accepts_withSamples_iff (w : Word) (mk : List F32 → Instr) (rest : List Item) :
    Accepts (withSamples w mk rest) ↔ ∃ (ws : List Word) (more : List Item),
      ws.length = w.toNat % 2 ^ 24 ∧ rest = ws.map .word ++ more := by
  have hcount : field w 23 0 = w.toNat % 2 ^ 24 := by simp [field]
  constructor
  · rintro ⟨i, more, h⟩
    obtain ⟨ws, hws, -⟩ := withSamples_ok h
    exact ⟨ws, more, hcount ▸ (takeWords_eq_some_iff ..).1 hws⟩
  · rintro ⟨ws, more, hws⟩
    have htake := (takeWords_eq_some_iff (field w 23 0) rest more ws).2 (hcount ▸ hws)
    exact ⟨mk ws, more, by simp [withSamples, htake]⟩

/-! ### The rows of R60 -/

/-- R65's condition on a command word whose opcode is `op`. -/
def MeetsFormat (op : Nat) (w : Word) (rest : List Item) : Prop :=
  ∃ z, formatZeros op = some z ∧ w &&& z = 0 ∧ (formatHasChannel op → w.toNat / 2 ^ 16 % 4 ≠ 3) ∧
    payloadPresent op (w.toNat % 2 ^ 24) rest

/-- An opcode whose word has no CH and no payload. -/
abbrev BareOpcode (op : Nat) : Prop :=
  ¬ ((0x0A ≤ op ∧ op ≤ 0x0E) ∨ op = 0x16) ∧ op ≠ 0x03 ∧ ¬ (op = 0x20 ∨ op = 0x21)

section

variable {op : Nat} {w z : Word} {rest : List Item}

theorem meetsFormat_of_zeros (hz : formatZeros op = some z) :
    MeetsFormat op w rest ↔ w &&& z = 0 ∧ (formatHasChannel op → w.toNat / 2 ^ 16 % 4 ≠ 3) ∧
      payloadPresent op (w.toNat % 2 ^ 24) rest := by
  simp [MeetsFormat, hz]

theorem meetsFormat_bare (hz : formatZeros op = some z) (hop : BareOpcode op) :
    MeetsFormat op w rest ↔ w &&& z = 0 := by
  obtain ⟨hch, hbytes, hsamples⟩ := hop
  rw [meetsFormat_of_zeros hz, formatHasChannel, payloadPresent, if_neg hbytes, if_neg hsamples]
  simp [hch]

theorem ifZero_meetsFormat {bits : Nat} {i : Instr} (hbits : bits = 0 ↔ w &&& z = 0)
    (hz : formatZeros op = some z) (hop : BareOpcode op) :
    Accepts (ifZero bits i rest) ↔ MeetsFormat op w rest := by
  rw [accepts_ifZero_iff, meetsFormat_bare hz hop, hbits]

theorem ok_meetsFormat {i : Instr} (hz : formatZeros op = some 0) (hop : BareOpcode op) :
    Accepts (.ok (i, rest)) ↔ MeetsFormat op w rest := by
  simp [accepts_ok, meetsFormat_bare hz hop]

theorem formatC_meetsFormat {u : Nat} {mk : Ch → Instr} (hu : u = 0 ↔ w &&& z = 0)
    (hz : formatZeros op = some (fieldMask 23 18 ||| (fieldMask 15 8 ||| z)))
    (hop : (0x0A ≤ op ∧ op ≤ 0x0E) ∨ op = 0x16) :
    Accepts (formatC w u mk rest) ↔ MeetsFormat op w rest := by
  rw [accepts_formatC_iff, meetsFormat_of_zeros hz, and_or_eq_zero_iff, and_or_eq_zero_iff,
    field_eq_zero_iff w (by decide), field_eq_zero_iff w (by decide), hu,
    formatHasChannel, payloadPresent, if_neg (by omega), if_neg (by omega)]
  simp [hop]

theorem withBytes_meetsFormat : Accepts (withBytes (field w 23 0) rest) ↔ MeetsFormat 0x03 w rest := by
  rw [accepts_withBytes_iff, meetsFormat_of_zeros (z := fieldMask 23 0) rfl, field_eq_zero_iff w (by decide)]
  simp [formatHasChannel, payloadPresent]

theorem withSamples_meetsFormat {mk : List F32 → Instr} (hop : op = 0x20 ∨ op = 0x21) :
    Accepts (withSamples w mk rest) ↔ MeetsFormat op w rest := by
  rw [accepts_withSamples_iff]
  have hzeros : formatZeros op = some 0 := by rcases hop with rfl | rfl <;> rfl
  rw [meetsFormat_of_zeros hzeros]
  rcases hop with rfl | rfl <;> simp [formatHasChannel, payloadPresent]

end

/-- The rows of R60, grouped by format; the cases stand in the order of `decodeCommand`'s match. -/
theorem accepts_decodeCommand_iff (w : Word) (rest : List Item) :
    Accepts (decodeCommand w rest) ↔ MeetsFormat (opcode w) w rest := by
  unfold decodeCommand
  generalize opcode w = op
  split
  -- the commands without operand
  case h_4 | h_5 | h_6 | h_9 | h_15 | h_16 | h_17 | h_19 | h_22 | h_26 | h_27 | h_28 | h_29 | h_30 =>
    exact ifZero_meetsFormat (field_eq_zero_iff w (by decide) 0) rfl (by decide)
  -- CHIP_GENERATE, PB_GENERATE, PB_SEEK, RB_READ: COUNT fills the low 24 bits
  case h_7 | h_18 | h_20 | h_25 => exact ok_meetsFormat rfl (by decide)
  -- WRITE_REG, READ_REG, RESET
  case h_1 => exact ifZero_meetsFormat (field_eq_zero_iff w (by decide) 12) rfl (by decide)
  case h_2 =>
    have hbits : field w 23 12 + field w 7 0 = 0 ↔ w &&& (fieldMask 23 12 ||| fieldMask 7 0) = 0 := by
      rw [Nat.add_eq_zero_iff, and_or_eq_zero_iff, field_eq_zero_iff w (by decide), field_eq_zero_iff w (by decide)]
    exact ifZero_meetsFormat hbits rfl (by decide)
  case h_8 => exact ifZero_meetsFormat (field_eq_zero_iff w (by decide) 1) rfl (by decide)
  -- format C, by the part of DATA it leaves unused
  case h_10 => exact formatC_meetsFormat (field_eq_zero_iff w (by decide) 2) rfl (by decide)
  case h_11 | h_13 => exact formatC_meetsFormat (field_eq_zero_iff w (by decide) 0) rfl (by decide)
  case h_12 => exact formatC_meetsFormat (z := 0) (by simp) rfl (by decide)
  case h_14 | h_21 => exact formatC_meetsFormat (field_eq_zero_iff w (by decide) 1) rfl (by decide)
  -- LOAD_REGS and the ring writes
  case h_3 => exact withBytes_meetsFormat
  case h_23 => exact withSamples_meetsFormat (.inl rfl)
  case h_24 => exact withSamples_meetsFormat (.inr rfl)
  -- an unassigned opcode
  case h_31 =>
    have hnone : formatZeros op = none := by
      unfold formatZeros
      split
      case h_31 => rfl
      all_goals contradiction
    simp [not_accepts_error, MeetsFormat, hnone]

/-! ### Effect words -/

theorem effectWord_fields (w : Word) :
    effectWord (field w 31 30) (fchField w) (idField w) (rateField w) = .word w := by
  have := w.isLt
  simp only [effectWord, fchField, idField, rateField, field, Item.word.injEq, ← BitVec.toNat_inj, BitVec.toNat_ofNat]
  omega

theorem encode_decodeEffect (w : Word) : encode (decodeEffect w) = [.word w] := by
  have hw := effectWord_fields w
  have hkind : field w 31 30 < 4 := Nat.mod_lt _ (by decide)
  unfold decodeEffect
  generalize field w 31 30 = kind at hw hkind ⊢
  interval_cases kind <;> exact congrArg ([·]) hw

/-- Settles O2: row by row of R60 the word's format accepts it under R65's condition, and the four fields of an effect
word fill its 32 bits. -/
theorem reservedCommandSpace : Obligations.ReservedCommandSpace := by
  refine ⟨fun w rest => ?_, encode_decodeEffect⟩
  rw [← opcode_eq_div]
  exact accepts_decodeCommand_iff w rest

end Sys2Proof
end

section
/-! Proofs about the chip's commands and its per-sample path (44_mixer_chip.md §2 to §5). -/

namespace Sys2Proof.Machine

/-! ### The chip's commands, issued with the access -/

theorem owned_of_producer {s : State} (h : s.issuer = .producer) (o : Outcome) : owned s o = o := if_pos h

theorem inspected_of_allows {s : State} (h : s.allows .reader) (o : Outcome) : inspected s o = o := if_pos h

theorem exec_writeReg {s : State} (h : s.issuer = .producer) (a : RegNum) (d : Byte) :
    exec (.writeReg a d) s = .next (s.setChip (writeReg a d s.chip)) := owned_of_producer h _

theorem exec_loadRegs {s : State} (h : s.issuer = .producer) (p : Bytes16) :
    exec (.loadRegs p) s = .next (s.setChip (loadRegs p s.chip)) := owned_of_producer h _

theorem exec_clock {s : State} (h : s.issuer = .producer) :
    exec .clock s = .next (s.setChip (clockChip s.cfg s.chip)) := owned_of_producer h _

theorem exec_chipGenerate {s : State} (h : s.issuer = .producer) (n : Count) :
    exec (.chipGenerate n) s =
      .next ((s.setChip (generateChip s.cfg n.toNat s.chip).1).deliver .producer
        (.samples (generateChip s.cfg n.toNat s.chip).2)) := by
  rw [← h]; exact owned_of_producer h _

theorem exec_triggerEnv {s : State} (h : s.issuer = .producer) :
    exec .triggerEnv s = .next (s.setChip (envRestart s.chip)) := owned_of_producer h _

theorem exec_readReg {s : State} (h : s.allows .reader) (a : RegNum) :
    exec (.readReg a) s = .next (s.deliver s.issuer (.byte (regAt s.chip.reg a))) := inspected_of_allows h _

theorem exec_dumpRegs {s : State} (h : s.allows .reader) :
    exec .dumpRegs s = .next (s.deliver s.issuer (.bytes s.chip.reg)) := inspected_of_allows h _

theorem exec_getSample {s : State} (h : s.allows .reader) :
    exec .getSample s = .next (s.deliver s.issuer (.sample s.chip.sample)) := inspected_of_allows h _

/-! ### Register writes and the envelope's restart -/

/-- R13 stores its low four bits, so that its mask keeps ATT (10_state.md R15, R21). -/
theorem shapeAtt_of_r13 {reg : Bytes16} {d : Byte} (h : regAt reg 13 = d &&& regMask 13) :
    shapeAtt reg = d.getLsbD 2 := by
  have hatt : (regMask 13).getLsbD 2 = true := by decide
  rw [shapeAtt, h, BitVec.getLsbD_and, hatt, Bool.and_true]

theorem shapeAtt_maskedWrite_ne {a : RegNum} (ha : a ≠ 13) (d : Byte) (c : ChipState) :
    shapeAtt (maskedWrite a d c).reg = shapeAtt c.reg := by
  rw [shapeAtt, regAt_maskedWrite, if_neg ha.symm, shapeAtt]

/-- A restart can be put off past the write of another register than R13. -/
theorem maskedWrite_envRestart {a : RegNum} (ha : a ≠ 13) (d : Byte) (c : ChipState) :
    maskedWrite a d (envRestart c) = envRestart (maskedWrite a d c) := by
  rw [envRestart, envRestart, shapeAtt_maskedWrite_ne ha]
  rfl

theorem writeReg_r13 (d : Byte) (c : ChipState) : writeReg 13 d c = envRestart (maskedWrite 13 d c) := if_pos rfl

theorem writeReg_ne {a : RegNum} (ha : a ≠ 13) (d : Byte) (c : ChipState) : writeReg a d c = maskedWrite a d c :=
  if_neg ha

theorem shapeAtt_writeReg_r13 (d : Byte) (c : ChipState) : shapeAtt (writeReg 13 d c).reg = d.getLsbD 2 :=
  shapeAtt_of_r13 (by simp)

/-- WRITE_REG leaves everything but the registers and the envelope alone (44_mixer_chip.md R100). -/
theorem writeReg_frame (a : RegNum) (d : Byte) (c : ChipState) :
    writeReg a d c =
      { c with reg := (writeReg a d c).reg, ecnt := (writeReg a d c).ecnt, estep := (writeReg a d c).estep,
               eup := (writeReg a d c).eup, ehold := (writeReg a d c).ehold } := by
  rw [writeReg_eq]

/-- LOAD_REGS restarts the envelope and leaves everything but the registers and the envelope alone (R102). -/
theorem loadRegs_frame (p : Bytes16) (c : ChipState) :
    loadRegs p c =
      { c with reg := (loadRegs p c).reg, ecnt := 0, estep := 0, eup := (loadRegs p c).eup, ehold := false } := by
  rw [loadRegs, foldl_maskedWrite_eq]
  rfl

theorem eup_loadRegs (p : Bytes16) (c : ChipState) : (loadRegs p c).eup = (regAt p 13).getLsbD 2 :=
  shapeAtt_of_r13 (regAt_loadRegs p c 13)

/-- Register writes in a row, by the owner. -/
theorem execAll_writeRegs (p : Bytes16) (l : List RegNum) {s : State} (h : s.issuer = .producer) :
    execAll (l.map fun a => .writeReg a (regAt p a)) s =
      .next (s.setChip (l.foldl (fun c a => writeReg a (regAt p a) c) s.chip)) := by
  induction l generalizing s with
  | nil => rfl
  | cons a l ih =>
    have ht := ih (s := s.setChip (writeReg a (regAt p a) s.chip)) h
    rw [List.map_cons, execAll, exec_writeReg h]
    exact ht

/-- The sixteen WRITE_REGs restart the envelope at R13, before R14 and R15, and LOAD_REGS after them (R102). -/
theorem foldl_writeReg_allRegs (p : Bytes16) (c : ChipState) :
    allRegs.foldl (fun c a => writeReg a (regAt p a) c) c = loadRegs p c := by
  have h14 : (14 : RegNum) ≠ 13 := by decide
  have h15 : (15 : RegNum) ≠ 13 := by decide
  have hsplit : allRegs = [0, 1, 2, 3, 4, 5, 6, 7, 8, 9, 10, 11, 12] ++ [13, 14, 15] := rfl
  have hbefore : ∀ (c : ChipState), ∀ a ∈ ([0, 1, 2, 3, 4, 5, 6, 7, 8, 9, 10, 11, 12] : List RegNum),
      writeReg a (regAt p a) c = maskedWrite a (regAt p a) c :=
    fun c a ha => writeReg_ne (fun h => absurd (h ▸ ha) (by decide)) _ c
  rw [loadRegs, hsplit, List.foldl_append, List.foldl_append, List.foldl_ext _ _ c hbefore]
  simp only [List.foldl_cons, List.foldl_nil, writeReg_r13, writeReg_ne h14, writeReg_ne h15,
    maskedWrite_envRestart h14, maskedWrite_envRestart h15]

/-- Settles O12: what `writeReg` does to the registers and to the envelope, with and without R13. -/
theorem writeRegister : Obligations.WriteRegister := by
  refine ⟨by decide, fun s a d h => ⟨_, exec_writeReg h a d, fun b => regAt_writeReg a b d s.chip, ?_, ?_,
    congrArg s.setChip (writeReg_frame a d s.chip), fun b => ?_⟩⟩
  · rintro rfl
    exact ⟨rfl, rfl, shapeAtt_writeReg_r13 d s.chip, rfl⟩
  · intro ha
    rw [State.chip_setChip, writeReg_ne ha]
    exact ⟨rfl, rfl, rfl, rfl⟩
  · have hread := exec_readReg (s := s.setChip (writeReg a d s.chip)) (.inl h) b
    rwa [State.chip_setChip, regAt_writeReg, State.issuer_setChip, h] at hread

/-- Settles O13: the masked writes and the one restart, which the sixteen WRITE_REGs take before R14 and R15. -/
theorem loadRegisters : Obligations.LoadRegisters := by
  intro s p h
  refine ⟨_, exec_loadRegs h p, regAt_loadRegs p s.chip, rfl, rfl, eup_loadRegs p s.chip, rfl,
    congrArg s.setChip (loadRegs_frame p s.chip), ?_⟩
  rw [execAll_writeRegs p allRegs h, foldl_writeReg_allRegs]

/-! ### Hooks, mutes, the envelope trigger and the reads -/

/-- Settles O16: each command sets one entry of one `PerCh`. -/
theorem hookCommands : Obligations.HookCommands := by
  intro s ch h
  exact ⟨fun _ _ => ⟨_, owned_of_producer h _, fun _ => PerCh.get_set _ _ _ _, rfl⟩,
    ⟨_, owned_of_producer h _, fun _ => PerCh.get_set _ _ _ _, rfl⟩,
    fun _ => ⟨_, owned_of_producer h _, fun _ => PerCh.get_set _ _ _ _, rfl⟩,
    ⟨_, owned_of_producer h _, fun _ => PerCh.get_set _ _ _ _, rfl⟩,
    fun _ => ⟨_, owned_of_producer h _, owned_of_producer h _, fun _ => PerCh.get_set _ _ _ _, rfl⟩⟩

theorem envRestart_envRestart (c : ChipState) : envRestart (envRestart c) = envRestart c := rfl

/-- Settles O17: the restart reads the registers alone and is idempotent. -/
theorem triggerEnvelope : Obligations.TriggerEnvelope := by
  intro s h
  refine ⟨_, exec_triggerEnv h, rfl, ?_⟩
  have hagain := exec_triggerEnv (s := s.setChip (envRestart s.chip)) h
  rw [State.chip_setChip, envRestart_envRestart] at hagain
  exact hagain

/-- Settles O19: the meanings of the three reads, with the access. -/
theorem chipReads : Obligations.ChipReads := fun _ h => ⟨exec_readReg h, exec_dumpRegs h, exec_getSample h⟩

/-! ### Levels, gates and the mix -/

theorem toNat_envLevel (c : ChipState) :
    (envLevel c).toNat = if c.eup then c.estep.toNat else 31 - c.estep.toNat := by
  unfold envLevel
  split
  · rfl
  · bv_omega

theorem levelIndex_of_envSelect {c : ChipState} {ch : Ch} (h : envSelect c.reg ch = true) :
    levelIndex c ch = envLevel c := if_pos h

theorem toNat_levelIndex_of_volume {c : ChipState} {ch : Ch} (h : envSelect c.reg ch = false) :
    (levelIndex c ch).toNat = if volume c.reg ch = 0 then 0 else 2 * volume c.reg ch + 1 := by
  have hvol : volume c.reg ch < 16 := Nat.mod_lt _ (by decide)
  rw [levelIndex, if_neg (by simp [h])]
  split
  · rfl
  · rw [BitVec.toNat_ofNat, Nat.mod_eq_of_lt (by omega)]

theorem gate_of_override {c : ChipState} {ch : Ch} {o : Override} (h : c.ovr.get ch = some o) :
    gate c ch = (o.tone && o.noise) := by
  simp only [gate, toneTerm, noiseTerm, h]

theorem gate_of_no_override {c : ChipState} {ch : Ch} (h : c.ovr.get ch = none) :
    gate c ch = ((c.tout.get ch || toneDisabled c.reg ch) && (noiseOut c || noiseDisabled c.reg ch)) := by
  simp only [gate, toneTerm, noiseTerm, h]

theorem levelCode_of_mute (cfg : Config) {c : ChipState} {ch : Ch} (h : c.mute.get ch = true) :
    levelCode cfg c ch = 0 := if_pos h

theorem levelCode_of_drum (cfg : Config) {c : ChipState} {ch : Ch} {b : Byte} (hm : c.mute.get ch = false)
    (hd : c.drum.get ch = some b) : levelCode cfg c ch = b.toNat * 257 := by
  simp only [levelCode, hm, hd, Bool.false_eq_true, if_false]

theorem levelCode_of_normal (cfg : Config) {c : ChipState} {ch : Ch} (hm : c.mute.get ch = false)
    (hd : c.drum.get ch = none) :
    levelCode cfg c ch = if gate c ch then levelAt cfg (levelIndex c ch) else 0 := by
  simp only [levelCode, hm, hd, Bool.false_eq_true, if_false]

/-- Settles O27: the cases of the level index, of the gate and of the level code, and the mix's bound. -/
theorem mixerLevels : Obligations.MixerLevels := by
  intro cfg c
  refine ⟨fun ch => ⟨fun henv => ?_, fun henv hvol => ?_, fun henv hvol => ?_, fun _ _ => gate_of_override,
    gate_of_no_override, levelCode_of_mute cfg, fun _ => levelCode_of_drum cfg, levelCode_of_normal cfg⟩,
    rfl, fun htable => mix_le htable c⟩
  · rw [levelIndex_of_envSelect henv, toNat_envLevel]
  · exact (toNat_levelIndex_of_volume henv).trans (if_pos hvol)
  · exact (toNat_levelIndex_of_volume henv).trans (if_neg hvol)

/-! ### The DC window -/

/-- What the DC window holds after the mixes `ms`, from a window of zeros: read from its oldest slot on, the last `W`
of the zeros and `ms` (44_mixer_chip.md R94). -/
structure HoldsLastMixes (W : Nat) (ms : List Nat) (c : ChipState) : Prop where
  len   : c.dcbuf.length = W
  pos   : c.dcpos = ms.length % W
  sum   : c.dcsum = c.dcbuf.sum
  slots : c.dcbuf.rotate c.dcpos = (List.replicate W 0 ++ ms).drop ms.length

/-- Writing the oldest slot and stepping past it drops the oldest entry and appends the new one. -/
theorem rotate_succ_set {l : List Nat} {i : Nat} (hi : i < l.length) (m : Nat) :
    (l.set i m).rotate (i + 1) = (l.rotate i).tail ++ [m] := by
  have hset : (l.set i m).take (i + 1) = l.take i ++ [m] := by
    rw [List.take_succ_eq_append_getElem (by simpa using hi), List.take_set_of_le le_rfl, List.getElem_set_self]
  have htail : (l.drop i ++ l.take i).tail = l.drop (i + 1) ++ l.take i := by
    rw [List.drop_eq_getElem_cons hi, List.cons_append, List.tail_cons]
  rw [List.rotate_eq_drop_append_take (by simpa using hi), List.rotate_eq_drop_append_take hi.le, htail, hset,
    List.drop_set_of_lt (Nat.lt_succ_self i), List.append_assoc]

theorem rotate_dcUpdate {cfg : Config} {c : ChipState} (hpos : c.dcpos < c.dcbuf.length)
    (hlen : c.dcbuf.length = cfg.dcWindow) (m : Nat) :
    (dcUpdate cfg m c).dcbuf.rotate (dcUpdate cfg m c).dcpos = (c.dcbuf.rotate c.dcpos).tail ++ [m] := by
  rw [← rotate_succ_set hpos, dcUpdate, ← hlen, ← List.length_set (i := c.dcpos) (a := m), List.rotate_mod]

theorem HoldsLastMixes.after_dcUpdate {cfg : Config} (hW : 1 ≤ cfg.dcWindow) {ms : List Nat} {c : ChipState}
    (h : HoldsLastMixes cfg.dcWindow ms c) (m : Nat) :
    HoldsLastMixes cfg.dcWindow (ms ++ [m]) (dcUpdate cfg m c) := by
  have hpos : c.dcpos < c.dcbuf.length := by rw [h.len, h.pos]; exact Nat.mod_lt _ hW
  have hlen : ms.length + 1 ≤ (List.replicate cfg.dcWindow 0 ++ ms).length := by
    rw [List.length_append, List.length_replicate]
    omega
  refine { len := List.length_set.trans h.len, pos := by simp [dcUpdate, h.pos], sum := ?_, slots := ?_ }
  · have := sum_set c.dcbuf c.dcpos m hpos
    simp only [dcUpdate, h.sum]
    omega
  · rw [rotate_dcUpdate hpos h.len, h.slots, List.tail_drop, List.length_append, List.length_singleton,
      ← List.append_assoc, List.drop_append_of_le_length hlen]

theorem HoldsLastMixes.after_foldl {cfg : Config} (hW : 1 ≤ cfg.dcWindow) {c : ChipState}
    (h : HoldsLastMixes cfg.dcWindow [] c) (ms : List Nat) :
    HoldsLastMixes cfg.dcWindow ms (ms.foldl (fun c m => dcUpdate cfg m c) c) := by
  induction ms using List.reverseRecOn with
  | nil => exact h
  | append_singleton ms m ih =>
    rw [List.foldl_append]
    exact ih.after_dcUpdate hW m

theorem HoldsLastMixes.sum_dcbuf {W : Nat} {ms : List Nat} {c : ChipState} (h : HoldsLastMixes W ms c) :
    c.dcbuf.sum = (ms.reverse.take W).sum := by
  calc c.dcbuf.sum = (c.dcbuf.rotate c.dcpos).sum := (List.rotate_perm _ _).sum_eq.symm
    _ = (ms.drop (ms.length - W)).sum := by rw [h.slots, List.drop_append]; simp
    _ = (ms.reverse.take W).sum := by rw [List.take_reverse, List.sum_reverse]

/-- Settles O28, by induction over the mixes, the newest last. -/
theorem dcWindow : Obligations.DcWindow := by
  refine ⟨fun _ _ _ => rfl, fun cfg c hW hbuf hsum hpos ms => ?_⟩
  have hstart : HoldsLastMixes cfg.dcWindow [] c :=
    { len := by simp [hbuf], pos := by simp [hpos], sum := by simp [hsum, hbuf], slots := by simp [hpos, hbuf] }
  have h := hstart.after_foldl hW ms
  exact ⟨h.sum.trans h.sum_dcbuf, h.sum_dcbuf, h.pos⟩

/-! ### CLOCK and CHIP_GENERATE -/

theorem SameButGenerators.eq {c d : ChipState} (h : SameButGenerators c d) :
    d = { c with tcnt := d.tcnt, tout := d.tout, ncnt := d.ncnt, lfsr := d.lfsr, ecnt := d.ecnt, estep := d.estep,
                 eup := d.eup, ehold := d.ehold } := by
  obtain ⟨hreg, hsub, hdcbuf, hdcsum, hdcpos, hsample, hovr, hdrum, hmute⟩ := h
  cases d
  simp_all

/-- Settles O32: the due ticks change the generators alone, so that the DC window they leave is the one before them. -/
theorem clockCommand : Obligations.ClockCommand := by
  intro s h
  have hsame := ticks_same s.cfg ((s.chip.sub + s.cfg.masterClock) / (8 * s.cfg.sampleRate))
    { s.chip with sub := (s.chip.sub + s.cfg.masterClock) % (8 * s.cfg.sampleRate) }
  refine ⟨_, _, rfl, hsame.eq, exec_clock h, congrArg s.setChip ?_, rfl⟩
  rw [← hsame.dcsum, ← hsame.dcbuf, ← hsame.dcpos]
  rfl

/-- `n` CLOCKs and the latch after each (44_mixer_chip.md R106). -/
theorem generateChip_eq (cfg : Config) (n : Nat) (c : ChipState) :
    generateChip cfg n c =
      ((clockChip cfg)^[n] c, (List.range n).map fun i => ((clockChip cfg)^[i + 1] c).sample) := by
  induction n generalizing c with
  | zero => rfl
  | succ n ih =>
    rw [generateChip, ih, List.range_succ_eq_map, List.map_cons, List.map_map]
    rfl

/-- Settles O33, by induction on COUNT. -/
theorem chipGenerate : Obligations.ChipGenerate := by
  intro s n h
  rw [exec_chipGenerate h, generateChip_eq]

end Sys2Proof.Machine
end

section
/-! Proofs about engine construction, frame timing and frame loads (45_playback.md R116 to R119). -/

namespace Sys2Proof.Machine

/-! ### Engine construction -/

theorem frameCount_ne_zero {cfg : Config} (h : cfg.frames ≠ []) : frameCount cfg ≠ 0 :=
  fun h0 => h (List.length_eq_zero_iff.1 h0)

theorem constructEngine_of_loop_out_of_range {cfg : Config} {l : Nat} (hf : cfg.frames ≠ [])
    (hl : cfg.loopPoint = some l) (hle : frameCount cfg ≤ l) :
    constructEngine cfg = .error .loopPointOutOfRange := by
  rw [constructEngine, if_neg (frameCount_ne_zero hf), if_pos (by simp [hl, hle])]

/-- Without a configuration error the two rates decide (R116, 60_exceptions.md R152 item 2). -/
theorem constructEngine_of_no_error {cfg : Config} (hf : cfg.frames ≠ [])
    (hl : ∀ l, cfg.loopPoint = some l → l < frameCount cfg) :
    constructEngine cfg =
      if cfg.sampleRate < cfg.tickRate then .refused .frameTooShort
      else .built
        { state := .idle, cursor := 0, sif := 0, flen := 0, racc := 0, slot := PerCh.all .empty,
          seen := PerCh.all false, fxq := none } := by
  have hloop : ¬ cfg.loopPoint.any (fun l => decide (frameCount cfg ≤ l)) = true := by
    cases h : cfg.loopPoint with
    | none => simp
    | some l => simpa using hl l h
  rw [constructEngine, if_neg (frameCount_ne_zero hf), if_neg hloop]

/-- Settles O8, by the branches of `constructEngine` in their order. -/
theorem engineConstruction : Obligations.EngineConstruction := by
  refine ⟨fun cfg hf => ?_, fun cfg l => constructEngine_of_loop_out_of_range,
    fun cfg hf hl => ⟨fun h => ?_, fun h => ?_⟩,
    fun cfg => ⟨fun h => ?_, fun l h => ?_, fun b h => ?_, fun h => ?_⟩, rfl, rfl⟩
  · exact if_pos (List.length_eq_zero_iff.2 hf)
  · rw [constructEngine_of_no_error hf hl, if_pos h]
  · rw [constructEngine_of_no_error hf hl, if_neg (Nat.not_lt.2 h)]
  · rw [loopStart, h]; rfl
  · rw [loopStart, h]; rfl
  · rw [loopEnabled, h]; rfl
  · rw [loopEnabled, h]; rfl

/-! ### Frame lengths (R117) -/

/-- What a frame's length takes off the samples due, its remainder keeps. -/
theorem frameLen_balance (cfg : Config) (e : EngineState) :
    (frameLen cfg e).racc + cfg.tickRate * (frameLen cfg e).flen = e.racc + cfg.sampleRate := by
  have hdiv := Nat.div_add_mod cfg.sampleRate cfg.tickRate
  unfold frameLen
  dsimp only
  split
  · dsimp only
    rw [Nat.mul_add_one]
    omega
  · dsimp only
    omega

theorem racc_frameLen_lt {cfg : Config} {e : EngineState} (ht : 0 < cfg.tickRate) (h : e.racc < cfg.tickRate) :
    (frameLen cfg e).racc < cfg.tickRate := by
  have hmod := Nat.mod_lt cfg.sampleRate ht
  unfold frameLen
  dsimp only
  split
  · dsimp only; omega
  · exact Nat.not_le.1 ‹_›

/-- The sum of the next `n` frame lengths. -/
def frameLenSum (cfg : Config) (e : EngineState) (n : Nat) : Nat :=
  ((List.range n).map fun i => ((frameLen cfg)^[i + 1] e).flen).sum

theorem frameLenSum_succ (cfg : Config) (e : EngineState) (n : Nat) :
    frameLenSum cfg e (n + 1) = frameLenSum cfg e n + ((frameLen cfg)^[n + 1] e).flen := by
  simp [frameLenSum, List.range_succ]

/-- `n` frames and the remainder they leave account for `n` times SAMPLE_RATE: no drift. -/
theorem frameLenSum_balance (cfg : Config) {e : EngineState} (h : e.racc = 0) (n : Nat) :
    ((frameLen cfg)^[n] e).racc + cfg.tickRate * frameLenSum cfg e n = n * cfg.sampleRate := by
  induction n with
  | zero => simpa [frameLenSum] using h
  | succ n ih =>
    have hstep := frameLen_balance cfg ((frameLen cfg)^[n] e)
    rw [frameLenSum_succ, Function.iterate_succ_apply', Nat.mul_add, Nat.add_one_mul]
    omega

theorem racc_iterate_frameLen_lt {cfg : Config} {e : EngineState} (ht : 0 < cfg.tickRate) (h : e.racc = 0) (n : Nat) :
    ((frameLen cfg)^[n] e).racc < cfg.tickRate := by
  induction n with
  | zero => rw [Function.iterate_zero_apply, h]; exact ht
  | succ n ih => rw [Function.iterate_succ_apply']; exact racc_frameLen_lt ht ih

/-- Settles O34: the sum and the remainder are quotient and remainder of `n * SR` by TR. -/
theorem frameLengths : Obligations.FrameLengths := by
  refine ⟨fun _ _ => rfl, fun cfg e ht hle h n => ?_⟩
  have hbalance := frameLenSum_balance cfg h n
  have hlt := racc_iterate_frameLen_lt ht h n
  obtain ⟨hsum, hracc⟩ := (Nat.div_mod_unique ht).2 ⟨hbalance, hlt⟩
  have hlen := frameLen_flen cfg ((frameLen cfg)^[n] e)
  have hpos := Nat.div_pos hle ht
  rw [Function.iterate_succ_apply']
  exact ⟨hsum.symm, by rw [Nat.mul_mod_mod, hracc], by omega, hlen⟩

/-! ### The register writes of a frame load (R118) -/

/-- The frame leaves R13 and the envelope alone. -/
abbrev SkipsR13 (cfg : Config) (b : Bytes16) : Prop := cfg.frameR13SkipFf = true ∧ regAt b 13 = 0xFF

/-- Without the skip a frame load writes the registers as LOAD_REGS does. -/
theorem loadFrameRegs_of_not_skip {cfg : Config} {b : Bytes16} (h : ¬ SkipsR13 cfg b) (c : ChipState) :
    loadFrameRegs cfg b c = loadRegs b c := by
  have hreg : loadFrameReg cfg b = fun c a => writeReg a (regAt b a) c := by
    funext c a
    exact if_neg fun hskip => h hskip.2
  rw [loadFrameRegs, hreg, foldl_writeReg_allRegs]

/-- With the skip a frame load is the masked writes of the registers other than R13. -/
theorem loadFrameRegs_of_skip {cfg : Config} {b : Bytes16} (h : SkipsR13 cfg b) (c : ChipState) :
    loadFrameRegs cfg b c =
      (allRegs.filter (· ≠ 13)).foldl (fun c a => maskedWrite a (regAt b a) c) c := by
  have hreg : loadFrameReg cfg b = fun c a => if decide (a ≠ 13) then maskedWrite a (regAt b a) c else c := by
    funext c a
    by_cases ha : a = 13 <;> simp [loadFrameReg, writeReg_ne, ha, h.1, h.2]
  rw [loadFrameRegs, hreg, List.foldl_filter]

theorem loadFrameRegs_frame_of_skip {cfg : Config} {b : Bytes16} (h : SkipsR13 cfg b) (c : ChipState) :
    loadFrameRegs cfg b c = { c with reg := (loadFrameRegs cfg b c).reg } := by
  rw [loadFrameRegs_of_skip h]
  exact foldl_maskedWrite_eq _ _ _

theorem regAt_loadFrameRegs_of_skip {cfg : Config} {b : Bytes16} (h : SkipsR13 cfg b) (c : ChipState) (a : RegNum) :
    regAt (loadFrameRegs cfg b c).reg a = if a = 13 then regAt c.reg 13 else regAt b a &&& regMask a := by
  rw [loadFrameRegs_of_skip h, regAt_foldl_maskedWrite b _ (nodup_allRegs.filter _)]
  by_cases ha : a = 13 <;> simp [ha, mem_allRegs]

/-- The registers after a frame load: the frame's masked bytes, R13 aside when it is skipped. -/
theorem regAt_loadFrameRegs {cfg : Config} {b : Bytes16} {a : RegNum} (h : ¬ (a = 13 ∧ SkipsR13 cfg b)) (c : ChipState) :
    regAt (loadFrameRegs cfg b c).reg a = regAt b a &&& regMask a := by
  by_cases hskip : SkipsR13 cfg b
  · rw [regAt_loadFrameRegs_of_skip hskip, if_neg fun ha => h ⟨ha, hskip⟩]
  · rw [loadFrameRegs_of_not_skip hskip, regAt_loadRegs]

theorem loadFrameRegs_frame_of_not_skip {cfg : Config} {b : Bytes16} (h : ¬ SkipsR13 cfg b) (c : ChipState) :
    loadFrameRegs cfg b c =
      { c with reg := (loadFrameRegs cfg b c).reg, ecnt := 0, estep := 0, eup := (regAt b 13).getLsbD 2,
               ehold := false } := by
  rw [loadFrameRegs_of_not_skip h, ← eup_loadRegs b c]
  exact loadRegs_frame b c

theorem frameAt_of_getElem? {cfg : Config} {k : Nat} {f : Frame} (h : cfg.frames[k]? = some f) : frameAt cfg k = f := by
  rw [frameAt, List.getD_eq_getElem?_getD, h]
  rfl

/-- The player in the middle of FRAME_LOAD: the registers are written and FRAME_LEN is done, the effect words are still
to take (R118). -/
def beforeDecode (cfg : Config) (k : Nat) (p : Player) : Player :=
  { chip := loadFrameRegs cfg (frameAt cfg k).bytes p.chip, eng := frameLen cfg p.eng }

theorem frameLoad_eq (cfg : Config) (k : Nat) (p : Player) :
    frameLoad cfg k p = fxDecode cfg (frameAt cfg k).fx (beforeDecode cfg k p) := rfl

/-- Settles O35: with the skip the register writes pass over R13, without it they are a LOAD_REGS. -/
protected theorem Playback.frameLoad : Obligations.FrameLoad := by
  intro cfg k p
  exact ⟨fun f => frameAt_of_getElem?, _, frameLoad_eq cfg k p, fun a h => regAt_loadFrameRegs h p.chip,
    fun h => ⟨regAt_loadFrameRegs_of_skip h p.chip 13, loadFrameRegs_frame_of_skip h p.chip⟩,
    fun h => loadFrameRegs_frame_of_not_skip h p.chip⟩

end Sys2Proof.Machine
end

section
/-! Proofs about the engine's samples and commands (45_playback.md R119 to R127). -/

namespace Sys2Proof.Machine

/-! ### What the effects and a frame load leave of the sequencer -/

/-- The playback state and the frame counters are the same in `p` and `q`. -/
structure SameSequencer (p q : Player) : Prop where
  state  : q.eng.state = p.eng.state
  cursor : q.eng.cursor = p.eng.cursor
  sif    : q.eng.sif = p.eng.sif
  flen   : q.eng.flen = p.eng.flen
  racc   : q.eng.racc = p.eng.racc

theorem SameSequencer.trans {p q r : Player} (h : SameSequencer p q) (k : SameSequencer q r) : SameSequencer p r :=
  ⟨k.state.trans h.state, k.cursor.trans h.cursor, k.sif.trans h.sif, k.flen.trans h.flen, k.racc.trans h.racc⟩

theorem ByEffects.sameSequencer {cfg : Config} {p q : Player} (h : ByEffects cfg p q) : SameSequencer p q :=
  ⟨h.state, h.cursor, h.sif, h.flen, h.racc⟩

theorem ByEvents.sameSequencer {ch : Ch} {p q : Player} (h : ByEvents ch p q) : SameSequencer p q :=
  ⟨h.state, h.cursor, h.sif, h.flen, h.racc⟩

theorem onChip_sameSequencer (f : ChipState → ChipState) (p : Player) : SameSequencer p (p.onChip f) :=
  ⟨rfl, rfl, rfl, rfl, rfl⟩

theorem releaseAll_sameSequencer (p : Player) : SameSequencer p (releaseAll p) :=
  (releaseAll_byEffects Config.default p).sameSequencer

theorem fxAdvance_sameSequencer (cfg : Config) (p : Player) : SameSequencer p (fxAdvance cfg p) :=
  (fxAdvanceCh_byEvents cfg .A p).sameSequencer.trans
    ((fxAdvanceCh_byEvents cfg .B _).sameSequencer.trans (fxAdvanceCh_byEvents cfg .C _).sameSequencer)

/-- FX_DECODE reads no sample rate, so that what it does under a positive one it does under any. -/
theorem fxDecode_byEffects_unitRate (cfg : Config) (ws : List Word) (p : Player) :
    ByEffects { cfg with sampleRate := 1 } p (fxDecode cfg ws p) :=
  fxDecode_byEffects { cfg with sampleRate := 1 } ws p Nat.one_pos

/-- FRAME_LEN changes the remainder and the length alone (R117). -/
theorem frameLen_frame (cfg : Config) (e : EngineState) :
    frameLen cfg e = { e with racc := (frameLen cfg e).racc, flen := (frameLen cfg e).flen } := by
  unfold frameLen
  dsimp only
  split <;> rfl

theorem state_frameLoad (cfg : Config) (k : Nat) (p : Player) : (frameLoad cfg k p).eng.state = p.eng.state := by
  rw [frameLoad_eq, (fxDecode_byEffects_unitRate ..).state, beforeDecode, frameLen_frame]

theorem cursor_frameLoad (cfg : Config) (k : Nat) (p : Player) : (frameLoad cfg k p).eng.cursor = p.eng.cursor := by
  rw [frameLoad_eq, (fxDecode_byEffects_unitRate ..).cursor, beforeDecode, frameLen_frame]

theorem sif_frameLoad (cfg : Config) (k : Nat) (p : Player) : (frameLoad cfg k p).eng.sif = p.eng.sif := by
  rw [frameLoad_eq, (fxDecode_byEffects_unitRate ..).sif, beforeDecode, frameLen_frame]

/-! ### SAMPLE_STEP (R119) -/

/-- The player after a sample's CLOCK and FX_ADVANCE, before the frame counter. -/
def advanceSample (cfg : Config) (p : Player) : Player := fxAdvance cfg (p.onChip (clockChip cfg))

theorem advanceSample_sameSequencer (cfg : Config) (p : Player) : SameSequencer p (advanceSample cfg p) :=
  (onChip_sameSequencer _ p).trans (fxAdvance_sameSequencer cfg _)

section

variable {cfg : Config} {p : Player}

theorem sampleStep_within_frame (h : p.eng.sif + 1 ≠ p.eng.flen) :
    sampleStep cfg p = (advanceSample cfg p).onEng fun e => { e with sif := p.eng.sif + 1 } := by
  have hsame := advanceSample_sameSequencer cfg p
  rw [← hsame.sif, ← hsame.flen] at h
  rw [← hsame.sif]
  exact if_neg h

theorem sampleStep_frame_end (h : p.eng.sif + 1 = p.eng.flen) :
    sampleStep cfg p = endFrame cfg (advanceSample cfg p) := by
  have hsame := advanceSample_sameSequencer cfg p
  rw [← hsame.sif, ← hsame.flen] at h
  exact if_pos h

theorem endFrame_next (h : p.eng.cursor + 1 ≠ frameCount cfg) :
    endFrame cfg p =
      frameLoad cfg (p.eng.cursor + 1) (p.onEng fun e => { e with sif := 0, cursor := p.eng.cursor + 1 }) := if_neg h

theorem endFrame_loop (h : p.eng.cursor + 1 = frameCount cfg) (hl : loopEnabled cfg = true) :
    endFrame cfg p =
      frameLoad cfg (loopStart cfg) (p.onEng fun e => { e with sif := 0, cursor := loopStart cfg }) :=
  (if_pos h).trans (if_pos hl)

theorem endFrame_finish (h : p.eng.cursor + 1 = frameCount cfg) (hl : loopEnabled cfg = false) :
    endFrame cfg p =
      releaseAll (p.onEng fun e => { e with sif := 0, cursor := frameCount cfg, state := .finished }) := by
  rw [← h]
  exact (if_pos h).trans (if_neg (by simp [hl]))

end

/-- Settles O36: the branches of the frame counter, which FX_ADVANCE leaves as it was. -/
protected theorem Playback.sampleStep : Obligations.SampleStep := by
  intro cfg p
  have hcursor := (advanceSample_sameSequencer cfg p).cursor
  refine ⟨sampleStep_within_frame, fun hend hnext => ?_, fun hend hlast hloop => ?_, fun hend hlast hloop => ?_, rfl⟩
  · rw [sampleStep_frame_end hend, endFrame_next (by rwa [hcursor]), hcursor]
    rfl
  · rw [sampleStep_frame_end hend, endFrame_loop (by rwa [hcursor]) hloop]
    rfl
  · rw [sampleStep_frame_end hend, endFrame_finish (by rwa [hcursor]) hloop]
    rfl

/-- A sample ends the playback exactly when it ends the last frame of a song that does not loop (R127). -/
theorem state_sampleStep (cfg : Config) (p : Player) :
    (sampleStep cfg p).eng.state =
      if p.eng.sif + 1 = p.eng.flen ∧ p.eng.cursor + 1 = frameCount cfg ∧ loopEnabled cfg = false then .finished
      else p.eng.state := by
  have hsame := advanceSample_sameSequencer cfg p
  by_cases hend : p.eng.sif + 1 = p.eng.flen
  · rw [sampleStep_frame_end hend]
    by_cases hlast : p.eng.cursor + 1 = frameCount cfg
    · cases hloop : loopEnabled cfg with
      | false =>
        rw [endFrame_finish (by rwa [hsame.cursor]) hloop, (releaseAll_sameSequencer _).state, if_pos ⟨hend, hlast, rfl⟩]
        rfl
      | true =>
        rw [endFrame_loop (by rwa [hsame.cursor]) hloop, state_frameLoad, if_neg (by simp)]
        exact hsame.state
    · rw [endFrame_next (by rwa [hsame.cursor]), state_frameLoad, if_neg fun h => hlast h.2.1]
      exact hsame.state
  · rw [sampleStep_within_frame hend, if_neg fun h => hend h.1]
    exact hsame.state

/-! ### The engine's commands, issued with the access -/

section

variable {s : State}

theorem exec_pbPlay (h : s.issuer = .producer) : exec .pbPlay s = .next (s.setPlayer (play s.cfg s.player)) :=
  owned_of_producer h _

theorem exec_pbPause (h : s.issuer = .producer) : exec .pbPause s = .next (s.setPlayer (pause s.player)) :=
  owned_of_producer h _

theorem exec_pbStop (h : s.issuer = .producer) : exec .pbStop s = .next (s.setPlayer (stop s.player)) :=
  owned_of_producer h _

theorem exec_pbGenerate (h : s.issuer = .producer) (n : Count) :
    exec (.pbGenerate n) s =
      .next ((s.setPlayer (generateEngine s.cfg n.toNat s.player).1).deliver .producer
        (.samples (generateEngine s.cfg n.toNat s.player).2)) := by
  rw [← h]; exact owned_of_producer h _

theorem exec_pbSeek (h : s.issuer = .producer) (n : Count) :
    exec (.pbSeek n) s = .next (s.setPlayer (seek s.cfg n.toNat s.player)) := owned_of_producer h _

theorem exec_pbPosition (h : s.allows .reader) :
    exec .pbPosition s = .next (s.deliver s.issuer (.sample (f32 s.eng.cursor (frameCount s.cfg)))) :=
  inspected_of_allows h _

theorem exec_pbState (h : s.allows .reader) :
    exec .pbState s = .next (s.deliver s.issuer (.byte (stateCode s.eng.state))) := inspected_of_allows h _

end

/-! ### PLAY and PAUSE (R120, R121) -/

section

variable {p : Player}

/-- Where PLAY from Idle or Finished starts: the current frame, frame 0 when the song is over (R120). -/
def playStart (cfg : Config) (p : Player) : Nat := if p.eng.cursor = frameCount cfg then 0 else p.eng.cursor

theorem play_of_stopped (cfg : Config) (h : p.eng.state = .idle ∨ p.eng.state = .finished) :
    play cfg p =
      (frameLoad cfg (playStart cfg p) (p.onEng fun e => { e with cursor := playStart cfg p, sif := 0 })).onEng
        fun e => { e with state := .playing } := by
  unfold play
  rcases h with h | h <;> rw [h] <;> rfl

theorem play_of_paused (cfg : Config) (h : p.eng.state = .paused) :
    play cfg p = p.onEng fun e => { e with state := .playing } := by
  unfold play; rw [h]

theorem play_of_playing (cfg : Config) (h : p.eng.state = .playing) : play cfg p = p := by
  unfold play; rw [h]

theorem state_play (cfg : Config) (p : Player) : (play cfg p).eng.state = .playing := by
  cases h : p.eng.state with
  | idle => rw [play_of_stopped cfg (.inl h)]; rfl
  | playing => rw [play_of_playing cfg h, h]
  | paused => rw [play_of_paused cfg h]; rfl
  | finished => rw [play_of_stopped cfg (.inr h)]; rfl

theorem pause_of_playing (h : p.eng.state = .playing) : pause p = p.onEng fun e => { e with state := .paused } := by
  unfold pause; rw [h]

theorem pause_of_ne_playing (h : p.eng.state ≠ .playing) : pause p = p := by
  unfold pause
  split
  · exact absurd ‹_› h
  all_goals rfl

theorem state_pause (p : Player) :
    (pause p).eng.state = if p.eng.state = .playing then .paused else p.eng.state := by
  split
  · rw [pause_of_playing ‹_›]; rfl
  · rw [pause_of_ne_playing ‹_›]

/-- PLAY after PAUSE gives the player that was paused (R121). -/
theorem play_pause (cfg : Config) (h : p.eng.state = .playing) : play cfg (pause p) = p := by
  rw [pause_of_playing h, play_of_paused cfg rfl]
  simp only [Player.onEng, ← h]

end

/-- Settles O37: the cases of `play`. -/
theorem playCommand : Obligations.PlayCommand := by
  intro s h
  refine ⟨exec_pbPlay h, fun hst => ?_, fun hst => ?_, fun hst => ⟨_, rfl, ?_⟩⟩
  · rw [exec_pbPlay h, play_of_playing _ hst, State.setPlayer_player]
  · rw [exec_pbPlay h, play_of_paused _ hst]
    rfl
  · rw [exec_pbPlay h, play_of_stopped _ hst]
    rfl

theorem state_seek (cfg : Config) (target : Nat) (p : Player) : (seek cfg target p).eng.state = p.eng.state :=
  (state_frameLoad ..).trans (releaseAll_sameSequencer p).state

/-- Settles O38: the playback state after each command, and after a sample. -/
theorem playbackTransitions : Obligations.PlaybackTransitions := by
  refine ⟨fun s h => ⟨⟨_, exec_pbPlay h, state_play s.cfg s.player⟩, ⟨_, exec_pbPause h, state_pause s.player⟩,
    ⟨_, exec_pbStop h, rfl⟩, fun n => ⟨_, exec_pbSeek h n, state_seek s.cfg n.toNat s.player⟩⟩,
    fun s h => ?_, fun cfg p hst => ?_⟩
  · rw [exec_pbState h]
    cases s.eng.state <;> rfl
  · rw [state_sampleStep, hst]

/-! ### STOP (R122) -/

/-- What a release leaves of the mixer override of a channel whose slot is `x` (46_effects.md R130). -/
def Slot.releasedOvr (x : Slot) (o : Option Override) : Option Override :=
  match x with
  | .sid _ _ _ | .buzz _ _ => none
  | .empty | .drum _ _ _ _ => o

/-- What a release leaves of the drum override of a channel whose slot is `x` (46_effects.md R130). -/
def Slot.releasedDrum (x : Slot) (b : Option Byte) : Option Byte :=
  match x with
  | .drum _ _ _ _ => none
  | .empty | .sid _ _ _ | .buzz _ _ => b

theorem get_eq_ite_get {α : Type} (x : PerCh α) (ch d : Ch) : x.get d = if d = ch then x.get ch else x.get d := by
  split
  · rw [‹d = ch›]
  · rfl

theorem ovr_release (ch d : Ch) (p : Player) :
    (release ch p).chip.ovr.get d =
      if d = ch then (p.slotOf ch).releasedOvr (p.chip.ovr.get ch) else p.chip.ovr.get d := by
  unfold release
  cases p.slotOf ch with
  | empty | drum => exact get_eq_ite_get _ ch d
  | sid | buzz => exact PerCh.get_set _ ch d _

theorem drum_release (ch d : Ch) (p : Player) :
    (release ch p).chip.drum.get d =
      if d = ch then (p.slotOf ch).releasedDrum (p.chip.drum.get ch) else p.chip.drum.get d := by
  unfold release
  cases p.slotOf ch with
  | drum => exact PerCh.get_set _ ch d _
  | empty | sid | buzz => exact get_eq_ite_get _ ch d

theorem ovr_releaseAll (d : Ch) (p : Player) :
    (releaseAll p).chip.ovr.get d = (p.slotOf d).releasedOvr (p.chip.ovr.get d) := by
  cases d <;> simp [releaseAll, ovr_release, slotOf_release]

theorem drum_releaseAll (d : Ch) (p : Player) :
    (releaseAll p).chip.drum.get d = (p.slotOf d).releasedDrum (p.chip.drum.get d) := by
  cases d <;> simp [releaseAll, drum_release, slotOf_release]

/-- `q` is `p` but for the overrides and the slots: the reach of a release. -/
structure SameButReleased (p q : Player) : Prop where
  chip : q.chip = { p.chip with ovr := q.chip.ovr, drum := q.chip.drum }
  eng  : q.eng = { p.eng with slot := q.eng.slot }

theorem SameButReleased.trans {p q r : Player} (h : SameButReleased p q) (k : SameButReleased q r) :
    SameButReleased p r where
  chip := by rw [k.chip, h.chip]
  eng := by rw [k.eng, h.eng]

theorem release_frame (ch : Ch) (p : Player) : SameButReleased p (release ch p) := by
  unfold release
  split <;> exact ⟨rfl, rfl⟩

theorem releaseAll_frame (p : Player) : SameButReleased p (releaseAll p) :=
  (release_frame .A p).trans ((release_frame .B _).trans (release_frame .C _))

theorem slot_releaseAll (p : Player) : (releaseAll p).eng.slot = PerCh.all .empty :=
  PerCh.ext_get fun ch => by rw [PerCh.get_all]; exact slotOf_releaseAll ch p

/-- The engine after STOP (R122). -/
theorem eng_stop (p : Player) :
    (stop p).eng = { p.eng with state := .idle, cursor := 0, sif := 0, racc := 0, slot := PerCh.all .empty } := by
  have heng := (releaseAll_frame p).eng
  rw [slot_releaseAll] at heng
  rw [stop, Player.onEng, heng]

/-- Settles O40: STOP's release clears the overrides that effects held. -/
theorem stopCommand : Obligations.StopCommand := by
  intro s h
  refine ⟨_, exec_pbStop h, eng_stop s.player, fun ch => ?_, fun ch => ?_, ?_⟩
  · refine (ovr_releaseAll ch s.player).trans ?_
    change (s.eng.slot.get ch).releasedOvr _ = _
    cases s.eng.slot.get ch <;> rfl
  · refine (drum_releaseAll ch s.player).trans ?_
    change (s.eng.slot.get ch).releasedDrum _ = _
    cases s.eng.slot.get ch <;> rfl
  · exact congrArg (fun c => s.setPlayer ⟨c, (stop s.player).eng⟩) (releaseAll_frame s.player).chip

/-! ### SEEK (R125) -/

/-- What runs on through a frame load is the same in `c` and `d`: the generators' phases, the LFSR, the sub-clock, the
DC window, the latch and the mutes. -/
structure KeepsPhases (c d : ChipState) : Prop where
  tcnt   : d.tcnt = c.tcnt
  tout   : d.tout = c.tout
  ncnt   : d.ncnt = c.ncnt
  lfsr   : d.lfsr = c.lfsr
  sub    : d.sub = c.sub
  dcbuf  : d.dcbuf = c.dcbuf
  dcsum  : d.dcsum = c.dcsum
  dcpos  : d.dcpos = c.dcpos
  sample : d.sample = c.sample
  mute   : d.mute = c.mute

theorem KeepsPhases.trans {c d e : ChipState} (h : KeepsPhases c d) (k : KeepsPhases d e) : KeepsPhases c e :=
  ⟨k.tcnt.trans h.tcnt, k.tout.trans h.tout, k.ncnt.trans h.ncnt, k.lfsr.trans h.lfsr, k.sub.trans h.sub,
    k.dcbuf.trans h.dcbuf, k.dcsum.trans h.dcsum, k.dcpos.trans h.dcpos, k.sample.trans h.sample, k.mute.trans h.mute⟩

theorem SameButHooks.keepsPhases {c d : ChipState} (h : SameButHooks c d) : KeepsPhases c d :=
  ⟨h.tcnt, h.tout, h.ncnt, h.lfsr, h.sub, h.dcbuf, h.dcsum, h.dcpos, h.sample, h.mute⟩

theorem loadFrameRegs_keepsPhases (cfg : Config) (b : Bytes16) (c : ChipState) :
    KeepsPhases c (loadFrameRegs cfg b c) := by
  by_cases h : SkipsR13 cfg b
  · rw [loadFrameRegs_frame_of_skip h]
    exact ⟨rfl, rfl, rfl, rfl, rfl, rfl, rfl, rfl, rfl, rfl⟩
  · rw [loadFrameRegs_frame_of_not_skip h]
    exact ⟨rfl, rfl, rfl, rfl, rfl, rfl, rfl, rfl, rfl, rfl⟩

theorem frameLoad_keepsPhases (cfg : Config) (k : Nat) (p : Player) : KeepsPhases p.chip (frameLoad cfg k p).chip :=
  (loadFrameRegs_keepsPhases cfg _ p.chip).trans
    (fxDecode_byEffects_unitRate cfg _ (beforeDecode cfg k p)).chip.keepsPhases

/-- No effect starts a Buzz from this word: it is no SYNCBUZZ word, or its channel or its rate is invalid (46_effects.md
R131). -/
abbrev NoBuzzWord (w : Word) : Prop := w.toNat / 2 ^ 30 ≠ 3 ∨ w.toNat / 2 ^ 28 % 4 = 3 ∨ w.toNat % 2 ^ 20 = 0

theorem toNat_fchField (w : Word) : (fchField w).toNat = w.toNat / 2 ^ 28 % 4 := by
  simp [fchField, field]

theorem rateField_of_mod {w : Word} (h : w.toNat % 2 ^ 20 = 0) : rateField w = 0 :=
  BitVec.eq_of_toNat_eq (by simpa [rateField, field] using h)

theorem fxSyncbuzz_of_noBuzzWord {w : Word} (h : w.toNat / 2 ^ 28 % 4 = 3 ∨ w.toNat % 2 ^ 20 = 0) (p : Player) :
    fxSyncbuzz (fchField w) (rateField w) p = p := by
  unfold fxSyncbuzz
  rcases h with hch | hrate
  · rw [toNat_fchField, hch]
    rfl
  · rw [rateField_of_mod hrate]
    split <;> rfl

theorem sameEnv_fxDigidrum (cfg : Config) (fch : BitVec 2) (id : Byte) (rate : BitVec 20) (p : Player) :
    SameEnv p.chip (fxDigidrum cfg fch id rate p).chip := by
  unfold fxDigidrum
  split
  · split
    · exact .refl _
    · exact (sameEnv_release _ p).trans ⟨rfl, rfl, rfl, rfl⟩
  · exact .refl _

theorem sameEnv_fxSid (fch : BitVec 2) (rate : BitVec 20) (p : Player) :
    SameEnv p.chip (fxSid fch rate p).chip := by
  unfold fxSid
  split
  · split
    · exact .refl _
    · split
      · exact .refl _
      · exact (sameEnv_release _ (p.markSeen _)).trans ⟨rfl, rfl, rfl, rfl⟩
  · exact .refl _

theorem sameEnv_fxWord (cfg : Config) {w : Word} (h : NoBuzzWord w) (p : Player) :
    SameEnv p.chip (fxWord cfg w p).chip := by
  unfold fxWord
  split
  · exact .refl _
  · exact sameEnv_fxDigidrum ..
  · exact sameEnv_fxSid ..
  · rename_i hnop hdrum hsid
    have hkind : w.toNat / 2 ^ 30 = 3 := by
      have hfield : field w 31 30 = w.toNat / 2 ^ 30 % 4 := rfl
      rw [imp_false, hfield] at hnop hdrum hsid
      have := w.isLt
      omega
    rw [fxSyncbuzz_of_noBuzzWord (h.resolve_left fun hne => hne hkind)]
    exact .refl _

theorem sameEnv_releaseUnseen (ch : Ch) (p : Player) : SameEnv p.chip (releaseUnseen ch p).chip := by
  unfold releaseUnseen
  split
  · exact .refl _
  · exact .refl _
  all_goals
    split
    · exact .refl _
    · exact sameEnv_release ch p

theorem sameEnv_fxFinish (p : Player) : SameEnv p.chip (fxFinish p).chip :=
  (sameEnv_releaseUnseen .A p).trans ((sameEnv_releaseUnseen .B _).trans (sameEnv_releaseUnseen .C _))

theorem sameEnv_foldl_fxWord (cfg : Config) {ws : List Word} (h : ∀ w ∈ ws, NoBuzzWord w) (p : Player) :
    SameEnv p.chip (ws.foldl (fun p w => fxWord cfg w p) p).chip := by
  induction ws generalizing p with
  | nil => exact .refl _
  | cons w ws ih =>
    obtain ⟨hw, hws⟩ := List.forall_mem_cons.1 h
    exact (sameEnv_fxWord cfg hw p).trans (ih hws _)

theorem sameEnv_fxDecode (cfg : Config) {ws : List Word} (h : ∀ w ∈ ws, NoBuzzWord w) (p : Player) :
    SameEnv p.chip (fxDecode cfg ws p).chip :=
  (sameEnv_foldl_fxWord cfg h p.clearDecode).trans (sameEnv_fxFinish _)

theorem sameEnv_frameLoad {cfg : Config} {k : Nat} (hskip : SkipsR13 cfg (frameAt cfg k).bytes)
    (hfx : ∀ w ∈ (frameAt cfg k).fx, NoBuzzWord w) (p : Player) : SameEnv p.chip (frameLoad cfg k p).chip := by
  have hload : SameEnv p.chip (loadFrameRegs cfg (frameAt cfg k).bytes p.chip) := by
    rw [loadFrameRegs_frame_of_skip hskip]
    exact ⟨rfl, rfl, rfl, rfl⟩
  exact hload.trans (sameEnv_fxDecode cfg hfx (beforeDecode cfg k p))

theorem reg_frameLoad (cfg : Config) (k : Nat) (p : Player) :
    (frameLoad cfg k p).chip.reg = (loadFrameRegs cfg (frameAt cfg k).bytes p.chip).reg :=
  (fxDecode_byEffects_unitRate cfg _ (beforeDecode cfg k p)).chip.reg

theorem reg_releaseAll (p : Player) : (releaseAll p).chip.reg = p.chip.reg :=
  (releaseAll_byEffects Config.default p).chip.reg

/-- The frame that SEEK loads: the target, or the last frame. -/
def seekFrame (cfg : Config) (target : Nat) : Nat := min target (frameCount cfg - 1)

/-- The player when SEEK loads its frame: the effects are released and the sequencer stands at that frame's start. -/
def seekStart (cfg : Config) (target : Nat) (p : Player) : Player :=
  { releaseAll p with eng := { (releaseAll p).eng with cursor := seekFrame cfg target, sif := 0 } }

theorem seek_eq (cfg : Config) (target : Nat) (p : Player) :
    seek cfg target p = frameLoad cfg (seekFrame cfg target) (seekStart cfg target p) := rfl

theorem seek_keepsPhases (cfg : Config) (target : Nat) (p : Player) : KeepsPhases p.chip (seek cfg target p).chip :=
  (releaseAll_byEffects cfg p).chip.keepsPhases.trans (frameLoad_keepsPhases cfg _ (seekStart cfg target p))

theorem sameEnv_seek {cfg : Config} {target : Nat} (hskip : SkipsR13 cfg (frameAt cfg (seekFrame cfg target)).bytes)
    (hfx : ∀ w ∈ (frameAt cfg (seekFrame cfg target)).fx, NoBuzzWord w) (p : Player) :
    SameEnv p.chip (seek cfg target p).chip :=
  (sameEnv_releaseAll p).trans (sameEnv_frameLoad hskip hfx (seekStart cfg target p))

theorem r13_seek_of_skip {cfg : Config} {target : Nat}
    (hskip : SkipsR13 cfg (frameAt cfg (seekFrame cfg target)).bytes) (p : Player) :
    regAt (seek cfg target p).chip.reg 13 = regAt p.chip.reg 13 := by
  rw [seek_eq, reg_frameLoad, regAt_loadFrameRegs_of_skip hskip, if_pos rfl, seekStart, reg_releaseAll]

/-- Settles O42: what the release, the register writes and the effect words of the target frame leave alone. -/
theorem seekCommand : Obligations.SeekCommand := by
  intro s n hinv h f
  have hphases := seek_keepsPhases s.cfg n.toNat s.player
  have hframes := hinv.engineOk.frames
  refine ⟨_, exec_pbSeek h n, rfl, cursor_frameLoad .., sif_frameLoad .., state_seek .., by omega,
    hphases.tcnt, hphases.tout, hphases.ncnt, hphases.lfsr, hphases.sub, hphases.dcbuf, hphases.dcsum, hphases.dcpos,
    hphases.mute, fun hflag hbyte hfx => ?_⟩
  have henv := sameEnv_seek (target := n.toNat) ⟨hflag, hbyte⟩ hfx s.player
  exact ⟨henv.ecnt, henv.estep, henv.eup, henv.ehold, r13_seek_of_skip (target := n.toNat) ⟨hflag, hbyte⟩ s.player⟩

/-! ### GENERATE, and PAUSE with a batch before PLAY (R121, R123) -/

theorem generateEngine_of_ne_playing (cfg : Config) (n : Nat) {p : Player} (h : p.eng.state ≠ .playing) :
    generateEngine cfg n p = (p, List.replicate n 0) := by
  induction n with
  | zero => rfl
  | succ n ih => rw [generateEngine, if_neg h, ih, List.replicate_succ]

theorem generateEngine_succ_of_playing (cfg : Config) (n : Nat) {p : Player} (h : p.eng.state = .playing) :
    generateEngine cfg (n + 1) p =
      ((generateEngine cfg n (sampleStep cfg p)).1,
        sampleOut cfg p :: (generateEngine cfg n (sampleStep cfg p)).2) := if_pos h

theorem length_generateEngine (cfg : Config) (n : Nat) (p : Player) : (generateEngine cfg n p).2.length = n := by
  induction n generalizing p with
  | zero => rfl
  | succ n ih =>
    by_cases h : p.eng.state = .playing
    · rw [generateEngine_succ_of_playing cfg n h, List.length_cons, ih]
    · rw [generateEngine_of_ne_playing cfg _ h, List.length_replicate]

/-- A batch of `m` and then one of `n` (R123). -/
theorem generateEngine_add (cfg : Config) (m n : Nat) (p : Player) :
    generateEngine cfg (m + n) p =
      ((generateEngine cfg n (generateEngine cfg m p).1).1,
        (generateEngine cfg m p).2 ++ (generateEngine cfg n (generateEngine cfg m p).1).2) := by
  induction m generalizing p with
  | zero => rw [Nat.zero_add]; rfl
  | succ m ih =>
    by_cases h : p.eng.state = .playing
    · rw [Nat.succ_add, generateEngine_succ_of_playing cfg _ h, generateEngine_succ_of_playing cfg m h, ih]
      rfl
    · simp only [generateEngine_of_ne_playing cfg _ h, List.replicate_add]

theorem exec_pbGenerate_of_ne_playing {s : State} (h : s.issuer = .producer) (hst : s.eng.state ≠ .playing) (n : Count) :
    exec (.pbGenerate n) s = .next (s.deliver .producer (.samples (List.replicate n.toNat 0))) := by
  rw [exec_pbGenerate h, generateEngine_of_ne_playing s.cfg n.toNat hst, State.setPlayer_player]

/-- Settles O41: the two cases of a sample, and batches by induction on the first. -/
theorem generateCommand : Obligations.GenerateCommand := by
  refine ⟨fun s n h => ⟨_, length_generateEngine s.cfg n.toNat s.player, exec_pbGenerate h n, rfl,
    fun hst => exec_pbGenerate_of_ne_playing h hst n⟩, fun _ _ => rfl,
    fun cfg p hst => generateEngine_succ_of_playing cfg 0 hst, generateEngine_add⟩

/-- Settles O39: a batch while Paused leaves the player, and PLAY gives back the one that was paused. -/
theorem pauseCommand : Obligations.PauseCommand := by
  intro s h
  refine ⟨fun hst => ?_, fun hst => ?_, fun hst n => ?_⟩
  · rw [exec_pbPause h, pause_of_playing hst]
    rfl
  · rw [exec_pbPause h, pause_of_ne_playing hst, State.setPlayer_player]
  · have hpaused : (s.setPlayer (pause s.player)).eng.state ≠ .playing := by
      rw [State.eng_setPlayer, pause_of_playing hst]
      exact PbState.noConfusion
    have hbatch := exec_pbGenerate_of_ne_playing (s := s.setPlayer (pause s.player)) h hpaused n
    have hresume := exec_pbPlay
      (s := (s.setPlayer (pause s.player)).deliver .producer (.samples (List.replicate n.toNat 0))) h
    simp only [execAll, exec_pbPause h, hbatch, hresume, State.player_deliver, State.player_setPlayer, State.cfg_deliver,
      State.cfg_setPlayer, play_pause s.cfg hst]
    rfl

/-! ### POSITION (R124) -/

theorem f32Magnitude_self {n : Nat} (h : 0 < n) : f32Magnitude n n = 0x3F800000 := by
  have hlog : floorLog2 n n = 0 := by simp [floorLog2]
  have hround : roundDiv (n * 2 ^ 23) n = 2 ^ 23 := by
    rw [roundDiv, Nat.mul_mod_right, Nat.mul_div_cancel_left _ h, if_pos (by simpa using h)]
  rw [f32Magnitude, if_neg (by omega), hlog]
  change min (126 * 2 ^ 23 + roundDiv (n * 2 ^ 23) (n * 1)) 0x7F800000 = _
  rw [Nat.mul_one, hround]
  rfl

/-- A quotient of equal numbers is exactly 1.0. -/
theorem f32_self {n : Nat} (h : 0 < n) : f32 n n = 0x3F800000 := by
  rw [f32, Int.natAbs_natCast, f32Magnitude_self h, if_neg (by omega)]
  rfl

/-- Settles O43: at the end of the song the quotient is F / F, and F is not 0. -/
theorem positionCommand : Obligations.PositionCommand := by
  refine ⟨fun _ => exec_pbPosition, fun s hinv h hend => ?_⟩
  rw [exec_pbPosition h, hend, f32_self (Nat.pos_of_ne_zero hinv.engineOk.frames)]

end Sys2Proof.Machine
end

section
/-! Proofs about the effects (46_effects.md R130 and R136). -/

namespace Sys2Proof.Machine

/-! ### The reach of the hooks (R136) -/

/-- A chip that the hooks alone have changed, written out: its overrides differ, or these and the envelope restart. -/
theorem SameButHooks.eq_or_restart {c d : ChipState} (h : SameButHooks c d) :
    d = { c with ovr := d.ovr, drum := d.drum } ∨
    d = { c with ovr := d.ovr, drum := d.drum, ecnt := 0, estep := 0, eup := (regAt c.reg 13).getLsbD 2,
                 ehold := false } := by
  obtain ⟨hreg, htcnt, htout, hncnt, hlfsr, hsub, hdcbuf, hdcsum, hdcpos, hsample, hmute, henv⟩ := h
  cases d
  refine henv.imp (fun hkept => ?_) (fun hrestart => ?_)
  · obtain ⟨hecnt, hestep, heup, hehold⟩ := hkept
    simp_all
  · obtain ⟨hecnt, hestep, heup, hehold⟩ := hrestart
    simp_all [envRestart, shapeAtt]

/-- Effect words read no sample rate, so that what they do under a positive one they do under any. -/
theorem exec_effect_sameButHooks {i : Instr} {s t : State} (hi : i.isEffect = true) (h : exec i s = .next t) :
    SameButHooks s.chip t.chip := by
  cases i with
  | fxNop fch id rate =>
    cases h
    exact .refl _
  | fxDigidrum fch id rate =>
    cases h
    exact (fxDigidrum_byEffects { s.cfg with sampleRate := 1 } fch id rate s.player Nat.one_pos).chip
  | fxSid fch id rate =>
    cases h
    exact (fxSid_byEffects { s.cfg with sampleRate := 1 } fch rate s.player Nat.one_pos).chip
  | fxSyncbuzz fch id rate =>
    cases h
    exact (fxSyncbuzz_byEffects { s.cfg with sampleRate := 1 } fch rate s.player Nat.one_pos).chip
  | _ => cases hi

theorem fxAdvance_sameButHooks (cfg : Config) (p : Player) : SameButHooks p.chip (fxAdvance cfg p).chip :=
  (fxAdvanceCh_byEvents cfg .A p).chip.trans
    ((fxAdvanceCh_byEvents cfg .B _).chip.trans (fxAdvanceCh_byEvents cfg .C _).chip)

/-- Settles O51: each operation is a chain of hooks, and two chains after one another are one. -/
theorem effectsUseHooksOnly : Obligations.EffectsUseHooksOnly := by
  refine ⟨fun i s t hi h => (exec_effect_sameButHooks hi h).eq_or_restart, fun cfg ws p q hq => ?_,
    fun p => (releaseAll_frame p).chip⟩
  rcases hq with rfl | rfl
  · exact (fxDecode_byEffects_unitRate cfg ws p).chip.eq_or_restart
  · exact (fxAdvance_sameButHooks cfg p).eq_or_restart

/-! ### RELEASE and RELEASE_ALL (R130) -/

theorem release_of_empty {ch : Ch} {p : Player} (h : p.slotOf ch = .empty) : release ch p = p := by
  rw [release, h]

theorem release_of_drum {ch : Ch} {p : Player} {id : Byte} {cur acc : Nat} {rate : BitVec 20}
    (h : p.slotOf ch = .drum id cur acc rate) : release ch p = (p.onChip (clrDrumOvr ch)).setSlot ch .empty := by
  rw [release, h]

theorem release_of_sid {ch : Ch} {p : Player} {high : Bool} {acc : Nat} {rate : BitVec 20}
    (h : p.slotOf ch = .sid high acc rate) : release ch p = (p.onChip (clrMixerOvr ch)).setSlot ch .empty := by
  rw [release, h]

theorem release_of_buzz {ch : Ch} {p : Player} {acc : Nat} {rate : BitVec 20}
    (h : p.slotOf ch = .buzz acc rate) : release ch p = (p.onChip (clrMixerOvr ch)).setSlot ch .empty := by
  rw [release, h]

/-- Settles O46: the cases of `release`, and that RELEASE_ALL empties every slot. -/
theorem releaseEffects : Obligations.ReleaseEffects :=
  ⟨fun _ _ => ⟨release_of_empty, fun _ _ _ _ => release_of_drum, fun _ _ _ => release_of_sid,
      fun _ _ => release_of_buzz⟩,
    fun p => ⟨rfl, fun ch => slotOf_releaseAll ch p⟩⟩

end Sys2Proof.Machine
end

section
/-! The ring at its construction (47_ring_buffer.md R137, R138). -/

namespace Sys2Proof.Machine

/-! ### The capacity (R137) -/

theorem ringCapacity_of_le_two {n : Nat} (h : n ≤ 2) : ringCapacity n = 2 := if_pos h

theorem ringCapacity_of_two_lt {n : Nat} (h : 2 < n) : ringCapacity n = 2 ^ (Nat.log2 (n - 1) + 1) :=
  if_neg (not_le.2 h)

theorem ringCapacity_eq_two_pow (n : Nat) : ∃ k, ringCapacity n = 2 ^ k := by
  rcases le_or_gt n 2 with h | h
  · exact ⟨1, ringCapacity_of_le_two h⟩
  · exact ⟨_, ringCapacity_of_two_lt h⟩

/-- The powers of two from the capacity on are those from the requested size on: leastness, and at the capacity
itself that it holds the requested size. -/
theorem ringCapacity_le_two_pow_iff (n k : Nat) : ringCapacity n ≤ 2 ^ k ↔ max n 2 ≤ 2 ^ k := by
  rcases le_or_gt n 2 with h | h
  · rw [ringCapacity_of_le_two h, max_eq_right h]
  · calc ringCapacity n ≤ 2 ^ k
        ↔ Nat.log2 (n - 1) < k := by
          rw [ringCapacity_of_two_lt h, Nat.pow_le_pow_iff_right Nat.one_lt_two, Nat.succ_le_iff]
      _ ↔ n - 1 < 2 ^ k := Nat.log2_lt (by omega)
      _ ↔ max n 2 ≤ 2 ^ k := by rw [max_eq_left h.le]; omega

theorem max_two_le_ringCapacity (n : Nat) : max n 2 ≤ ringCapacity n := by
  obtain ⟨k, hk⟩ := ringCapacity_eq_two_pow n
  rw [hk, ← ringCapacity_le_two_pow_iff, hk]

/-- Settles O9: the capacity's bound by powers of two; the cursors, the counters and the slots as built. -/
theorem ringConstruction : Obligations.RingConstruction := fun _ =>
  ⟨ringCapacity_eq_two_pow _, max_two_le_ringCapacity _, fun k => (ringCapacity_le_two_pow_iff _ k).2,
    fun _ => rfl, rfl, rfl, rfl, rfl⟩

end Sys2Proof.Machine
end

section
/-! Proofs that decoding and encoding agree (30_encoding.md R59, R60, R62, R64, R66). -/

namespace Sys2Proof

open Sys2Proof.Machine

/-! ### A command word and its fields -/

theorem word_eq_cmdWord {w : Word} {op low : Nat} (hop : opcode w = op) (hlow : field w 23 0 = low) :
    .word w = cmdWord op low := by
  have := w.isLt
  subst hop hlow
  simp only [cmdWord, opcode, field, Item.word.injEq, ← BitVec.toNat_inj, BitVec.toNat_ofNat]
  omega

/-- A command word is its opcode and its low 24 bits (R59). -/
theorem cmdWord_fields {op low : Nat} (hop : op < 2 ^ 8) (hlow : low < 2 ^ 24) :
    ∃ w : Word, cmdWord op low = .word w ∧ opcode w = op ∧ field w 23 0 = low := by
  refine ⟨_, rfl, ?_, ?_⟩
  · simp only [opcode, field, BitVec.toNat_ofNat]; omega
  · simp only [field, BitVec.toNat_ofNat]; omega

/-- The operands of format A fill the low 24 bits with its zero field. -/
theorem low_eq_addr_data {w : Word} (h : field w 23 12 = 0) :
    field w 23 0 = (addrField w).val * 2 ^ 8 + (dataField w).toNat := by
  simp only [addrField, dataField, field, Fin.val_ofNat, BitVec.toNat_ofNat] at h ⊢
  omega

theorem field_eq_toNat_countField (w : Word) : field w 23 0 = (countField w).toNat := by
  simp [countField, field]

/-- MODE is the low bit of a word with no other bit of its format set (R60). -/
theorem encode_reset_modeField {w : Word} (h : field w 23 1 = 0) :
    encode (.reset (modeField w)) = [cmdWord 0x08 (field w 23 0)] := by
  have hlow : field w 23 0 = field w 0 0 := by simp only [field] at h ⊢; omega
  have hlt : field w 0 0 < 2 := Nat.mod_lt _ (by decide)
  rw [hlow, modeField]
  interval_cases field w 0 0 <;> rfl

theorem num_of_chOfNat {n : Nat} {ch : Ch} (h : chOfNat n = some ch) : ch.num = n := by
  unfold chOfNat at h
  split at h <;> cases h <;> rfl

theorem chOfNat_num (ch : Ch) : chOfNat ch.num = some ch := by cases ch <;> rfl

theorem num_lt (ch : Ch) : ch.num < 3 := by cases ch <;> decide

/-- The operands of format C fill the low 24 bits with its zero fields. -/
theorem low_eq_chLow {w : Word} {ch : Ch} {data : Nat} (h : field w 23 18 = 0 ∧ field w 15 8 = 0)
    (hch : chField w = some ch) (hdata : field w 7 0 = data) : field w 23 0 = chLow ch data := by
  have hnum := num_of_chOfNat hch
  obtain ⟨h18, h8⟩ := h
  subst hdata
  simp only [field, chLow] at *
  omega

theorem toNat_flagField (w : Word) (i : Nat) : (flagField w i).toNat = field w i i := by
  have hlt : field w i i < 2 := by
    rw [field, show i + 1 - i = 1 by omega]
    exact Nat.mod_lt _ (by decide)
  unfold flagField
  interval_cases field w i i <;> rfl

/-! ### Payloads -/

theorem toList_bytes16 {bs : List Byte} (h : bs.length = 16) : (bytes16 bs).toList = bs := by
  apply List.ext_getElem (by simp [h])
  intro i hi hi'
  have hget : (bytes16 bs).toList[i] = bs.getD i 0 := by
    have hlt : i < 16 := h ▸ hi'
    interval_cases i <;> rfl
  rw [hget, List.getD_eq_getElem _ _ hi']

theorem bytes16_toList (p : Bytes16) : bytes16 p.toList = p :=
  Vector.toList_inj.1 (toList_bytes16 p.length_toList)

/-! ### What decodes is the encoding of what it decodes to -/

/-- `w` before `rest` is the encoding of the command `i` with `rest'` after it. -/
def IsEncoding (w : Word) (rest : List Item) (i : Instr) (rest' : List Item) : Prop :=
  i.wf = true ∧ .word w :: rest = encode i ++ rest'

section

variable {w : Word} {rest rest' : List Item} {i j : Instr} {op low : Nat}

/-- A command without a payload. -/
theorem isEncoding_of_word (hop : opcode w = op) (hlow : field w 23 0 = low) (henc : encode j = [cmdWord op low])
    (hwf : j.wf = true) : IsEncoding w rest j rest :=
  ⟨hwf, by rw [henc, word_eq_cmdWord hop hlow]; rfl⟩

theorem isEncoding_of_ifZero {z : Nat} (h : ifZero z j rest = .ok (i, rest')) (hop : opcode w = op)
    (hlow : z = 0 → field w 23 0 = low) (henc : encode j = [cmdWord op low]) (hwf : j.wf = true) :
    IsEncoding w rest i rest' := by
  obtain ⟨hz, rfl, rfl⟩ := ifZero_ok h
  exact isEncoding_of_word hop (hlow hz) henc hwf

theorem isEncoding_of_formatC {u : Nat} {mk : Ch → Instr} {data : Nat} (h : formatC w u mk rest = .ok (i, rest'))
    (hop : opcode w = op) (hdata : u = 0 → field w 7 0 = data)
    (henc : ∀ ch, encode (mk ch) = [cmdWord op (chLow ch data)]) (hwf : ∀ ch, (mk ch).wf = true) :
    IsEncoding w rest i rest' := by
  obtain ⟨⟨h18, h8, hu⟩, ch, hch, rfl, rfl⟩ := formatC_ok h
  exact isEncoding_of_word hop (low_eq_chLow ⟨h18, h8⟩ hch (hdata hu)) (henc ch) (hwf ch)

theorem isEncoding_of_withSamples {mk : List F32 → Instr} (h : withSamples w mk rest = .ok (i, rest'))
    (hop : opcode w = op) (henc : ∀ xs, encode (mk xs) = cmdWord op xs.length :: xs.map .word)
    (hwf : ∀ xs, (mk xs).wf = decide (xs.length < 2 ^ 24)) : IsEncoding w rest i rest' := by
  obtain ⟨xs, htake, rfl⟩ := withSamples_ok h
  obtain ⟨hlen, rfl⟩ := (takeWords_eq_some_iff ..).1 htake
  have hlt : field w 23 0 < 2 ^ 24 := Nat.mod_lt _ (by decide)
  refine ⟨by rw [hwf, hlen]; exact decide_eq_true hlt, ?_⟩
  rw [henc, word_eq_cmdWord hop hlen.symm]
  rfl

theorem isEncoding_of_withBytes (h : withBytes (field w 23 0) rest = .ok (i, rest')) (hop : opcode w = 0x03) :
    IsEncoding w rest i rest' := by
  obtain ⟨hz, bs, htake, rfl⟩ := withBytes_ok h
  obtain ⟨hlen, rfl⟩ := (takeBytes_eq_some_iff ..).1 htake
  refine ⟨rfl, ?_⟩
  rw [encode, toList_bytes16 hlen, word_eq_cmdWord hop hz]
  rfl

end

/-- The rows of R60, grouped by format; the cases stand in the order of `decodeCommand`'s match. -/
theorem isEncoding_of_decodeCommand {w : Word} {rest rest' : List Item} {i : Instr}
    (h : decodeCommand w rest = .ok (i, rest')) : IsEncoding w rest i rest' := by
  unfold decodeCommand at h
  split at h <;> rename_i hop
  -- the commands without operand
  case h_4 | h_5 | h_6 | h_9 | h_15 | h_16 | h_17 | h_19 | h_22 | h_26 | h_27 | h_28 | h_29 | h_30 =>
    exact isEncoding_of_ifZero h hop id rfl rfl
  -- CHIP_GENERATE, PB_GENERATE, PB_SEEK, RB_READ: COUNT fills the low 24 bits
  case h_7 | h_18 | h_20 | h_25 =>
    obtain ⟨rfl, rfl⟩ := Prod.mk.inj (Except.ok.inj h)
    exact isEncoding_of_word hop (field_eq_toNat_countField w) rfl rfl
  -- WRITE_REG, READ_REG, RESET
  case h_1 => exact isEncoding_of_ifZero h hop low_eq_addr_data rfl rfl
  case h_2 =>
    refine isEncoding_of_ifZero (low := (addrField w).val * 2 ^ 8) h hop (fun hz => ?_) rfl rfl
    simp [low_eq_addr_data (w := w) (by omega), dataField, show field w 7 0 = 0 by omega]
  case h_8 =>
    obtain ⟨hz, rfl, rfl⟩ := ifZero_ok h
    exact isEncoding_of_word hop rfl (encode_reset_modeField hz) rfl
  -- format C, by the part of DATA it leaves unused
  case h_10 =>
    refine isEncoding_of_formatC h hop (fun hu => ?_) (fun _ => rfl) (fun _ => rfl)
    rw [toNat_flagField, toNat_flagField]
    simp only [field] at hu ⊢
    omega
  case h_11 | h_13 => exact isEncoding_of_formatC h hop id (fun _ => rfl) (fun _ => rfl)
  case h_12 => exact isEncoding_of_formatC h hop (fun _ => by simp [dataField, field]) (fun _ => rfl) (fun _ => rfl)
  case h_14 | h_21 =>
    refine isEncoding_of_formatC h hop (fun hu => ?_) (fun _ => rfl) (fun _ => rfl)
    rw [toNat_flagField]
    simp only [field] at hu ⊢
    omega
  -- LOAD_REGS and the ring writes
  case h_3 => exact isEncoding_of_withBytes h hop
  case h_23 => exact isEncoding_of_withSamples h hop (fun _ => rfl) (fun _ => rfl)
  case h_24 => exact isEncoding_of_withSamples h hop (fun _ => rfl) (fun _ => rfl)
  -- an unassigned opcode
  case h_31 => cases h

/-! ### What a command's encoding decodes to -/

section

variable {w : Word} {rest : List Item}

theorem decode_cmdWord {op low : Nat} {more : List Item} {d : Decoded} (hop : op < 2 ^ 8) (hlow : low < 2 ^ 24)
    (h : ∀ w, opcode w = op → field w 23 0 = low → decodeCommand w more = d) : decode (cmdWord op low :: more) = d := by
  obtain ⟨w, hw, hop, hlow⟩ := cmdWord_fields hop hlow
  rw [hw]
  exact h w hop hlow

/-- The fields of format A, from the low 24 bits. -/
theorem formatA_of_low {a : RegNum} {d : Byte} (h : field w 23 0 = a.val * 2 ^ 8 + d.toNat) :
    addrField w = a ∧ dataField w = d ∧ field w 23 12 = 0 ∧ field w 7 0 = d.toNat := by
  have ha := a.isLt
  have hd := d.isLt
  refine ⟨Fin.ext ?_, BitVec.eq_of_toNat_eq ?_, ?_, ?_⟩ <;>
    simp only [addrField, dataField, field, Fin.val_ofNat, BitVec.toNat_ofNat] at h ⊢ <;> omega

/-- The bit of MODE (R60). -/
def modeBit : ResetMode → Nat
  | .randomized => 0
  | .deterministic => 1

theorem encode_reset (mode : ResetMode) : encode (.reset mode) = [cmdWord 0x08 (modeBit mode)] := by
  cases mode <;> rfl

theorem modeField_of_low {mode : ResetMode} (h : field w 23 0 = modeBit mode) :
    modeField w = mode ∧ field w 23 1 = 0 := by
  have hlow : field w 0 0 = field w 23 0 % 2 ∧ field w 23 1 = field w 23 0 / 2 := by simp only [field]; omega
  rw [modeField, hlow.1, hlow.2, h]
  cases mode <;> exact ⟨rfl, rfl⟩

theorem countField_of_low {n : Count} (h : field w 23 0 = n.toNat) : countField w = n :=
  BitVec.eq_of_toNat_eq ((field_eq_toNat_countField w).symm.trans h)

theorem field_data_of_low {ch : Ch} {data : Nat} (h : field w 23 0 = chLow ch data) (hd : data < 2 ^ 8) :
    field w 7 0 = data := by
  simp only [field, chLow] at h ⊢
  omega

/-- Format C accepts a word with its zero fields 0, from the low 24 bits. -/
theorem formatC_of_low {u data : Nat} {ch : Ch} {mk : Ch → Instr} (h : field w 23 0 = chLow ch data)
    (hd : data < 2 ^ 8) (hu : u = 0) : formatC w u mk rest = .ok (mk ch, rest) := by
  have hnum := num_lt ch
  have hzeros : field w 23 18 = 0 ∧ field w 15 8 = 0 := by simp only [field, chLow] at h ⊢; omega
  have hch : chField w = some ch := by
    rw [chField, show field w 17 16 = ch.num by simp only [field, chLow] at h ⊢; omega]
    exact chOfNat_num ch
  simp [formatC, hzeros, hu, hch]

theorem flagField_of_toNat {i : Nat} {b : Bool} (h : field w i i = b.toNat) : flagField w i = b := by
  rw [flagField, h]
  cases b <;> rfl

theorem withBytes_of_low (h : field w 23 0 = 0) (p : Bytes16) :
    withBytes (field w 23 0) (p.toList.map .byte ++ rest) = .ok (.loadRegs p, rest) := by
  have htake := (takeBytes_eq_some_iff 16 _ rest p.toList).2 ⟨p.length_toList, rfl⟩
  simp [withBytes, h, htake, bytes16_toList]

theorem withSamples_of_low {xs : List F32} (h : field w 23 0 = xs.length) (mk : List F32 → Instr) :
    withSamples w mk (xs.map .word ++ rest) = .ok (mk xs, rest) := by
  have htake := (takeWords_eq_some_iff _ _ rest xs).2 ⟨h.symm, rfl⟩
  simp [withSamples, htake]

end

theorem chLow_lt (ch : Ch) {data : Nat} (h : data < 2 ^ 8) : chLow ch data < 2 ^ 24 := by
  have := num_lt ch
  unfold chLow
  omega

/-- The rows of R60, grouped by format. -/
theorem decode_encode {i : Instr} (hwf : i.wf = true) (hi : i.isEffect = false) (rest : List Item) :
    decode (encode i ++ rest) = .ok (i, rest) := by
  cases i
  -- the commands without operand
  case dumpRegs | clock | getSample | triggerEnv | pbPlay | pbPause | pbStop | pbPosition | pbState | rbAvailWrite
      | rbAvailRead | rbFillPct | rbFlush | rbStats =>
    refine decode_cmdWord (by decide) (by decide) fun w hop hlow => ?_
    rw [decodeCommand, hop]
    exact if_pos hlow
  -- COUNT fills the low 24 bits
  case chipGenerate n | pbGenerate n | pbSeek n | rbRead n =>
    refine decode_cmdWord (by decide) n.isLt fun w hop hlow => ?_
    rw [decodeCommand, hop, ← countField_of_low hlow]
    rfl
  case writeReg a d =>
    refine decode_cmdWord (by decide) (by have := a.isLt; have := d.isLt; omega) fun w hop hlow => ?_
    obtain ⟨ha, hd, hz, -⟩ := formatA_of_low hlow
    rw [decodeCommand, hop, ← ha, ← hd]
    exact if_pos hz
  case readReg a =>
    refine decode_cmdWord (by decide) (by have := a.isLt; omega) fun w hop hlow => ?_
    obtain ⟨ha, -, hz, h0⟩ := formatA_of_low (d := 0) (hlow.trans (Nat.add_zero _).symm)
    rw [decodeCommand, hop, ← ha]
    exact if_pos (by rw [hz, h0]; rfl)
  case reset mode =>
    rw [encode_reset]
    refine decode_cmdWord (by decide) (by cases mode <;> decide) fun w hop hlow => ?_
    obtain ⟨hmode, hz⟩ := modeField_of_low hlow
    rw [decodeCommand, hop, ← hmode]
    exact if_pos hz
  -- format C
  case clrMixerOvr ch | clrDrumOvr ch =>
    refine decode_cmdWord (by decide) (chLow_lt ch (by decide)) fun w hop hlow => ?_
    rw [decodeCommand, hop]
    exact formatC_of_low hlow (by decide) (field_data_of_low hlow (by decide))
  case setDrumOvr ch d =>
    refine decode_cmdWord (by decide) (chLow_lt ch d.isLt) fun w hop hlow => ?_
    have hd : dataField w = d := by rw [dataField, field_data_of_low hlow d.isLt]; simp
    rw [decodeCommand, hop, ← hd]
    exact formatC_of_low hlow d.isLt rfl
  case setMute ch m | pbSetMute ch m =>
    have hm : m.toNat < 2 := m.toNat_lt
    refine decode_cmdWord (by decide) (chLow_lt ch (by omega)) fun w hop hlow => ?_
    have hdata := field_data_of_low hlow (by omega)
    have hbits : field w 7 1 = 0 ∧ field w 0 0 = m.toNat := by simp only [field] at hdata ⊢; omega
    rw [decodeCommand, hop, ← flagField_of_toNat hbits.2]
    exact formatC_of_low hlow (by omega) hbits.1
  case setMixerOvr ch ft fn =>
    have ht : ft.toNat < 2 := ft.toNat_lt
    have hn : fn.toNat < 2 := fn.toNat_lt
    refine decode_cmdWord (by decide) (chLow_lt ch (by omega)) fun w hop hlow => ?_
    have hdata := field_data_of_low hlow (by omega)
    have hbits : field w 7 2 = 0 ∧ field w 1 1 = ft.toNat ∧ field w 0 0 = fn.toNat := by
      simp only [field] at hdata ⊢; omega
    rw [decodeCommand, hop, ← flagField_of_toNat hbits.2.1, ← flagField_of_toNat hbits.2.2]
    exact formatC_of_low hlow (by omega) hbits.1
  -- LOAD_REGS and the ring writes
  case loadRegs p =>
    refine decode_cmdWord (by decide) (by decide) fun w hop hlow => ?_
    rw [decodeCommand, hop]
    exact withBytes_of_low hlow p
  case rbWriteNb xs | rbWriteBlk xs =>
    refine decode_cmdWord (by decide) (of_decide_eq_true hwf) fun w hop hlow => ?_
    rw [decodeCommand, hop]
    exact withSamples_of_low hlow _
  -- an effect word is no command
  case fxNop | fxDigidrum | fxSid | fxSyncbuzz => cases hi

/-- An input that decodes is the encoding of what it decodes to. -/
theorem encode_decode {items rest : List Item} {i : Instr} (h : decode items = .ok (i, rest)) :
    i.wf = true ∧ items = encode i ++ rest := by
  match items with
  | [] => cases h
  | .byte _ :: _ => cases h
  | .word w :: more => exact isEncoding_of_decodeCommand h

/-- Settles O3, row by row of R60, in both directions. -/
theorem commandRoundTrip : Obligations.CommandRoundTrip := by
  refine ⟨fun i rest hwf hi => decode_encode hwf hi rest, fun items rest i h => ?_⟩
  obtain ⟨hwf, hitems⟩ := encode_decode h
  exact ⟨hwf, isEffect_of_decode h, hitems⟩

/-! ### Effect words -/

/-- An effect word's fields are the digits of its number (R64): one that reads them decodes it. -/
theorem decodes_effectWord {kind : Nat} {fch : BitVec 2} {id : Byte} {rate : BitVec 20} {i : Instr} (hk : kind ≤ 3)
    (henc : encode i = [effectWord kind fch id rate])
    (hdec : ∀ w, field w 31 30 = kind → fchField w = fch → idField w = id → rateField w = rate → decodeEffect w = i) :
    ∃ w : Word, encode i = [.word w] ∧ decodeEffect w = i := by
  have hfch := fch.isLt
  have hid := id.isLt
  have hrate := rate.isLt
  refine ⟨_, henc, hdec _ ?_ (BitVec.eq_of_toNat_eq ?_) (BitVec.eq_of_toNat_eq ?_) (BitVec.eq_of_toNat_eq ?_)⟩ <;>
    simp only [field, fchField, idField, rateField, BitVec.toNat_ofNat] <;> omega

/-- Settles O4: KIND chooses the constructor back, and the other fields are kept. -/
theorem effectWordRoundTrip : Obligations.EffectWordRoundTrip := by
  intro i hi
  cases i
  case fxNop fch id rate | fxDigidrum fch id rate | fxSid fch id rate | fxSyncbuzz fch id rate =>
    refine decodes_effectWord (by decide) rfl fun w hkind hfch hid hrate => ?_
    rw [decodeEffect, hkind, hfch, hid, hrate]
    rfl
  all_goals cases hi

/-- Settles O1: the words of R59, R60, R64 and R65, each by running its decoder. -/
theorem specWordsDecode : Obligations.SpecWordsDecode := by
  refine ⟨rfl, rfl, rfl, rfl, rfl, rfl, rfl, rfl, rfl, rfl, rfl, rfl, rfl⟩

end Sys2Proof
end

section
/-! Proofs about every step and every instruction: what a step runs (00_scope.md R6, R7), who may issue what
(60_exceptions.md R152, R153), and what every step keeps (10_state.md R34; 20_memory.md R53). -/

namespace Sys2Proof.Machine

/-! ### What a step runs -/

section

variable {s : State} {a : Agent}

theorem nextAgent_of_sched {l : List Agent} (h : s.sched = a :: l) : nextAgent s = some a := by
  rw [nextAgent, h]

theorem nextAgent_of_producer_ready (h : s.sched = []) (hr : (s.port .producer).ready = true) :
    nextAgent s = some .producer := by
  rw [nextAgent, h]
  exact if_pos hr

theorem step_of_effectWord {w : Word} {ws : List Word} (h : s.eng.fxq = some (w :: ws)) :
    step s = exec (decodeEffect w) (s.setEng { s.eng with fxq := some ws }) := by
  rw [step, fetch, h]

theorem step_of_decode_end (h : s.eng.fxq = some []) : step s = .next (s.setPlayer (fxFinish s.player)) := by
  rw [step, fetch, h]

theorem step_of_no_agent (h : s.eng.fxq = none) (ha : nextAgent s = none) : step s = .next s := by
  rw [step, fetch, h, ha]

theorem fetch_of_agent (h : s.eng.fxq = none) (ha : nextAgent s = some a) :
    fetch s = fetchFor a (s.setSched s.sched.tail) := by
  rw [fetch, h, ha]

theorem step_of_busy {op : RingOp} (h : s.eng.fxq = none) (ha : nextAgent s = some a)
    (hb : (s.port a).busy = some op) : step s = resumeOp op (s.turn a) := by
  rw [step, fetch_of_agent h ha, fetchFor, State.port_setSched, hb]
  rfl

theorem step_of_decoded {i : Instr} {rest : List Item} (h : s.eng.fxq = none) (ha : nextAgent s = some a)
    (hb : (s.port a).busy = none) (hd : decode (s.port a).input = .ok (i, rest)) :
    step s = exec i (((s.setSched s.sched.tail).setInput a rest).setIssuer a) := by
  rw [step, fetch_of_agent h ha, fetchFor, State.port_setSched, hb, hd]

theorem step_of_no_input (h : s.eng.fxq = none) (ha : nextAgent s = some a) (hb : (s.port a).busy = none)
    (hd : decode (s.port a).input = .error .noWord) : step s = .next (s.setSched s.sched.tail) := by
  rw [step, fetch_of_agent h ha, fetchFor, State.port_setSched, hb, hd]

theorem step_of_bad_input {e : DecodeError} (h : s.eng.fxq = none) (ha : nextAgent s = some a)
    (hb : (s.port a).busy = none) (hd : decode (s.port a).input = .error e) (he : e ≠ .noWord) :
    step s = .refused (.badCommand e) := by
  rw [step, fetch_of_agent h ha, fetchFor, State.port_setSched, hb, hd]
  cases e with
  | noWord => exact absurd rfl he
  | _ => rfl

/-- The turn of an agent that begins a command: its input is taken before it becomes the issuer. -/
theorem setIssuer_setInput (rest : List Item) :
    ((s.setSched s.sched.tail).setInput a rest).setIssuer a = (s.turn a).setInput a rest := by
  cases a <;> rfl

end

/-- Settles O5, by the branches of `fetch` and `fetchFor`. -/
theorem stepRunsDecodedInstruction : Obligations.StepRunsDecodedInstruction := by
  intro s
  refine ⟨fun a l => nextAgent_of_sched, nextAgent_of_producer_ready, fun w ws => step_of_effectWord,
    step_of_decode_end, step_of_no_agent, fun a hq ha => ⟨fun op => step_of_busy hq ha, fun hb =>
    ⟨fun i rest => step_of_decoded hq ha hb, fun hin => step_of_no_input hq ha hb (by rw [hin]; rfl),
      fun e => step_of_bad_input hq ha hb⟩⟩⟩

/-! ### What the shared points answer -/

section

variable {s : State} {o : Outcome}

theorem owned_refused_iff (ho : ∀ r, o ≠ .refused r) : (∃ r, owned s o = .refused r) ↔ ¬ s.allows .owner := by
  unfold owned State.allows
  split <;> simp [*]

theorem inspected_refused_iff (ho : ∀ r, o ≠ .refused r) : (∃ r, inspected s o = .refused r) ↔ ¬ s.allows .reader := by
  unfold inspected State.allows
  split <;> simp [*]

theorem hasEitherRole_refused_iff (ho : ∀ r, o ≠ .refused r) :
    (∃ r, hasEitherRole s o = .refused r) ↔ ¬ s.allows .eitherRole := by
  unfold hasEitherRole State.allows
  split <;> simp [*]

theorem hasRole_refused_iff {role : Agent} (ho : ∀ r, o ≠ .refused r) :
    (∃ r, hasRole role s o = .refused r) ↔ s.issuer ≠ role := by
  unfold hasRole
  split <;> simp [*]

theorem hasRole_of_issuer {role : Agent} (h : s.issuer = role) (o : Outcome) : hasRole role s o = o := if_pos h

theorem hasEitherRole_of_allows (h : s.allows .eitherRole) (o : Outcome) : hasEitherRole s o = o := if_pos h

/-- What a command answers at a point between two sub-steps, its next state or the rest of the command answers. -/
theorem carryOn_cases (a : Agent) (s : State) (k : State → Outcome) :
    carryOn a s k = .next s ∨ ∃ l, carryOn a s k = k (s.setSched l) := by
  cases hs : s.sched with
  | nil =>
    have hsame : s.setSched [] = s := by rw [← hs]; rfl
    exact .inr ⟨[], by rw [carryOn, hs, hsame]⟩
  | cons b rest =>
    by_cases hb : b = a
    · exact .inr ⟨rest, by rw [carryOn, hs]; exact if_pos hb⟩
    · exact .inl (by rw [carryOn, hs]; exact if_neg hb)

theorem carryOn_ne_refused {a : Agent} {k : State → Outcome} (hk : ∀ u r, k u ≠ .refused r) (r : Refusal) :
    carryOn a s k ≠ .refused r := by
  rcases carryOn_cases a s k with h | ⟨l, h⟩ <;> rw [h]
  · exact fun h => nomatch h
  · exact hk _ r

theorem carryOn_ne_fault {a : Agent} {k : State → Outcome} (hk : ∀ l f, k (s.setSched l) ≠ .fault f) (f : Fault) :
    carryOn a s k ≠ .fault f := by
  rcases carryOn_cases a s k with h | ⟨l, h⟩ <;> rw [h]
  · exact fun h => nomatch h
  · exact hk l f

theorem next_ne_refused (t : State) (r : Refusal) : (.next t : Outcome) ≠ .refused r := fun h => nomatch h

theorem next_ne_fault (t : State) (f : Fault) : (.next t : Outcome) ≠ .fault f := fun h => nomatch h

end

/-! ### The meanings, by the access they need -/

/-- `t` is `s` but for the player, the counter of draws and the answers: the reach of a chip or engine command. -/
structure OnlyPlayer (s t : State) : Prop where
  cfg  : t.cfg = s.cfg
  ring : t.ring = s.ring
  busy : ∀ a, (t.port a).busy = (s.port a).busy

theorem onlyPlayer_setPlayer (p : Player) (s : State) : OnlyPlayer s (s.setPlayer p) := ⟨rfl, rfl, fun a => by simp⟩

theorem onlyPlayer_setChip (c : ChipState) (s : State) : OnlyPlayer s (s.setChip c) := ⟨rfl, rfl, fun a => by simp⟩

theorem busy_deliver (a b : Agent) (x : Answer) (s : State) : ((s.deliver a x).port b).busy = (s.port b).busy := by
  rw [State.port_deliver]
  split
  · rw [‹b = a›]
  · rfl

theorem OnlyPlayer.deliver {s t : State} (h : OnlyPlayer s t) (a : Agent) (x : Answer) : OnlyPlayer s (t.deliver a x) :=
  ⟨by rw [State.cfg_deliver, h.cfg], by rw [State.ring_deliver, h.ring], fun b => by rw [busy_deliver, h.busy]⟩

section

variable {i : Instr}

theorem exec_of_owner (h : i.access = .owner) (s : State) : ∃ t, exec i s = owned s (.next t) ∧ OnlyPlayer s t := by
  cases i
  case writeReg | loadRegs | clock | triggerEnv | setMixerOvr | clrMixerOvr | setDrumOvr | clrDrumOvr | setMute
      | pbSetMute =>
    exact ⟨_, rfl, onlyPlayer_setChip _ s⟩
  case pbPlay | pbPause | pbStop | pbSeek => exact ⟨_, rfl, onlyPlayer_setPlayer _ s⟩
  case chipGenerate => exact ⟨_, rfl, (onlyPlayer_setChip _ s).deliver _ _⟩
  case pbGenerate => exact ⟨_, rfl, (onlyPlayer_setPlayer _ s).deliver _ _⟩
  case reset => exact ⟨_, rfl, rfl, rfl, fun a => by simp⟩
  all_goals cases h

theorem exec_of_reader (h : i.access = .reader) (s : State) :
    ∃ x, exec i s = inspected s (.next (s.deliver s.issuer x)) := by
  cases i
  case readReg | dumpRegs | getSample | pbPosition | pbState => exact ⟨_, rfl⟩
  all_goals cases h

theorem exec_of_decode (h : i.access = .decode) (s : State) : ∃ p, exec i s = .next (s.setPlayer p) := by
  cases i
  case fxNop => exact ⟨s.player, rfl⟩
  case fxDigidrum | fxSid | fxSyncbuzz => exact ⟨_, rfl⟩
  all_goals cases h

end

/-! ### The ring's sub-steps are never refused, and fault only on an unwritten slot -/

theorem finishWriteBlk_next (rest : List F32) (n done sleeps : Nat) (s : State) :
    ∃ t, finishWriteBlk rest n done sleeps s = .next t := by
  unfold finishWriteBlk
  dsimp only
  split <;> exact ⟨_, rfl⟩

theorem finishWriteBlk_ne_refused (rest : List F32) (n done sleeps : Nat) (s : State) (r : Refusal) :
    finishWriteBlk rest n done sleeps s ≠ .refused r := by
  obtain ⟨t, ht⟩ := finishWriteBlk_next rest n done sleeps s
  rw [ht]
  exact next_ne_refused t r

theorem finishWriteBlk_ne_fault (rest : List F32) (n done sleeps : Nat) (s : State) (f : Fault) :
    finishWriteBlk rest n done sleeps s ≠ .fault f := by
  obtain ⟨t, ht⟩ := finishWriteBlk_next rest n done sleeps s
  rw [ht]
  exact next_ne_fault t f

theorem finishRead_ne_refused (count n : Nat) (s : State) (r : Refusal) : finishRead count n s ≠ .refused r := by
  unfold finishRead
  split <;> exact fun h => nomatch h

theorem execRbStats_refused_iff (s : State) : (∃ r, execRbStats s = .refused r) ↔ ¬ s.allows .eitherRole := by
  have hload := carryOn_ne_refused (a := .producer) (s := s.setBusy .producer (some (.stats s.ring.played)))
    (k := finishStats s.ring.played) fun u r => next_ne_refused _ r
  unfold execRbStats State.allows
  cases h : s.issuer <;> simp [hload]

/-! ### Who may issue what -/

/-- Settles O18, by the access of each instruction. -/
theorem refusedExactlyWithoutAccess : Obligations.RefusedExactlyWithoutAccess := by
  intro i s
  cases haccess : i.access with
  | owner =>
    obtain ⟨t, ht, -⟩ := exec_of_owner haccess s
    rw [ht]
    exact owned_refused_iff (next_ne_refused t)
  | reader =>
    obtain ⟨x, hx⟩ := exec_of_reader haccess s
    rw [hx]
    exact inspected_refused_iff (next_ne_refused _)
  | decode =>
    obtain ⟨p, hp⟩ := exec_of_decode haccess s
    simp [hp, State.allows]
  | producer =>
    cases i
    case rbWriteNb xs => exact hasRole_refused_iff (carryOn_ne_refused fun u r => next_ne_refused _ r)
    case rbWriteBlk xs => exact hasRole_refused_iff (carryOn_ne_refused (finishWriteBlk_ne_refused xs _ 0 0))
    all_goals cases haccess
  | consumer =>
    cases i
    case rbRead n => exact hasRole_refused_iff (carryOn_ne_refused (finishRead_ne_refused n.toNat _))
    case rbFlush => exact hasRole_refused_iff (carryOn_ne_refused fun u r => next_ne_refused _ r)
    all_goals cases haccess
  | eitherRole =>
    cases i
    case rbStats => exact execRbStats_refused_iff s
    case rbAvailWrite | rbAvailRead | rbFillPct => exact hasEitherRole_refused_iff (next_ne_refused _)
    all_goals cases haccess

/-! ### No fault in a state in range -/

theorem owned_next_ne_fault (s t : State) (f : Fault) : owned s (.next t) ≠ .fault f := by
  unfold owned; split <;> exact fun h => nomatch h

theorem inspected_next_ne_fault (s t : State) (f : Fault) : inspected s (.next t) ≠ .fault f := by
  unfold inspected; split <;> exact fun h => nomatch h

theorem hasEitherRole_next_ne_fault (s t : State) (f : Fault) : hasEitherRole s (.next t) ≠ .fault f := by
  unfold hasEitherRole; split <;> exact fun h => nomatch h

theorem hasRole_ne_fault {role : Agent} {s : State} {o : Outcome} (ho : ∀ f, o ≠ .fault f) (f : Fault) :
    hasRole role s o ≠ .fault f := by
  unfold hasRole
  split
  · exact ho f
  · exact fun h => nomatch h

theorem execRbStats_ne_fault (s : State) (f : Fault) : execRbStats s ≠ .fault f := by
  unfold execRbStats
  split
  · exact fun h => nomatch h
  · exact carryOn_ne_fault (k := finishStats s.ring.played) (fun l => next_ne_fault _) f
  · exact fun h => nomatch h

theorem exec_ne_fault {s : State} (h : s.Inv) (i : Instr) (f : Fault) : exec i s ≠ .fault f := by
  cases haccess : i.access with
  | owner =>
    obtain ⟨t, ht, -⟩ := exec_of_owner haccess s
    rw [ht]
    exact owned_next_ne_fault s t f
  | reader =>
    obtain ⟨x, hx⟩ := exec_of_reader haccess s
    rw [hx]
    exact inspected_next_ne_fault s _ f
  | decode =>
    obtain ⟨p, hp⟩ := exec_of_decode haccess s
    rw [hp]
    exact next_ne_fault _ f
  | producer =>
    cases i
    case rbWriteNb xs => exact hasRole_ne_fault (carryOn_ne_fault (k := finishWrite xs _) fun l => next_ne_fault _) f
    case rbWriteBlk xs =>
      exact hasRole_ne_fault (carryOn_ne_fault fun l => finishWriteBlk_ne_fault xs _ 0 0 _) f
    all_goals cases haccess
  | consumer =>
    cases i
    case rbRead n =>
      refine hasRole_ne_fault (carryOn_ne_fault fun l => ?_) f
      exact finishRead_not_fault (s := State.setSched l _) h.ring_inv (Nat.min_le_right _ _)
    case rbFlush => exact hasRole_ne_fault (carryOn_ne_fault (k := finishFlush _) fun l => next_ne_fault _) f
    all_goals cases haccess
  | eitherRole =>
    cases i
    case rbStats => exact execRbStats_ne_fault s f
    case rbAvailWrite | rbAvailRead | rbFillPct => exact hasEitherRole_next_ne_fault s _ f
    all_goals cases haccess

/-- Settles O20: with the access nothing is refused, and in range nothing faults. -/
theorem everyInstructionCompletes : Obligations.EveryInstructionCompletes := by
  intro i s h hallows
  cases hexec : exec i s with
  | next t => exact ⟨t, rfl⟩
  | fault f => exact absurd hexec (exec_ne_fault h i f)
  | refused r => exact absurd hallows ((refusedExactlyWithoutAccess i s).1 ⟨r, hexec⟩)

end Sys2Proof.Machine
end

section
/-! Proofs that every step keeps the machine in its ranges (10_state.md R14, R25, R26, R36 to R42; 20_memory.md R45,
R54), that construction puts it there (70_reset_and_hazards.md R167), and which units a step changes. -/

namespace Sys2Proof.Machine

/-! ### Commands of the owner -/

theorem exec_owner_inv {i : Instr} {s t : State} (hi : i.access = .owner) (h : s.Inv) (e : exec i s = .next t) :
    t.Inv := by
  have hk := h.engineOk
  have hchip := h.chip_inv
  have hplayer := h.playerInv
  cases i
  case writeReg a d => cases (owned_next e).2; exact h.setChip (inv_writeReg hchip a d)
  case loadRegs p => cases (owned_next e).2; exact h.setChip (inv_loadRegs hchip p)
  case clock => cases (owned_next e).2; exact h.setChip (inv_clockChip hk.chip hchip)
  case chipGenerate n => cases (owned_next e).2; exact (h.setChip (inv_generateChip hk.chip _ hchip)).deliver _ _
  case reset mode => cases (owned_next e).2; exact (h.setChip (inv_resetChip hk.chip mode _)).setDraws _
  case triggerEnv => cases (owned_next e).2; exact h.setChip (inv_envRestart hchip)
  case setMixerOvr ch ft fn => cases (owned_next e).2; exact h.setChip ((hooks_setMixerOvr ch ft fn _).inv hchip)
  case clrMixerOvr ch => cases (owned_next e).2; exact h.setChip ((hooks_clrMixerOvr ch _).inv hchip)
  case setDrumOvr ch d => cases (owned_next e).2; exact h.setChip ((hooks_setDrumOvr ch d _).inv hchip)
  case clrDrumOvr ch => cases (owned_next e).2; exact h.setChip ((hooks_clrDrumOvr ch _).inv hchip)
  case setMute ch m | pbSetMute ch m =>
    cases (owned_next e).2
    exact h.setChip (hchip.congr rfl rfl rfl rfl rfl rfl)
  case pbPlay => cases (owned_next e).2; exact h.setPlayer (inv_play hk hplayer)
  case pbPause => cases (owned_next e).2; exact h.setPlayer (inv_pause hplayer)
  case pbStop => cases (owned_next e).2; exact h.setPlayer (inv_stop hk hplayer)
  case pbGenerate n => cases (owned_next e).2; exact (h.setPlayer (inv_generateEngine hk _ hplayer)).deliver _ _
  case pbSeek n => cases (owned_next e).2; exact h.setPlayer (inv_seek hk _ hplayer)
  all_goals cases hi

/-! ### Ring commands -/

theorem exec_ring_inv {i : Instr} {s t : State} (hi : i.access = .producer ∨ i.access = .consumer ∨ i.access = .eitherRole)
    (h : s.Inv) (e : exec i s = .next t) : t.Inv := by
  cases i
  case rbWriteNb xs =>
    have hf := fitting_le s.ring xs.length
    have hload := h.setBusyProducer (some (.write xs (fitting s.ring xs.length))) fun o ho => by cases ho; exact hf
    rcases carryOn_next (hasRole_next e).2 with rfl | ⟨l, e⟩
    · exact hload
    · exact inv_finishWrite (hload.setSched l) hf.1 hf.2 e
  case rbWriteBlk xs => exact inv_attemptWriteBlk h (Nat.zero_le _) (hasRole_next e).2
  case rbRead n =>
    have hn : min n.toNat (availRead s.ring) ≤ n.toNat ∧ min n.toNat (availRead s.ring) ≤ availRead s.ring := by omega
    have hload := h.setBusyConsumer (some (.read n.toNat (min n.toNat (availRead s.ring))))
      fun o ho => by cases ho; exact hn
    rcases carryOn_next (hasRole_next e).2 with rfl | ⟨l, e⟩
    · exact hload
    · exact inv_finishRead (hload.setSched l) hn.2 e
  case rbFlush =>
    have hload := h.setBusyConsumer (some (.flush s.ring.w)) fun o ho => by
      cases ho; exact ⟨h.ring_inv.w_lt, le_rfl⟩
    rcases carryOn_next (hasRole_next e).2 with rfl | ⟨l, e⟩
    · exact hload
    · exact inv_finishFlush (hload.setSched l) h.ring_inv.w_lt le_rfl e
  case rbStats =>
    change execRbStats s = .next t at e
    unfold execRbStats at e
    split at e
    · cases e; exact h.deliver _ _
    · have hload := h.setBusyProducer (some (.stats s.ring.played)) fun o ho => by cases ho; trivial
      rcases carryOn_next e with rfl | ⟨l, e⟩
      · exact hload
      · exact inv_finishStats (hload.setSched l) e
    · cases e
  case rbAvailWrite | rbAvailRead | rbFillPct => cases hasEitherRole_next e; exact h.deliver _ _
  all_goals simp [Instr.access] at hi

theorem isEffect_of_access {i : Instr} (h : i.access = .decode) : i.isEffect = true := by
  cases i
  case fxNop | fxDigidrum | fxSid | fxSyncbuzz => rfl
  all_goals cases h

theorem exec_inv {i : Instr} {s t : State} (hi : i.isEffect = false) (h : s.Inv) (e : exec i s = .next t) : t.Inv := by
  cases haccess : i.access with
  | owner => exact exec_owner_inv haccess h e
  | reader =>
    obtain ⟨x, hx⟩ := exec_of_reader haccess s
    cases inspected_next (hx ▸ e)
    exact h.deliver _ _
  | producer => exact exec_ring_inv (.inl haccess) h e
  | consumer => exact exec_ring_inv (.inr (.inl haccess)) h e
  | eitherRole => exact exec_ring_inv (.inr (.inr haccess)) h e
  | decode => exact absurd (hi.symm.trans (isEffect_of_access haccess)) nofun

/-! ### A ring command under way -/

theorem resumeOp_inv_producer {s t : State} (h : s.Inv) {op : RingOp} (ho : producerOpInv s.cfg s.ring op)
    (e : resumeOp op s = .next t) : t.Inv := by
  cases op with
  | write xs n => exact inv_finishWrite h ho.1 ho.2 e
  | writeBlk rest n done sleeps => exact inv_finishWriteBlk h ho.1 ho.2.1 ho.2.2 e
  | asleep rest done sleeps => exact inv_attemptWriteBlk h ho e
  | stats played => exact inv_finishStats h e
  | read count n => exact ho.elim
  | flush wa => exact ho.elim

theorem resumeOp_inv_consumer {s t : State} (h : s.Inv) {op : RingOp} (ho : consumerOpInv s.ring op)
    (e : resumeOp op s = .next t) : t.Inv := by
  cases op with
  | read count n => exact inv_finishRead h ho.2 e
  | flush wa => exact inv_finishFlush h ho.1 ho.2 e
  | write | writeBlk | asleep | stats => exact ho.elim

theorem State.Inv.turn {s : State} (h : s.Inv) (a : Agent) : (s.turn a).Inv := (h.setSched _).setIssuer a

theorem resumeOp_turn_inv {s t : State} (h : s.Inv) {a : Agent} {op : RingOp} (hb : (s.port a).busy = some op)
    (e : resumeOp op (s.turn a) = .next t) : t.Inv := by
  cases a with
  | producer => exact resumeOp_inv_producer (h.turn _) (h.prod_op op hb) e
  | consumer => exact resumeOp_inv_consumer (h.turn _) (h.cons_op op hb) e
  | other => exact absurd (h.other_op.symm.trans hb) nofun

theorem resumeOp_turn_ne_fault {s : State} (h : s.Inv) {a : Agent} {op : RingOp} (hb : (s.port a).busy = some op)
    (f : Fault) : resumeOp op (s.turn a) ≠ .fault f := by
  cases op with
  | read count n =>
    cases a with
    | producer => exact (h.prod_op _ hb).elim
    | consumer => exact finishRead_not_fault (s := s.turn .consumer) h.ring_inv (h.cons_op _ hb).2 f
    | other => exact absurd (h.other_op.symm.trans hb) nofun
  | asleep rest done sleeps => exact carryOn_ne_fault (fun l => finishWriteBlk_ne_fault rest _ done sleeps _) f
  | writeBlk rest n done sleeps => exact finishWriteBlk_ne_fault rest n done sleeps _ f
  | write | flush | stats => exact next_ne_fault _ f

/-! ### A decode under way -/

/-- Effects keep the player in its ranges when they end with the decode's flags as an unfinished or a finished decode
has them. -/
theorem ByEffects.inv_of_seen {cfg : Config} {p q : Player} (h : ByEffects cfg p q)
    (hs : q.eng.fxq = none → q.eng.seen = PerCh.all false) (hp : p.Inv cfg) : q.Inv cfg where
  chip := h.chip.inv hp.chip
  eng :=
    { cursor_le := by rw [h.cursor]; exact hp.eng.cursor_le
      cursor_lt := by rw [h.cursor, h.state]; exact hp.eng.cursor_lt
      sif_lt := by rw [h.state, h.sif, h.flen]; exact hp.eng.sif_lt
      sif_zero := by rw [h.state, h.sif]; exact hp.eng.sif_zero
      flen_val := by rw [h.flen]; exact hp.eng.flen_val
      racc_lt := by rw [h.racc]; exact hp.eng.racc_lt
      slot_inv := h.slots hp.slots
      seen_none := hs }

theorem inv_fxFinish {cfg : Config} {p : Player} (h : p.Inv cfg) : (fxFinish p).Inv cfg :=
  (fxFinish_byEffects cfg p).inv_of_seen (fun _ => rfl) h

theorem exec_effect_inv {i : Instr} {s t : State} (hi : i.isEffect = true) (h : s.Inv) (hq : s.eng.fxq ≠ none)
    (e : exec i s = .next t) : t.Inv := by
  have hr := h.engineOk.chip.rate_pos
  cases i
  case fxNop => cases e; exact h
  case fxDigidrum fch id rate =>
    cases e
    exact h.setPlayer ((fxDigidrum_byEffects s.cfg fch id rate s.player hr).inv_decoding
      (by rw [fxq_fxDigidrum]; exact hq) h.playerInv)
  case fxSid fch id rate =>
    cases e
    exact h.setPlayer ((fxSid_byEffects s.cfg fch rate s.player hr).inv_decoding
      (by rw [fxq_fxSid]; exact hq) h.playerInv)
  case fxSyncbuzz fch id rate =>
    cases e
    exact h.setPlayer ((fxSyncbuzz_byEffects s.cfg fch rate s.player hr).inv_decoding
      (by rw [fxq_fxSyncbuzz]; exact hq) h.playerInv)
  all_goals cases hi

theorem isEffect_decodeEffect (w : Word) : (decodeEffect w).isEffect = true := by
  unfold decodeEffect
  split <;> rfl

/-- The state in which a decode's next word runs. -/
theorem State.Inv.nextWord {s : State} (h : s.Inv) (ws : List Word) : (s.setEng { s.eng with fxq := some ws }).Inv :=
  h.setEng { h.eng_inv with seen_none := nofun }

/-! ### The invariant of every step -/

theorem step_inv {s t : State} (h : s.Inv) (e : step s = .next t) : t.Inv := by
  rcases step_next e with ⟨w, ws, -, e⟩ | ⟨-, rfl⟩ | ⟨-, a, op, -, hb, e⟩ | ⟨-, a, i, rest, -, -, hd, e⟩ | ⟨-, l, rfl⟩
  · exact exec_effect_inv (isEffect_decodeEffect w) (h.nextWord ws) nofun e
  · exact h.setPlayer (inv_fxFinish h.playerInv)
  · exact resumeOp_turn_inv h hb e
  · exact exec_inv (isEffect_of_decode hd) ((h.turn a).setInput a rest) e
  · exact h.setSched l

theorem step_ne_fault {s : State} (h : s.Inv) (f : Fault) : step s ≠ .fault f := by
  cases hq : s.eng.fxq with
  | some ws =>
    cases ws with
    | nil => rw [step_of_decode_end hq]; exact next_ne_fault _ f
    | cons w ws => rw [step_of_effectWord hq]; exact exec_ne_fault (h.nextWord ws) _ f
  | none =>
    cases ha : nextAgent s with
    | none => rw [step_of_no_agent hq ha]; exact next_ne_fault _ f
    | some a =>
      cases hb : (s.port a).busy with
      | some op => rw [step_of_busy hq ha hb]; exact resumeOp_turn_ne_fault h hb f
      | none =>
        cases hd : decode (s.port a).input with
        | ok r =>
          rw [step_of_decoded hq ha hb hd]
          exact exec_ne_fault (((h.setSched _).setInput a _).setIssuer a) _ f
        | error d =>
          by_cases hd' : d = .noWord
          · rw [step_of_no_input hq ha hb (hd' ▸ hd)]; exact next_ne_fault _ f
          · rw [step_of_bad_input hq ha hb hd hd']; exact fun e => nomatch e

/-- Settles O59: every kind of step, from the invariants of the units and of the commands under way. -/
theorem stepKeepsInvariant : Obligations.StepKeepsInvariant := fun _ h => ⟨step_ne_fault h, fun _ => step_inv h⟩

/-! ### Construction and reset -/

theorem availRead_constructRing (cfg : Config) : availRead (constructRing cfg) = 0 := by
  simp [availRead, cursorGap, constructRing]

theorem inv_constructRing (cfg : Config) : (constructRing cfg).Inv cfg where
  cap_eq := rfl
  w_lt := Nat.lt_of_lt_of_le Nat.two_pos (ringCapacity_pos _)
  r_lt := Nat.lt_of_lt_of_le Nat.two_pos (ringCapacity_pos _)
  buf_wf := rfl
  buf_lt := nofun
  filled := by rw [availRead_constructRing]; nofun

theorem constructEngine_of_configOk {cfg : Config} (h : configOk cfg = true) :
    constructEngine cfg = .built
      { state := .idle, cursor := 0, sif := 0, flen := 0, racc := 0, slot := PerCh.all .empty,
        seen := PerCh.all false, fxq := none } := by
  have hk := engineOk_of_configOk h
  have hloop : ∀ l, cfg.loopPoint = some l → l < frameCount cfg := fun l hl => by
    have := hk.loop_lt
    rwa [loopStart, hl] at this
  rw [constructEngine_of_no_error (fun hf => hk.frames (List.length_eq_zero_iff.2 hf)) hloop,
    if_neg (Nat.not_lt.2 hk.rate_le)]

theorem paramsInRange_of_configOk {cfg : Config} (h : configOk cfg = true) : paramsInRange cfg = true := by
  simp only [configOk, Bool.and_eq_true] at h
  exact h.1.1.1

/-- The machine that boot builds (R167). -/
def booted (cfg : Config) : State where
  cfg := cfg
  player :=
    { chip := constructChip cfg 0
      eng := { state := .idle, cursor := 0, sif := 0, flen := 0, racc := 0, slot := PerCh.all .empty,
               seen := PerCh.all false, fxq := none } }
  ring := constructRing cfg
  prod := Port.idle
  cons := Port.idle
  other := Port.idle
  sched := []
  issuer := .producer
  draws := drawsAfter cfg.resetMode 0

theorem boot_of_configOk {cfg : Config} (h : configOk cfg = true) : boot cfg = .built (booted cfg) := by
  rw [boot, if_pos (paramsInRange_of_configOk h), constructEngine_of_configOk h]
  rfl

theorem booted_inv {cfg : Config} (h : configOk cfg = true) : (booted cfg).Inv where
  cfg_ok := h
  chip_inv := inv_resetChip (engineOk_of_configOk h).chip _ _
  eng_inv :=
    have hk := engineOk_of_configOk h
    { cursor_le := Nat.zero_le _
      cursor_lt := fun _ => Nat.pos_of_ne_zero hk.frames
      sif_lt := by rintro (h | h) <;> cases h
      sif_zero := fun _ => rfl
      flen_val := .inl rfl
      racc_lt := hk.tick_pos
      slot_inv := fun ch => by cases ch <;> trivial
      seen_none := fun _ => rfl }
  ring_inv := inv_constructRing cfg
  prod_op := nofun
  cons_op := nofun
  other_op := rfl

/-- Settles O7: what each unit's construction puts in its ranges. -/
theorem bootEstablishesInvariant : Obligations.BootEstablishesInvariant := fun cfg h =>
  ⟨booted cfg, boot_of_configOk h, rfl, rfl, rfl, availRead_constructRing cfg, booted_inv h⟩

/-- After a RESET the direction falls: R13 is 0 (10_state.md R44). -/
theorem shapeAtt_zero : shapeAtt (Vector.replicate 16 0) = false := by decide

theorem booted_default : booted Config.default = State.reset := by
  have hcap : ringCapacity Config.default.rbRequestedSize = 1024 := by decide
  have hchip : constructChip Config.default 0 = State.reset.chip := by
    change envRestart _ = _
    rw [envRestart]
    simp only [shapeAtt_zero]
    rfl
  rw [booted, hchip, constructRing, hcap]
  rfl

/-- Settles O6: `State.reset` is what boot builds from the default parameters. -/
theorem resetStateInRange : Obligations.ResetStateInRange := by
  have hok : configOk Config.default = true := by decide
  have hboot := boot_of_configOk hok
  have hinv := booted_inv hok
  rw [booted_default] at hboot hinv
  exact ⟨rfl, rfl, rfl, rfl, rfl, rfl, rfl, rfl, rfl, rfl, rfl, rfl, rfl, hinv.chip_inv.lfsr_ne, rfl, rfl, rfl, rfl, rfl,
    rfl, rfl, rfl, rfl, rfl, rfl, hboot, hinv⟩

theorem exec_reset {s : State} (h : s.issuer = .producer) (mode : ResetMode) :
    exec (.reset mode) s = .next ((s.setChip (resetChip s.cfg mode s.draws)).setDraws (drawsAfter mode s.draws)) :=
  owned_of_producer h _

theorem toNat_lfsr_draw (n : Nat) : (BitVec.ofNat 17 ((Config.drawLfsr n).val + 1)).toNat = (Config.drawLfsr n).val + 1 := by
  have := (Config.drawLfsr n).isLt
  rw [BitVec.toNat_ofNat, Nat.mod_eq_of_lt (by omega)]

theorem lfsr_draw_ne_zero (n : Nat) : BitVec.ofNat 17 ((Config.drawLfsr n).val + 1) ≠ 0 := by
  intro h
  have := toNat_lfsr_draw n
  rw [h] at this
  exact absurd this.symm (Nat.succ_ne_zero _)

/-- Settles O10: the chip's state in each mode, the restart's direction read from the cleared R13. -/
theorem resetCommand : Obligations.ResetCommand := by
  refine ⟨fun s h => ⟨?_, _, lfsr_draw_ne_zero s.draws, ?_, toNat_lfsr_draw s.draws⟩, fun cfg n => rfl⟩
  all_goals
    rw [exec_reset h, resetChip, envRestart, shapeAtt_zero]
    rfl

end Sys2Proof.Machine
end

section
/-! Proofs about which parts of the machine an instruction or a step may change (10_state.md sections 1 to 5; 20_memory.md
R53; 60_exceptions.md R161). -/

namespace Sys2Proof.Machine

/-! ### Ring commands leave the player alone -/

/-- The parameters and the player are the same in `s` and `t`: the reach of a ring command. -/
structure SamePlayer (s t : State) : Prop where
  cfg    : t.cfg = s.cfg
  player : t.player = s.player

theorem SamePlayer.refl (s : State) : SamePlayer s s := ⟨rfl, rfl⟩

section

variable {s t : State}

theorem samePlayer_finishWrite {xs : List F32} {n : Nat} (e : finishWrite xs n s = .next t) : SamePlayer s t := by
  cases e
  exact ⟨rfl, rfl⟩

theorem samePlayer_finishWriteBlk {rest : List F32} {n done sleeps : Nat}
    (e : finishWriteBlk rest n done sleeps s = .next t) : SamePlayer s t := by
  unfold finishWriteBlk at e
  dsimp only at e
  split at e <;> cases e <;> exact ⟨rfl, rfl⟩

theorem samePlayer_finishRead {count n : Nat} (e : finishRead count n s = .next t) : SamePlayer s t := by
  unfold finishRead at e
  split at e <;> cases e
  exact ⟨rfl, rfl⟩

theorem samePlayer_finishFlush {wa : Nat} (e : finishFlush wa s = .next t) : SamePlayer s t := by
  cases e
  exact ⟨rfl, rfl⟩

theorem samePlayer_finishStats {played : BitVec 64} (e : finishStats played s = .next t) : SamePlayer s t := by
  cases e
  exact ⟨rfl, rfl⟩

/-- A command that loads and goes on leaves the player alone when its commit does. -/
theorem samePlayer_carryOn {a : Agent} {op : Option RingOp} {k : State → Outcome}
    (hk : ∀ u, k u = .next t → SamePlayer u t) (e : carryOn a (s.setBusy a op) k = .next t) : SamePlayer s t := by
  rcases carryOn_next e with rfl | ⟨l, e⟩
  · exact ⟨State.cfg_setBusy .., State.player_setBusy ..⟩
  · obtain ⟨hcfg, hplayer⟩ := hk _ e
    exact ⟨by simpa using hcfg, by simpa using hplayer⟩

theorem samePlayer_resumeOp {op : RingOp} (e : resumeOp op s = .next t) : SamePlayer s t := by
  cases op with
  | write => exact samePlayer_finishWrite e
  | writeBlk => exact samePlayer_finishWriteBlk e
  | asleep => exact samePlayer_carryOn (fun _ => samePlayer_finishWriteBlk) e
  | read => exact samePlayer_finishRead e
  | flush => exact samePlayer_finishFlush e
  | stats => exact samePlayer_finishStats e

theorem samePlayer_deliver (a : Agent) (x : Answer) (s : State) : SamePlayer s (s.deliver a x) :=
  ⟨State.cfg_deliver .., State.player_deliver ..⟩

theorem samePlayer_execRbStats (e : execRbStats s = .next t) : SamePlayer s t := by
  unfold execRbStats at e
  split at e
  · cases e; exact samePlayer_deliver ..
  · exact samePlayer_carryOn (fun _ => samePlayer_finishStats) e
  · cases e

/-- Every instruction but the owner's commands and the effect words leaves the player alone. -/
theorem samePlayer_exec {i : Instr} (ho : i.access ≠ .owner) (hd : i.access ≠ .decode) (e : exec i s = .next t) :
    SamePlayer s t := by
  cases i
  case rbWriteNb => exact samePlayer_carryOn (fun _ => samePlayer_finishWrite) (hasRole_next e).2
  case rbWriteBlk => exact samePlayer_carryOn (fun _ => samePlayer_finishWriteBlk) (hasRole_next e).2
  case rbRead => exact samePlayer_carryOn (fun _ => samePlayer_finishRead) (hasRole_next e).2
  case rbFlush => exact samePlayer_carryOn (fun _ => samePlayer_finishFlush) (hasRole_next e).2
  case rbStats => exact samePlayer_execRbStats e
  case rbAvailWrite | rbAvailRead | rbFillPct => cases hasEitherRole_next e; exact samePlayer_deliver ..
  case readReg | dumpRegs | getSample | pbPosition | pbState => cases inspected_next e; exact samePlayer_deliver ..
  case fxNop | fxDigidrum | fxSid | fxSyncbuzz => exact absurd rfl hd
  all_goals exact absurd rfl ho

/-! ### No step changes both units -/

theorem exec_units {i : Instr} (e : exec i s = .next t) : t.cfg = s.cfg ∧ (t.player = s.player ∨ t.ring = s.ring) := by
  by_cases ho : i.access = .owner
  · obtain ⟨u, hu, hframe⟩ := exec_of_owner ho s
    cases (owned_next (hu ▸ e)).2
    exact ⟨hframe.cfg, .inr hframe.ring⟩
  · by_cases hd : i.access = .decode
    · obtain ⟨p, hp⟩ := exec_of_decode hd s
      cases hp ▸ e
      exact ⟨rfl, .inr rfl⟩
    · have h := samePlayer_exec ho hd e
      exact ⟨h.cfg, .inl h.player⟩

end

theorem access_decodeEffect (w : Word) : (decodeEffect w).access = .decode := by
  unfold decodeEffect
  split <;> rfl

/-- Settles O60: an instruction changes one unit, and the fetch changes ports, schedule and the decode's words alone. -/
theorem configFixedUnitsSeparate : Obligations.ConfigFixedUnitsSeparate := by
  intro s t e
  rcases step_next e with ⟨w, ws, -, e⟩ | ⟨-, rfl⟩ | ⟨-, a, op, -, -, e⟩ | ⟨-, a, i, rest, -, -, -, e⟩ | ⟨-, l, rfl⟩
  · obtain ⟨p, hp⟩ := exec_of_decode (access_decodeEffect w) (s.setEng { s.eng with fxq := some ws })
    cases hp ▸ e
    exact ⟨rfl, .inr rfl⟩
  · exact ⟨rfl, .inr rfl⟩
  · have h := samePlayer_resumeOp e
    exact ⟨h.cfg, .inl h.player⟩
  · simpa [State.turn] using exec_units e
  · exact ⟨rfl, .inl rfl⟩

/-! ### What a sample and a frame load leave of the chip -/

theorem frame_clockChip (cfg : Config) (c : ChipState) :
    (clockChip cfg c).reg = c.reg ∧ (clockChip cfg c).mute = c.mute ∧ (clockChip cfg c).ovr = c.ovr ∧
      (clockChip cfg c).drum = c.drum :=
  have h := ticks_same cfg (dueTicks cfg c) { c with sub := (c.sub + cfg.masterClock) % tickDiv cfg }
  ⟨h.reg, h.mute, h.ovr, h.drum⟩

theorem frame_generateChip (cfg : Config) (n : Nat) (c : ChipState) :
    (generateChip cfg n c).1.reg = c.reg ∧ (generateChip cfg n c).1.mute = c.mute ∧
      (generateChip cfg n c).1.ovr = c.ovr ∧ (generateChip cfg n c).1.drum = c.drum := by
  induction n generalizing c with
  | zero => exact ⟨rfl, rfl, rfl, rfl⟩
  | succ n ih =>
    obtain ⟨hreg, hmute, hovr, hdrum⟩ := ih (clockChip cfg c)
    obtain ⟨kreg, kmute, kovr, kdrum⟩ := frame_clockChip cfg c
    exact ⟨hreg.trans kreg, hmute.trans kmute, hovr.trans kovr, hdrum.trans kdrum⟩

theorem mute_frameLoad (cfg : Config) (k : Nat) (p : Player) : (frameLoad cfg k p).chip.mute = p.chip.mute :=
  (frameLoad_keepsPhases cfg k p).mute

theorem mute_endFrame (cfg : Config) (p : Player) : (endFrame cfg p).chip.mute = p.chip.mute := by
  unfold endFrame
  dsimp only
  split
  · split
    · exact mute_frameLoad ..
    · exact (releaseAll_byEffects cfg _).chip.mute
  · exact mute_frameLoad ..

theorem mute_sampleStep (cfg : Config) (p : Player) : (sampleStep cfg p).chip.mute = p.chip.mute := by
  have hadvance : (fxAdvance cfg (p.onChip (clockChip cfg))).chip.mute = p.chip.mute :=
    (fxAdvance_sameButHooks cfg _).mute.trans (frame_clockChip cfg p.chip).2.1
  unfold sampleStep
  dsimp only
  split
  · exact (mute_endFrame cfg _).trans hadvance
  · exact hadvance

theorem mute_generateEngine (cfg : Config) (n : Nat) (p : Player) :
    (generateEngine cfg n p).1.chip.mute = p.chip.mute := by
  induction n generalizing p with
  | zero => rfl
  | succ n ih =>
    by_cases h : p.eng.state = .playing
    · rw [generateEngine_succ_of_playing cfg n h]
      dsimp only
      rw [ih, mute_sampleStep]
    · rw [generateEngine_of_ne_playing cfg _ h]

theorem KeepsPhases.refl (c : ChipState) : KeepsPhases c c := ⟨rfl, rfl, rfl, rfl, rfl, rfl, rfl, rfl, rfl, rfl⟩

theorem play_keepsPhases (cfg : Config) (p : Player) : KeepsPhases p.chip (play cfg p).chip := by
  cases h : p.eng.state with
  | idle => rw [play_of_stopped cfg (.inl h)]; exact frameLoad_keepsPhases cfg (playStart cfg p) (p.onEng _)
  | finished => rw [play_of_stopped cfg (.inr h)]; exact frameLoad_keepsPhases cfg (playStart cfg p) (p.onEng _)
  | paused => rw [play_of_paused cfg h]; exact .refl _
  | playing => rw [play_of_playing cfg h]; exact .refl _

theorem chip_pause (p : Player) : (pause p).chip = p.chip := by
  unfold pause
  split <;> rfl

/-! ### Only the named instructions write -/

/-- The parts of the chip that the instruction is not named as a writer of are the same in `c` and `d`. -/
structure KeepsUnnamed (i : Instr) (c d : ChipState) : Prop where
  reg    : i.writesRegs = false → d.reg = c.reg
  mute   : i.writesMutes = false → d.mute = c.mute
  ovr    : i.writesOvr = false → d.ovr = c.ovr
  drum   : i.writesDrum = false → d.drum = c.drum
  env    : i.writesEnv = false → SameEnv c d
  phases : i.clocksChip = false → KeepsPhases { c with mute := d.mute } d

section

variable {i : Instr} {c d : ChipState}

theorem KeepsPhases.apart_mute (h : KeepsPhases c d) : KeepsPhases { c with mute := d.mute } d := { h with mute := rfl }

theorem KeepsUnnamed.refl (i : Instr) (c : ChipState) : KeepsUnnamed i c c :=
  ⟨fun _ => rfl, fun _ => rfl, fun _ => rfl, fun _ => rfl, fun _ => .refl c, fun _ => .refl c⟩

theorem writesOvr_of_runsEffects (h : i.runsEffects = true) : i.writesOvr = true := by
  unfold Instr.writesOvr
  split
  · rfl
  · rfl
  · rfl
  · exact h

theorem writesDrum_of_runsEffects (h : i.runsEffects = true) : i.writesDrum = true := by
  unfold Instr.writesDrum
  split
  · rfl
  · rfl
  · rfl
  · exact h

/-- The reach of the hooks, for an instruction that runs effects. -/
theorem KeepsUnnamed.of_hooks (h : SameButHooks c d) (hi : i.runsEffects = true)
    (henv : i.writesEnv = false → SameEnv c d) : KeepsUnnamed i c d where
  reg _ := h.reg
  mute _ := h.mute
  ovr hw := nomatch (writesOvr_of_runsEffects hi).symm.trans hw
  drum hw := nomatch (writesDrum_of_runsEffects hi).symm.trans hw
  env := henv
  phases _ := h.keepsPhases.apart_mute

/-- A frame load, for an instruction that writes registers, runs effects and restarts the envelope. -/
theorem KeepsUnnamed.of_phases (h : KeepsPhases c d) (hr : i.writesRegs = true) (hi : i.runsEffects = true)
    (he : i.writesEnv = true) : KeepsUnnamed i c d where
  reg hw := nomatch hr.symm.trans hw
  mute _ := h.mute
  ovr hw := nomatch (writesOvr_of_runsEffects hi).symm.trans hw
  drum hw := nomatch (writesDrum_of_runsEffects hi).symm.trans hw
  env hw := nomatch he.symm.trans hw
  phases _ := h.apart_mute

end

theorem keepsUnnamed_writeReg (a : RegNum) (d : Byte) (c : ChipState) :
    KeepsUnnamed (.writeReg a d) c (writeReg a d c) where
  reg := nofun
  mute _ := by rw [writeReg_eq]
  ovr _ := by rw [writeReg_eq]
  drum _ := by rw [writeReg_eq]
  env hw := by
    rw [writeReg_ne (ne_of_beq_false hw)]
    exact ⟨rfl, rfl, rfl, rfl⟩
  phases _ := by
    rw [writeReg_eq]
    exact ⟨rfl, rfl, rfl, rfl, rfl, rfl, rfl, rfl, rfl, rfl⟩

theorem keepsUnnamed_loadRegs (p : Bytes16) (c : ChipState) : KeepsUnnamed (.loadRegs p) c (loadRegs p c) where
  reg := nofun
  mute _ := by rw [loadRegs_frame]
  ovr _ := by rw [loadRegs_frame]
  drum _ := by rw [loadRegs_frame]
  env := nofun
  phases _ := by
    rw [loadRegs_frame]
    exact ⟨rfl, rfl, rfl, rfl, rfl, rfl, rfl, rfl, rfl, rfl⟩

theorem keepsUnnamed_exec {i : Instr} {s t : State} (e : exec i s = .next t) : KeepsUnnamed i s.chip t.chip := by
  have hrefl := KeepsPhases.refl s.chip
  cases i
  -- chip commands
  case writeReg a d => cases (owned_next e).2; exact keepsUnnamed_writeReg a d s.chip
  case loadRegs p => cases (owned_next e).2; exact keepsUnnamed_loadRegs p s.chip
  case clock =>
    cases (owned_next e).2
    obtain ⟨hreg, hmute, hovr, hdrum⟩ := frame_clockChip s.cfg s.chip
    exact ⟨fun _ => hreg, fun _ => hmute, fun _ => hovr, fun _ => hdrum, nofun, nofun⟩
  case chipGenerate n =>
    cases (owned_next e).2
    obtain ⟨hreg, hmute, hovr, hdrum⟩ := frame_generateChip s.cfg n.toNat s.chip
    rw [State.chip_deliver]
    exact ⟨fun _ => hreg, fun _ => hmute, fun _ => hovr, fun _ => hdrum, nofun, nofun⟩
  case reset => exact ⟨nofun, nofun, nofun, nofun, nofun, nofun⟩
  case triggerEnv =>
    cases (owned_next e).2
    exact ⟨fun _ => rfl, fun _ => rfl, fun _ => rfl, fun _ => rfl, nofun, fun _ => { hrefl with }⟩
  case setMixerOvr | clrMixerOvr =>
    cases (owned_next e).2
    exact ⟨fun _ => rfl, fun _ => rfl, nofun, fun _ => rfl, fun _ => ⟨rfl, rfl, rfl, rfl⟩, fun _ => { hrefl with }⟩
  case setDrumOvr | clrDrumOvr =>
    cases (owned_next e).2
    exact ⟨fun _ => rfl, fun _ => rfl, fun _ => rfl, nofun, fun _ => ⟨rfl, rfl, rfl, rfl⟩, fun _ => { hrefl with }⟩
  case setMute | pbSetMute =>
    cases (owned_next e).2
    exact ⟨fun _ => rfl, nofun, fun _ => rfl, fun _ => rfl, fun _ => ⟨rfl, rfl, rfl, rfl⟩,
      fun _ => { hrefl with mute := rfl }⟩
  -- engine commands
  case pbPlay => cases (owned_next e).2; exact .of_phases (play_keepsPhases s.cfg s.player) rfl rfl rfl
  case pbSeek n => cases (owned_next e).2; exact .of_phases (seek_keepsPhases s.cfg n.toNat s.player) rfl rfl rfl
  case pbPause =>
    cases (owned_next e).2
    rw [State.chip_setPlayer, chip_pause]
    exact .refl _ _
  case pbStop =>
    cases (owned_next e).2
    exact .of_hooks (releaseAll_byEffects s.cfg s.player).chip rfl fun _ => sameEnv_releaseAll s.player
  case pbGenerate n =>
    cases (owned_next e).2
    rw [State.chip_deliver]
    exact ⟨nofun, fun _ => mute_generateEngine s.cfg n.toNat s.player, nofun, nofun, nofun, nofun⟩
  -- effect words
  case fxNop => cases e; exact .refl _ _
  case fxDigidrum fch id rate =>
    have hhooks := exec_effect_sameButHooks rfl e
    cases e
    exact .of_hooks hhooks rfl fun _ => sameEnv_fxDigidrum s.cfg fch id rate s.player
  case fxSid fch id rate =>
    have hhooks := exec_effect_sameButHooks rfl e
    cases e
    exact .of_hooks hhooks rfl fun _ => sameEnv_fxSid fch rate s.player
  case fxSyncbuzz => exact .of_hooks (exec_effect_sameButHooks rfl e) rfl nofun
  -- reads and ring commands
  all_goals
    have hchip : t.chip = s.chip := congrArg Player.chip (samePlayer_exec (by rintro ⟨⟩) (by rintro ⟨⟩) e).player
    rw [hchip]
    exact .refl _ _

/-- Settles O14, by the instruction. -/
theorem onlyNamedWriters : Obligations.OnlyNamedWriters := by
  intro i s t e
  have h := keepsUnnamed_exec e
  refine ⟨h.reg, h.mute, h.ovr, h.drum, fun hw => ?_, fun hw => ?_⟩
  · obtain ⟨hecnt, hestep, heup, hehold⟩ := h.env hw
    exact ⟨hecnt, hestep, heup, hehold⟩
  · have hp := h.phases hw
    exact ⟨hp.tcnt, hp.tout, hp.ncnt, hp.lfsr, hp.sub, hp.dcbuf, hp.dcsum, hp.dcpos, hp.sample⟩

end Sys2Proof.Machine
end

section
/-! Proofs about the chip: silence after a RESET (70_reset_and_hazards.md R166), the period writes (30_encoding.md R68),
the output's range (44_mixer_chip.md R95) and the sub-clock converter (R96). -/

namespace Sys2Proof.Machine

/-! ### Silence after a RESET (R166) -/

theorem execAll_clocks {s : State} (h : s.issuer = .producer) (n : Nat) :
    execAll (List.replicate n .clock) s = .next (s.setChip ((clockChip s.cfg)^[n] s.chip)) := by
  induction n generalizing s with
  | zero => rfl
  | succ n ih =>
    have hrest := ih (s := s.setChip (clockChip s.cfg s.chip)) h
    rw [List.replicate_succ, execAll, exec_clock h]
    exact hrest

/-- A chip with cleared registers, no drum override and an empty DC window: RESET leaves it so, and CLOCK keeps it. -/
structure Silent (c : ChipState) : Prop where
  reg   : c.reg = Vector.replicate 16 0
  drum  : c.drum = PerCh.all none
  dcsum : c.dcsum = 0

section

variable {cfg : Config} {c : ChipState}

theorem silent_resetChip (cfg : Config) (mode : ResetMode) (n : Nat) : Silent (resetChip cfg mode n) := ⟨rfl, rfl, rfl⟩

theorem Silent.levelIndex (h : Silent c) (ch : Ch) : levelIndex c ch = 0 := by
  have hreg : regAt c.reg (volReg ch) = 0 := by rw [h.reg, regAt]; simp
  rw [Machine.levelIndex, envSelect, volume, hreg]
  rfl

theorem Silent.levelCode (h : Silent c) (ht : levelTableOk cfg.levelTable = true) (ch : Ch) :
    levelCode cfg c ch = 0 := by
  cases hm : c.mute.get ch with
  | true => exact levelCode_of_mute cfg hm
  | false =>
    rw [levelCode_of_normal cfg hm (by rw [h.drum, PerCh.get_all]), h.levelIndex, levelAt_zero ht, ite_self]

theorem Silent.mix (h : Silent c) (ht : levelTableOk cfg.levelTable = true) : mix cfg c = 0 := by
  rw [Machine.mix, h.levelCode ht, h.levelCode ht, h.levelCode ht]

theorem f32_zero (den : Nat) : f32 0 den = 0 := rfl

/-- A silent chip's next sample is +0.0. -/
theorem Silent.takeSample (h : Silent c) (ht : levelTableOk cfg.levelTable = true) :
    Silent (takeSample cfg c) ∧ (takeSample cfg c).sample = 0 := by
  have hsum : (dcUpdate cfg (Machine.mix cfg c) c).dcsum = 0 := by simp [dcUpdate, h.mix ht, h.dcsum]
  refine ⟨⟨h.reg, h.drum, hsum⟩, ?_⟩
  change f32 (outputNum cfg (Machine.mix cfg c) (dcUpdate cfg (Machine.mix cfg c) c).dcsum) _ = 0
  rw [hsum, h.mix ht, outputNum, Nat.mul_zero]
  exact f32_zero _

theorem Silent.clockChip (h : Silent c) (ht : levelTableOk cfg.levelTable = true) :
    Silent (clockChip cfg c) ∧ (clockChip cfg c).sample = 0 := by
  have hg := ticks_same cfg (dueTicks cfg c) { c with sub := (c.sub + cfg.masterClock) % tickDiv cfg }
  exact Silent.takeSample ⟨hg.reg.trans h.reg, hg.drum.trans h.drum, hg.dcsum.trans h.dcsum⟩ ht

theorem Silent.iterate_clockChip (h : Silent c) (ht : levelTableOk cfg.levelTable = true) (n : Nat) :
    Silent ((Machine.clockChip cfg)^[n] c) := by
  induction n with
  | zero => exact h
  | succ n ih => rw [Function.iterate_succ_apply']; exact (ih.clockChip ht).1

end

/-- Settles O11: RESET leaves the chip silent, and a silent chip's CLOCKs give 0 and keep it silent. -/
theorem resetSilence : Obligations.ResetSilence := by
  intro s mode n hinv h
  have ht := hinv.engineOk.chip.table_ok
  have hsilent := (silent_resetChip s.cfg mode s.draws).iterate_clockChip ht n
  have hclocks := execAll_clocks
    (s := (s.setChip (resetChip s.cfg mode s.draws)).setDraws (drawsAfter mode s.draws)) h (n + 1)
  refine ⟨_, by rw [execAll, exec_reset h]; exact hclocks, ?_⟩
  rw [State.chip_setChip, Function.iterate_succ_apply']
  exact ⟨(hsilent.clockChip ht).1.mix ht, (hsilent.clockChip ht).2⟩

/-! ### The period writes (R68) -/

section

variable {s : State} {a b : RegNum}

/-- Two writes of registers other than R13 change the registers alone. -/
theorem execAll_two_writes (h : s.issuer = .producer) (ha : a ≠ 13) (hb : b ≠ 13) (d e : Byte) :
    execAll [.writeReg a d, .writeReg b e] s = .next (s.setChip (maskedWrite b e (maskedWrite a d s.chip))) := by
  have hsecond := exec_writeReg (s := s.setChip (maskedWrite a d s.chip)) h b e
  rw [writeReg_ne hb] at hsecond
  rw [execAll, exec_writeReg h, writeReg_ne ha]
  simp only [execAll, hsecond]
  rfl

end

theorem tonePeriod_congr {p q : Bytes16} {c : Ch} (hlo : regAt p (toneLoReg c) = regAt q (toneLoReg c))
    (hhi : regAt p (toneHiReg c) = regAt q (toneHiReg c)) : tonePeriod p c = tonePeriod q c := by
  rw [tonePeriod, tonePeriod, hlo, hhi]

theorem noisePeriod_congr {p q : Bytes16} (h : regAt p 6 = regAt q 6) : noisePeriod p = noisePeriod q := by
  rw [noisePeriod, noisePeriod, h]

theorem envPeriod_congr {p q : Bytes16} (h11 : regAt p 11 = regAt q 11) (h12 : regAt p 12 = regAt q 12) :
    envPeriod p = envPeriod q := by rw [envPeriod, envPeriod, h11, h12]

/-- A register that stores all its bits keeps a byte as it is. -/
theorem toNat_and_full {n : Nat} (h : n < 256) : (BitVec.ofNat 8 n &&& 0xFF#8).toNat = n := by
  rw [BitVec.toNat_and, BitVec.toNat_ofNat]
  change n % 256 &&& (2 ^ 8 - 1) = n
  rw [Nat.and_two_pow_sub_one_eq_mod]
  omega

theorem toNat_and_nibble {n : Nat} (h : n < 16) : (BitVec.ofNat 8 n &&& 0x0F#8).toNat = n := by
  rw [BitVec.toNat_and, BitVec.toNat_ofNat]
  change n % 256 &&& (2 ^ 4 - 1) = n
  rw [Nat.and_two_pow_sub_one_eq_mod]
  omega

/-- The register numbers of R16 do not meet one another, nor the other periods' registers. -/
theorem toneRegs_apart (c : Ch) :
    toneLoReg c ≠ toneHiReg c ∧ (∀ d, d ≠ c → toneLoReg d ≠ toneLoReg c ∧ toneLoReg d ≠ toneHiReg c ∧
      toneHiReg d ≠ toneLoReg c ∧ toneHiReg d ≠ toneHiReg c) ∧
    ∀ b ∈ ([6, 11, 12, 13] : List RegNum), toneLoReg c ≠ b ∧ toneHiReg c ≠ b := by
  refine ⟨by cases c <;> decide, fun d hd => ?_, by cases c <;> decide⟩
  cases c <;> cases d <;> first | exact absurd rfl hd | decide

/-- Settles O15: the two masked writes, whose registers no other period reads. -/
theorem periodWrites : Obligations.PeriodWrites := by
  intro s h
  refine ⟨fun c p hp => ?_, fun p hp => ?_⟩
  · obtain ⟨hlohi, hother, hfixed⟩ := toneRegs_apart c
    have h13 := hfixed 13 (by decide)
    refine ⟨_, execAll_two_writes h h13.1 h13.2 _ _, ?_, fun d hd => ?_, ?_, ?_, fun b hlo hhi => ?_, rfl⟩
    · have hmask : regMask (toneLoReg c) = 0xFF#8 ∧ regMask (toneHiReg c) = 0x0F#8 := by cases c <;> decide
      rw [State.chip_setChip, tonePeriod, regAt_maskedWrite, if_pos rfl, regAt_maskedWrite, if_neg hlohi,
        regAt_maskedWrite, if_pos rfl, hmask.1, hmask.2, toNat_and_full (by omega), toNat_and_nibble (by omega)]
      omega
    · obtain ⟨hll, hlh, hhl, hhh⟩ := hother d hd
      apply tonePeriod_congr <;> simp [*]
    · have h6 := hfixed 6 (by decide)
      apply noisePeriod_congr
      simp [h6.1.symm, h6.2.symm]
    · have h11 := hfixed 11 (by decide)
      have h12 := hfixed 12 (by decide)
      apply envPeriod_congr <;> simp [h11.1.symm, h11.2.symm, h12.1.symm, h12.2.symm]
    · simp [hlo, hhi]
  · refine ⟨_, execAll_two_writes h (by decide) (by decide) _ _, ?_, fun c => ?_, ?_, fun b h11 h12 => ?_, rfl⟩
    · have hmask : regMask 11 = 0xFF#8 ∧ regMask 12 = 0xFF#8 := by decide
      rw [State.chip_setChip, envPeriod, regAt_maskedWrite, if_pos rfl, regAt_maskedWrite, if_neg (by decide),
        regAt_maskedWrite, if_pos rfl, hmask.1, hmask.2, toNat_and_full (by omega), toNat_and_full (by omega)]
      omega
    · obtain ⟨-, -, hfixed⟩ := toneRegs_apart c
      have h11 := hfixed 11 (by decide)
      have h12 := hfixed 12 (by decide)
      apply tonePeriod_congr <;> simp [h11, h12]
    · exact noisePeriod_congr (by simp)
    · simp [h11, h12]

/-! ### The output's range (R95) -/

/-- One of `n` numbers up to `B`, taken `n` times, is within `(n - 1) * B` of their sum. -/
theorem natAbs_length_mul_sub_sum_le {l : List Nat} {B m : Nat} (hm : m ∈ l) (hB : ∀ x ∈ l, x ≤ B) :
    ((l.length * m : Nat) - (l.sum : Int)).natAbs ≤ (l.length - 1) * B := by
  have hrest : (l.erase m).sum ≤ (l.erase m).length * B := by
    simpa using List.sum_le_card_nsmul _ B fun x hx => hB x (List.mem_of_mem_erase hx)
  have hperm := List.perm_cons_erase hm
  have hsum : l.sum = m + (l.erase m).sum := by rw [hperm.sum_eq, List.sum_cons]
  have hlen : l.length = (l.erase m).length + 1 := by rw [hperm.length_eq, List.length_cons]
  have hmul : (l.erase m).length * m ≤ (l.erase m).length * B := Nat.mul_le_mul_left _ (hB m hm)
  rw [hsum, hlen, Nat.add_one_mul, Nat.add_sub_cancel]
  omega

/-- The mix of a sample is that of the chip it leaves, and the DC window holds it. -/
theorem takeSample_output (cfg : Config) {g : ChipState} (h : g.dcpos < g.dcbuf.length) :
    (takeSample cfg g).sample =
        f32 ((cfg.dcWindow * mix cfg (takeSample cfg g) : Nat) - ((takeSample cfg g).dcsum : Int))
          (cfg.dcWindow * 3 * 65535) ∧
      mix cfg (takeSample cfg g) ∈ (takeSample cfg g).dcbuf :=
  ⟨rfl, List.mem_set h _⟩

theorem clockChip_output {cfg : Config} {c : ChipState} (h : c.Inv cfg) :
    (clockChip cfg c).sample =
        f32 ((cfg.dcWindow * mix cfg (clockChip cfg c) : Nat) - ((clockChip cfg c).dcsum : Int))
          (cfg.dcWindow * 3 * 65535) ∧
      mix cfg (clockChip cfg c) ∈ (clockChip cfg c).dcbuf := by
  have hg := ticks_same cfg (dueTicks cfg c) { c with sub := (c.sub + cfg.masterClock) % tickDiv cfg }
  apply takeSample_output
  rw [hg.dcpos, hg.dcbuf, h.dcbuf_len]
  exact h.dcpos_lt

/-- Settles O29: the mix stands in the window among DC_WINDOW mixes of at most 196605. -/
theorem outputRange : Obligations.OutputRange := by
  intro s hinv h
  have hchip := inv_clockChip hinv.engineOk.chip hinv.chip_inv
  obtain ⟨hsample, hmem⟩ := clockChip_output hinv.chip_inv
  refine ⟨_, exec_clock h, hsample, ?_⟩
  have hbound := natAbs_length_mul_sub_sum_le hmem hchip.dcbuf_le
  rwa [hchip.dcbuf_len, ← hchip.dcsum_eq] at hbound

/-! ### The sub-clock converter (R96) -/

theorem sub_clockChip (cfg : Config) (c : ChipState) :
    (clockChip cfg c).sub = (c.sub + cfg.masterClock) % tickDiv cfg :=
  (ticks_same cfg (dueTicks cfg c) { c with sub := (c.sub + cfg.masterClock) % tickDiv cfg }).sub

/-- The internal ticks of the next `n` CLOCKs. -/
def ticksOfClocks (cfg : Config) (c : ChipState) (n : Nat) : Nat :=
  ((List.range n).map fun i => dueTicks cfg ((clockChip cfg)^[i] c)).sum

/-- The ticks of `n` CLOCKs and the remainder they leave account for `n` times MASTER_CLOCK: no drift. -/
theorem ticksOfClocks_balance (cfg : Config) (c : ChipState) (n : Nat) :
    ((clockChip cfg)^[n] c).sub + tickDiv cfg * ticksOfClocks cfg c n = c.sub + n * cfg.masterClock := by
  induction n with
  | zero => simp [ticksOfClocks]
  | succ n ih =>
    have hsucc : ticksOfClocks cfg c (n + 1) = ticksOfClocks cfg c n + dueTicks cfg ((clockChip cfg)^[n] c) := by
      simp [ticksOfClocks, List.range_succ]
    have hstep := Nat.mod_add_div (((clockChip cfg)^[n] c).sub + cfg.masterClock) (tickDiv cfg)
    rw [hsucc, Function.iterate_succ_apply', sub_clockChip, Nat.mul_add, Nat.add_one_mul, dueTicks]
    omega

theorem sub_iterate_clockChip_lt {cfg : Config} {c : ChipState} (hd : 0 < tickDiv cfg) (h : c.sub < tickDiv cfg)
    (n : Nat) : ((clockChip cfg)^[n] c).sub < tickDiv cfg := by
  induction n with
  | zero => exact h
  | succ n ih => rw [Function.iterate_succ_apply', sub_clockChip]; exact Nat.mod_lt _ hd

/-- Ticks and remainder of `n` CLOCKs are quotient and remainder by TICK_DIV. -/
theorem ticksOfClocks_divMod {cfg : Config} {c : ChipState} (hd : 0 < tickDiv cfg) (h : c.sub < tickDiv cfg) (n : Nat) :
    ticksOfClocks cfg c n = (c.sub + n * cfg.masterClock) / tickDiv cfg ∧
      ((clockChip cfg)^[n] c).sub = (c.sub + n * cfg.masterClock) % tickDiv cfg := by
  obtain ⟨hdiv, hmod⟩ := (Nat.div_mod_unique hd).2
    ⟨ticksOfClocks_balance cfg c n, sub_iterate_clockChip_lt hd h n⟩
  exact ⟨hdiv.symm, hmod.symm⟩

/-- Settles O31: quotient and remainder by TICK_DIV; over SAMPLE_RATE CLOCKs `8 * SAMPLE_RATE` divides out. -/
theorem subClockConverter : Obligations.SubClockConverter := by
  intro cfg c hr
  have hd : 0 < tickDiv cfg := Nat.mul_pos (by decide) hr
  refine ⟨rfl, sub_clockChip cfg c, fun h0 n => ?_, fun hlt hdvd => ?_⟩
  · have h := ticksOfClocks_divMod hd (h0 ▸ hd) n
    rwa [h0, Nat.zero_add] at h
  · change c.sub < tickDiv cfg at hlt
    have hclocks : cfg.sampleRate * cfg.masterClock = tickDiv cfg * (cfg.masterClock / 8) := by
      rw [tickDiv, Nat.mul_comm 8, Nat.mul_assoc, Nat.mul_div_cancel' (Nat.dvd_of_mod_eq_zero hdvd)]
    have h := (ticksOfClocks_divMod hd hlt cfg.sampleRate).1
    rw [hclocks, Nat.add_mul_div_left _ _ hd, Nat.div_eq_of_lt hlt, Nat.zero_add] at h
    exact h

end Sys2Proof.Machine
end

section
/-! Proofs about the generators over any number of ticks (41_tone.md, 42_noise.md, 43_envelope.md R81) and about the
order of the parts of a tick (44_mixer_chip.md R97). -/

namespace Sys2Proof.Machine

/-! ### A counter that divides the ticks -/

/-- One tick of a counter with period `P`: it counts on, or starts again and the value it clocks takes a step. -/
def divide {α : Type} (P : Nat) (f : α → α) (x : Nat × α) : Nat × α :=
  if P ≤ x.1 + 1 then (0, f x.2) else (x.1 + 1, x.2)

section

variable {α : Type} {P : Nat} (f : α → α) (v : α)

theorem divide_of_lt {k : Nat} (h : k + 1 < P) : divide P f (k, v) = (k + 1, v) := if_neg (Nat.not_le.2 h)

theorem divide_of_le {k : Nat} (h : P ≤ k + 1) : divide P f (k, v) = (0, f v) := if_pos h

/-- From 0 the value takes one step every `P` ticks. -/
theorem iterate_divide (hP : 0 < P) (n : Nat) : (divide P f)^[n] (0, v) = (n % P, f^[n / P] v) := by
  induction n with
  | zero => simp
  | succ n ih =>
    have hn := Nat.mod_add_div n P
    rw [Function.iterate_succ_apply', ih]
    by_cases h : n % P + 1 < P
    · obtain ⟨hdiv, hmod⟩ := (Nat.div_mod_unique (a := n + 1) (d := n / P) hP).2 ⟨by omega, h⟩
      rw [divide_of_lt f _ h, hdiv, hmod]
    · have hlt := Nat.mod_lt n hP
      obtain ⟨hdiv, hmod⟩ := (Nat.div_mod_unique (a := n + 1) (c := 0) (d := n / P + 1) hP).2
        ⟨by rw [Nat.mul_add_one]; omega, hP⟩
      rw [divide_of_le f _ (Nat.not_lt.1 h), hdiv, hmod, Function.iterate_succ_apply']

/-- From any count the first step comes when the counter gets to `P`, at once when it is past it, and not before. -/
theorem iterate_divide_before {k n : Nat} (h : n < max (P - k) 1) : (divide P f)^[n] (k, v) = (k + n, v) := by
  induction n with
  | zero => rfl
  | succ n ih =>
    rw [Function.iterate_succ_apply', ih (by omega), divide_of_lt f v (by omega)]
    rfl

theorem iterate_divide_first (k : Nat) : (divide P f)^[max (P - k) 1] (k, v) = (0, f v) := by
  obtain ⟨m, hm⟩ : ∃ m, max (P - k) 1 = m + 1 := ⟨max (P - k) 1 - 1, by omega⟩
  rw [hm, Function.iterate_succ_apply', iterate_divide_before f v (by omega), divide_of_le f v (by omega)]

end

theorem iterate_not (b : Bool) (n : Nat) : (!·)^[n] b = (b ^^ decide (n % 2 = 1)) := by
  induction n with
  | zero => simp
  | succ n ih =>
    rw [Function.iterate_succ_apply', ih]
    rcases Nat.mod_two_eq_zero_or_one n with h | h <;> simp [h, Nat.add_mod]

/-- A view of the chip that every tick changes in its own way, the registers being constant. -/
theorem iterate_view {β : Type} {view : ChipState → β} {g : β → β} {cfg : Config} {c : ChipState}
    (h : ∀ d : ChipState, d.reg = c.reg → view (tick cfg d) = g (view d)) (n : Nat) :
    view (ticks cfg n c) = g^[n] (view c) := by
  suffices ∀ d : ChipState, d.reg = c.reg → view (ticks cfg n d) = g^[n] (view d) from this c rfl
  induction n with
  | zero => exact fun _ _ => rfl
  | succ n ih =>
    intro d hd
    rw [ticks, ih _ ((tick_same cfg d).reg.trans hd), h d hd, Function.iterate_succ_apply]

/-! ### Tone (41_tone.md) -/

/-- A channel's tone counter and tone output. -/
def toneView (ch : Ch) (c : ChipState) : Nat × Bool := ((c.tcnt.get ch).toNat, c.tout.get ch)

theorem tonePeriodEff_le (reg : Bytes16) (ch : Ch) : tonePeriodEff reg ch ≤ 4095 := by
  have := (regAt reg (toneLoReg ch)).isLt
  unfold tonePeriodEff tonePeriod
  omega

theorem toneView_toneTick (ch : Ch) (c : ChipState) :
    toneView ch (toneTick ch c) = divide (tonePeriodEff c.reg ch) (!·) (toneView ch c) := by
  have hP := tonePeriodEff_le c.reg ch
  by_cases h : tonePeriodEff c.reg ch ≤ (c.tcnt.get ch).toNat + 1
  · simp [toneView, toneTick, divide, h]
  · have hlt : (c.tcnt.get ch).toNat + 1 < 4096 := by omega
    simp [toneView, toneTick, divide, h, Nat.mod_eq_of_lt hlt]

theorem toneView_toneTick_ne {ch d : Ch} (h : d ≠ ch) (c : ChipState) :
    toneView d (toneTick ch c) = toneView d c := by
  unfold toneTick
  dsimp only
  split <;> simp [toneView, PerCh.get_set_ne _ _ h]

theorem toneView_noiseTick (cfg : Config) (d : Ch) (c : ChipState) : toneView d (noiseTick cfg c) = toneView d c := by
  rw [noiseTick_eq]
  rfl

theorem toneView_envTick (d : Ch) (c : ChipState) : toneView d (envTick c) = toneView d c := by
  rw [envTick_eq]
  rfl

theorem reg_toneTick (ch : Ch) (c : ChipState) : (toneTick ch c).reg = c.reg := (toneTick_same ch c).reg

theorem toneView_tick (cfg : Config) (ch : Ch) (c : ChipState) :
    toneView ch (tick cfg c) = divide (tonePeriodEff c.reg ch) (!·) (toneView ch c) := by
  rw [tick, toneView_envTick, toneView_noiseTick]
  cases ch <;> simp [toneView_toneTick, toneView_toneTick_ne, reg_toneTick]

theorem toneView_ticks (cfg : Config) (ch : Ch) (c : ChipState) (n : Nat) :
    toneView ch (ticks cfg n c) = (divide (tonePeriodEff c.reg ch) (!·))^[n] (toneView ch c) :=
  iterate_view (fun d hd => by rw [toneView_tick, hd]) n

/-- Settles O21: a channel's counter divides the ticks by its period. -/
theorem toneCycle : Obligations.ToneCycle := by
  intro cfg c ch
  have hview := toneView_ticks cfg ch c
  have hfirst := (hview _).trans (iterate_divide_first (!·) (c.tout.get ch) (c.tcnt.get ch).toNat)
  refine ⟨rfl, fun h0 n => ?_, fun n hn => ?_, (Prod.mk.inj hfirst).2, BitVec.eq_of_toNat_eq (Prod.mk.inj hfirst).1⟩
  · have hP : 0 < tonePeriodEff c.reg ch := Nat.lt_of_lt_of_le Nat.one_pos (Nat.le_max_right _ _)
    have h := hview n
    rw [toneView, toneView, h0] at h
    have h := h.trans (iterate_divide (!·) (c.tout.get ch) hP n)
    rw [iterate_not] at h
    exact Prod.mk.inj h
  · exact (Prod.mk.inj ((hview n).trans (iterate_divide_before (!·) (c.tout.get ch) hn))).2

/-! ### Noise (42_noise.md) -/

/-- The noise counter and the shift register. -/
def noiseView (c : ChipState) : Nat × BitVec 17 := (c.ncnt.toNat, c.lfsr)

/-- The noise register's step: reseeded when 0, then shifted (R76). -/
def noiseStep (cfg : Config) (v : BitVec 17) : BitVec 17 := lfsrShift (if v = 0 then cfg.noiseReseed else v)

/-- The ticks between two shifts of the noise register. -/
def noiseTicks (cfg : Config) (reg : Bytes16) : Nat := cfg.noisePrescale * noisePeriodEff reg

theorem noiseTicks_bounds {cfg : Config} (h : cfg.noisePrescale = 1 ∨ cfg.noisePrescale = 2) (reg : Bytes16) :
    0 < noiseTicks cfg reg ∧ noiseTicks cfg reg ≤ 62 := by
  have hperiod : 1 ≤ noisePeriodEff reg ∧ noisePeriodEff reg ≤ 31 := by
    unfold noisePeriodEff noisePeriod
    omega
  unfold noiseTicks
  rcases h with h | h <;> rw [h] <;> omega

theorem noiseView_noiseTick {cfg : Config} (hp : cfg.noisePrescale = 1 ∨ cfg.noisePrescale = 2) (c : ChipState) :
    noiseView (noiseTick cfg c) = divide (noiseTicks cfg c.reg) (noiseStep cfg) (noiseView c) := by
  have hP := (noiseTicks_bounds hp c.reg).2
  by_cases h : noiseTicks cfg c.reg ≤ c.ncnt.toNat + 1
  · exact (congrArg noiseView (if_pos h)).trans (divide_of_le (noiseStep cfg) c.lfsr h).symm
  · have hlt : c.ncnt.toNat + 1 < 2 ^ 6 := by omega
    have hcount : (BitVec.ofNat 6 (c.ncnt.toNat + 1)).toNat = c.ncnt.toNat + 1 := Nat.mod_eq_of_lt hlt
    refine (congrArg noiseView (if_neg h)).trans (.trans ?_ (divide_of_lt (noiseStep cfg) c.lfsr (Nat.not_le.1 h)).symm)
    exact congrArg (·, c.lfsr) hcount

theorem noiseView_toneTick (ch : Ch) (c : ChipState) : noiseView (toneTick ch c) = noiseView c := by
  rw [toneTick_eq]
  rfl

theorem noiseView_envTick (c : ChipState) : noiseView (envTick c) = noiseView c := by
  rw [envTick_eq]
  rfl

theorem noiseView_tick {cfg : Config} (hp : cfg.noisePrescale = 1 ∨ cfg.noisePrescale = 2) (c : ChipState) :
    noiseView (tick cfg c) = divide (noiseTicks cfg c.reg) (noiseStep cfg) (noiseView c) := by
  rw [tick, noiseView_envTick, noiseView_noiseTick hp]
  simp only [noiseView_toneTick, reg_toneTick]

theorem noiseView_ticks {cfg : Config} (hp : cfg.noisePrescale = 1 ∨ cfg.noisePrescale = 2) (c : ChipState) (n : Nat) :
    noiseView (ticks cfg n c) = (divide (noiseTicks cfg c.reg) (noiseStep cfg))^[n] (noiseView c) :=
  iterate_view (fun d hd => by rw [noiseView_tick hp, hd]) n

theorem noiseStep_of_ne_zero (cfg : Config) {v : BitVec 17} (h : v ≠ 0) : noiseStep cfg v = lfsrShift v := by
  rw [noiseStep, if_neg h]

theorem iterate_lfsrShift_ne_zero {v : BitVec 17} (h : v ≠ 0) (n : Nat) : lfsrShift^[n] v ≠ 0 := by
  induction n with
  | zero => exact h
  | succ n ih => rw [Function.iterate_succ_apply']; exact lfsrShift_ne_zero ih

/-- A nonzero register is never reseeded. -/
theorem iterate_noiseStep (cfg : Config) {v : BitVec 17} (h : v ≠ 0) (n : Nat) :
    (noiseStep cfg)^[n] v = lfsrShift^[n] v := by
  induction n with
  | zero => rfl
  | succ n ih =>
    rw [Function.iterate_succ_apply', ih, noiseStep_of_ne_zero cfg (iterate_lfsrShift_ne_zero h n),
      Function.iterate_succ_apply']

/-- Settles O23: the noise counter divides the ticks by NOISE_PRESCALE * NPE. -/
theorem noiseRate : Obligations.NoiseRate := by
  refine ⟨fun cfg c hp hv => ?_, fun cfg c hv hle => ?_⟩
  · have hview := noiseView_ticks hp c
    have hfirst := (hview _).trans (iterate_divide_first (noiseStep cfg) c.lfsr c.ncnt.toNat)
    refine ⟨rfl, fun h0 n => ?_, fun n hn => ?_, ?_, BitVec.eq_of_toNat_eq (Prod.mk.inj hfirst).1⟩
    · have h := hview n
      rw [noiseView, noiseView, h0] at h
      have h := h.trans (iterate_divide (noiseStep cfg) c.lfsr (noiseTicks_bounds hp c.reg).1 n)
      rw [iterate_noiseStep cfg hv] at h
      exact Prod.mk.inj h
    · exact (Prod.mk.inj ((hview n).trans (iterate_divide_before (noiseStep cfg) c.lfsr hn))).2
    · exact (Prod.mk.inj hfirst).2.trans (noiseStep_of_ne_zero cfg hv)
  · simp [noiseTick, hle, hv]

/-! ### The envelope's steps (43_envelope.md R81) -/

/-- The envelope's step, direction and hold. -/
def envState (c : ChipState) : BitVec 5 × Bool × Bool := (c.estep, c.eup, c.ehold)

/-- The envelope's period counter and its state. -/
def envView (c : ChipState) : Nat × BitVec 5 × Bool × Bool := (c.ecnt.toNat, envState c)

/-- ENV_ADVANCE as a step of the envelope's state, under the registers of `c`. -/
def envStep (c : ChipState) (e : BitVec 5 × Bool × Bool) : BitVec 5 × Bool × Bool :=
  envState (envAdvance { c with estep := e.1, eup := e.2.1, ehold := e.2.2 })

/-- ENV_ADVANCE reads the registers and the envelope's state alone (R82). -/
theorem envState_envAdvance {c d : ChipState} (h : d.reg = c.reg) :
    envState (envAdvance d) = envStep c (envState d) := by
  unfold envStep envState envAdvance
  dsimp only
  rw [h]
  split_ifs <;> rfl

theorem reg_envAdvance (c : ChipState) : (envAdvance c).reg = c.reg := by rw [envAdvance_eq]

theorem iterate_envStep (c : ChipState) (n : Nat) : (envStep c)^[n] (envState c) = envState (envAdvance^[n] c) := by
  have hreg : ∀ n, (envAdvance^[n] c).reg = c.reg := by
    intro n
    induction n with
    | zero => rfl
    | succ n ih => rw [Function.iterate_succ_apply', reg_envAdvance, ih]
  induction n with
  | zero => rfl
  | succ n ih => rw [Function.iterate_succ_apply', ih, Function.iterate_succ_apply', envState_envAdvance (hreg n)]

theorem envPeriodEff_bounds (reg : Bytes16) : 0 < envPeriodEff reg ∧ envPeriodEff reg ≤ 65535 := by
  have h11 := (regAt reg 11).isLt
  have h12 := (regAt reg 12).isLt
  unfold envPeriodEff envPeriod
  omega

theorem envView_envTick {c d : ChipState} (h : d.reg = c.reg) :
    envView (envTick d) = divide (envPeriodEff c.reg) (envStep c) (envView d) := by
  have hP := (envPeriodEff_bounds d.reg).2
  rw [← h]
  by_cases hle : envPeriodEff d.reg ≤ d.ecnt.toNat + 1
  · refine (congrArg envView (if_pos hle)).trans (.trans ?_ (divide_of_le (envStep c) (envState d) hle).symm)
    have hcount : (envAdvance { d with ecnt := 0 }).ecnt = 0 := by rw [envAdvance_eq]
    rw [envView, hcount, envState_envAdvance (d := { d with ecnt := 0 }) h]
    rfl
  · have hlt : d.ecnt.toNat + 1 < 2 ^ 16 := by omega
    have hcount : (BitVec.ofNat 16 (d.ecnt.toNat + 1)).toNat = d.ecnt.toNat + 1 := Nat.mod_eq_of_lt hlt
    refine (congrArg envView (if_neg hle)).trans
      (.trans ?_ (divide_of_lt (envStep c) (envState d) (Nat.not_le.1 hle)).symm)
    exact congrArg (·, envState d) hcount

theorem envView_toneTick (ch : Ch) (c : ChipState) : envView (toneTick ch c) = envView c := by
  rw [toneTick_eq]
  rfl

theorem envView_noiseTick (cfg : Config) (c : ChipState) : envView (noiseTick cfg c) = envView c := by
  rw [noiseTick_eq]
  rfl

theorem envView_ticks (cfg : Config) (c : ChipState) (n : Nat) :
    envView (ticks cfg n c) = (divide (envPeriodEff c.reg) (envStep c))^[n] (envView c) := by
  refine iterate_view (fun d hd => ?_) n
  have hreg : (noiseTick cfg (toneTick .C (toneTick .B (toneTick .A d)))).reg = c.reg := by
    rw [(noiseTick_same cfg _).reg, reg_toneTick, reg_toneTick, reg_toneTick, hd]
  rw [tick, envView_envTick hreg, envView_noiseTick, envView_toneTick, envView_toneTick, envView_toneTick]

/-- The envelope's view, field by field. -/
theorem envView_eq_iff (c d : ChipState) (k : Nat) :
    envView c = (k, envState d) ↔
      c.ecnt.toNat = k ∧ c.estep = d.estep ∧ c.eup = d.eup ∧ c.ehold = d.ehold := by
  simp [envView, envState]

/-- Settles O25: the period counter divides the ticks by EPE. -/
theorem envelopeRate : Obligations.EnvelopeRate := by
  intro cfg c
  have hview := envView_ticks cfg c
  have hfirst := (hview _).trans (iterate_divide_first (envStep c) (envState c) c.ecnt.toNat)
  rw [← envState_envAdvance rfl, envView_eq_iff] at hfirst
  refine ⟨rfl, fun h0 n => ?_, fun n hn => ?_, BitVec.eq_of_toNat_eq hfirst.1, hfirst.2⟩
  · have h := hview n
    rw [envView.eq_1 c, h0] at h
    have h := h.trans (iterate_divide (envStep c) (envState c) (envPeriodEff_bounds c.reg).1 n)
    rwa [iterate_envStep, envView_eq_iff] at h
  · have h := (hview n).trans (iterate_divide_before (envStep c) (envState c) hn)
    exact ((envView_eq_iff ..).1 h).2

end Sys2Proof.Machine
end

section
/-! Proofs about the order of a tick's parts (41_tone.md R70, 44_mixer_chip.md R97), the LFSR's period (42_noise.md R75,
R78) and the envelope's shapes (43_envelope.md R80, R84). -/

namespace Sys2Proof.Machine

/-! ### The parts of a tick commute -/

/-- A tone tick reads its channel's counter, output and period registers alone (R70). -/
theorem toneTick_local {ch : Ch} {c d : ChipState} (ht : c.tcnt.get ch = d.tcnt.get ch)
    (ho : c.tout.get ch = d.tout.get ch) (hp : tonePeriodEff c.reg ch = tonePeriodEff d.reg ch) :
    (toneTick ch c).tcnt.get ch = (toneTick ch d).tcnt.get ch ∧
      (toneTick ch c).tout.get ch = (toneTick ch d).tout.get ch := by
  unfold toneTick
  dsimp only
  rw [ht, hp]
  split <;> simp [ho]

theorem tonePeriodEff_congr {p q : Bytes16} {c : Ch} (hlo : regAt p (toneLoReg c) = regAt q (toneLoReg c))
    (hhi : regAt p (toneHiReg c) = regAt q (toneHiReg c)) : tonePeriodEff p c = tonePeriodEff q c := by
  rw [tonePeriodEff, tonePeriodEff, tonePeriod_congr hlo hhi]

theorem set_get_same {α : Type} (p : PerCh α) (ch : Ch) : p.set ch (p.get ch) = p := by cases ch <;> rfl

theorem set_comm {α : Type} (p : PerCh α) {a b : Ch} (h : a ≠ b) (x y : α) :
    (p.set a x).set b y = (p.set b y).set a x := by
  cases a <;> cases b <;> first | rfl | exact absurd rfl h

/-- A tone tick writes its channel's counter and output alone (R70). -/
theorem toneTick_frame (ch : Ch) (c : ChipState) :
    toneTick ch c = { c with tcnt := c.tcnt.set ch ((toneTick ch c).tcnt.get ch),
                             tout := c.tout.set ch ((toneTick ch c).tout.get ch) } := by
  unfold toneTick
  dsimp only
  split <;> simp [set_get_same]

/-- Another channel's tick leaves what a tone tick reads. -/
theorem toneTick_after {a b : Ch} (h : a ≠ b) (c : ChipState) :
    toneTick a (toneTick b c) =
      { c with tcnt := (c.tcnt.set b ((toneTick b c).tcnt.get b)).set a ((toneTick a c).tcnt.get a),
               tout := (c.tout.set b ((toneTick b c).tout.get b)).set a ((toneTick a c).tout.get a) } := by
  have hview := toneView_toneTick_ne h c
  obtain ⟨htcnt, htout⟩ := Prod.mk.inj hview
  obtain ⟨hcnt, hout⟩ := toneTick_local (ch := a) (c := toneTick b c) (d := c) (BitVec.eq_of_toNat_eq htcnt) htout
    (by rw [reg_toneTick])
  rw [toneTick_frame a (toneTick b c), hcnt, hout, toneTick_frame b c]
  simp

theorem toneTick_comm (a b : Ch) (c : ChipState) : toneTick a (toneTick b c) = toneTick b (toneTick a c) := by
  by_cases h : a = b
  · rw [h]
  · rw [toneTick_after h, toneTick_after (Ne.symm h), set_comm _ h, set_comm _ h]

/-- A tone tick passes over changes of the noise generator and of the envelope. -/
theorem toneTick_with_rest (ch : Ch) (c : ChipState) (n : BitVec 6) (l : BitVec 17) (k : BitVec 16) (e : BitVec 5)
    (u h : Bool) :
    toneTick ch { c with ncnt := n, lfsr := l, ecnt := k, estep := e, eup := u, ehold := h } =
      { toneTick ch c with ncnt := n, lfsr := l, ecnt := k, estep := e, eup := u, ehold := h } := by
  unfold toneTick
  dsimp only
  split <;> rfl

/-- A noise tick passes over changes of the tones and of the envelope. -/
theorem noiseTick_with_rest (cfg : Config) (c : ChipState) (t : PerCh (BitVec 12)) (o : PerCh Bool) (k : BitVec 16)
    (e : BitVec 5) (u h : Bool) :
    noiseTick cfg { c with tcnt := t, tout := o, ecnt := k, estep := e, eup := u, ehold := h } =
      { noiseTick cfg c with tcnt := t, tout := o, ecnt := k, estep := e, eup := u, ehold := h } := by
  unfold noiseTick
  dsimp only
  split <;> rfl

/-- An envelope tick passes over changes of the tones. -/
theorem envTick_with_tones (c : ChipState) (t : PerCh (BitVec 12)) (o : PerCh Bool) :
    envTick { c with tcnt := t, tout := o } = { envTick c with tcnt := t, tout := o } := by
  unfold envTick envAdvance
  dsimp only
  split_ifs <;> rfl

/-- An envelope tick passes over changes of the noise generator. -/
theorem envTick_with_noise (c : ChipState) (n : BitVec 6) (l : BitVec 17) :
    envTick { c with ncnt := n, lfsr := l } = { envTick c with ncnt := n, lfsr := l } := by
  unfold envTick envAdvance
  dsimp only
  split_ifs <;> rfl

theorem toneTick_noiseTick (cfg : Config) (a : Ch) (c : ChipState) :
    toneTick a (noiseTick cfg c) = noiseTick cfg (toneTick a c) := by
  calc toneTick a (noiseTick cfg c)
      = { toneTick a c with ncnt := (noiseTick cfg c).ncnt, lfsr := (noiseTick cfg c).lfsr, ecnt := c.ecnt,
                            estep := c.estep, eup := c.eup, ehold := c.ehold } :=
        (congrArg (toneTick a) (noiseTick_eq cfg c)).trans (toneTick_with_rest a c _ _ _ _ _ _)
    _ = { noiseTick cfg c with tcnt := (toneTick a c).tcnt, tout := (toneTick a c).tout, ecnt := c.ecnt,
                               estep := c.estep, eup := c.eup, ehold := c.ehold } := by
        rw [toneTick_eq a c, noiseTick_eq cfg c]
    _ = noiseTick cfg (toneTick a c) :=
        (noiseTick_with_rest cfg c _ _ _ _ _ _).symm.trans (congrArg (noiseTick cfg) (toneTick_eq a c).symm)

theorem toneTick_envTick (a : Ch) (c : ChipState) : toneTick a (envTick c) = envTick (toneTick a c) := by
  calc toneTick a (envTick c)
      = { toneTick a c with ncnt := c.ncnt, lfsr := c.lfsr, ecnt := (envTick c).ecnt, estep := (envTick c).estep,
                            eup := (envTick c).eup, ehold := (envTick c).ehold } :=
        (congrArg (toneTick a) (envTick_eq c)).trans (toneTick_with_rest a c _ _ _ _ _ _)
    _ = { envTick c with tcnt := (toneTick a c).tcnt, tout := (toneTick a c).tout } := by
        rw [toneTick_eq a c, envTick_eq c]
    _ = envTick (toneTick a c) := (envTick_with_tones c _ _).symm.trans (congrArg envTick (toneTick_eq a c).symm)

theorem noiseTick_envTick (cfg : Config) (c : ChipState) : noiseTick cfg (envTick c) = envTick (noiseTick cfg c) := by
  calc noiseTick cfg (envTick c)
      = { noiseTick cfg c with tcnt := c.tcnt, tout := c.tout, ecnt := (envTick c).ecnt, estep := (envTick c).estep,
                               eup := (envTick c).eup, ehold := (envTick c).ehold } :=
        (congrArg (noiseTick cfg) (envTick_eq c)).trans (noiseTick_with_rest cfg c _ _ _ _ _ _)
    _ = { envTick c with ncnt := (noiseTick cfg c).ncnt, lfsr := (noiseTick cfg c).lfsr } := by
        rw [noiseTick_eq cfg c, envTick_eq c]
    _ = envTick (noiseTick cfg c) := (envTick_with_noise c _ _).symm.trans (congrArg envTick (noiseTick_eq cfg c).symm)

theorem ticks_eq_iterate (cfg : Config) (n : Nat) (c : ChipState) : ticks cfg n c = (tick cfg)^[n] c := by
  induction n generalizing c with
  | zero => rfl
  | succ n ih => rw [ticks, ih, Function.iterate_succ_apply]

/-- Settles O22: each part of a tick passes over what the others write. -/
theorem tickOrderIrrelevant : Obligations.TickOrderIrrelevant :=
  ⟨fun _ _ _ ht ho hlo hhi => toneTick_local ht ho (tonePeriodEff_congr hlo hhi), toneTick_frame, toneTick_comm,
    toneTick_noiseTick, toneTick_envTick, noiseTick_envTick, fun cfg c => ⟨rfl, fun n => ticks_eq_iterate cfg n c⟩⟩

/-! ### The LFSR's period (42_noise.md R75, R78) -/

theorem getLsbD_lfsrShift_lt (v : BitVec 17) {i : Nat} (h : i < 16) : (lfsrShift v).getLsbD i = v.getLsbD (i + 1) := by
  have hfeed : (65536#17).getLsbD i = false := by interval_cases i <;> rfl
  rw [lfsrShift, BitVec.getLsbD_or, BitVec.getLsbD_ushiftRight, Nat.add_comm 1 i]
  split <;> simp [hfeed]

theorem getLsbD_lfsrShift_top (v : BitVec 17) : (lfsrShift v).getLsbD 16 = (v.getLsbD 0 ^^ v.getLsbD 3) := by
  rw [lfsrShift, BitVec.getLsbD_or, BitVec.getLsbD_ushiftRight, BitVec.getLsbD_of_ge v (1 + 16) le_rfl]
  cases v.getLsbD 0 ^^ v.getLsbD 3 <;> simp

/-- A map of registers that respects XOR, bit by bit. -/
def XorLinear (f : BitVec 17 → BitVec 17) : Prop := ∀ x y, f (x ^^^ y) = f x ^^^ f y

section

variable {f g : BitVec 17 → BitVec 17}

theorem XorLinear.comp (hf : XorLinear f) (hg : XorLinear g) : XorLinear (f ∘ g) := fun x y => by
  rw [Function.comp, hg, hf, Function.comp, Function.comp]

theorem XorLinear.map_zero (hf : XorLinear f) : f 0 = 0 := by
  have h := hf 0 0
  rwa [BitVec.xor_self, BitVec.xor_self] at h

/-- Two such maps are the same when they are on the registers with one bit. -/
theorem XorLinear.ext (hf : XorLinear f) (hg : XorLinear g)
    (h : ∀ i < 17, f (BitVec.twoPow 17 i) = g (BitVec.twoPow 17 i)) : f = g := by
  suffices ∀ n ≤ 17, ∀ v : BitVec 17, (∀ i, n ≤ i → v.getLsbD i = false) → f v = g v from
    funext fun v => this 17 le_rfl v fun i hi => BitVec.getLsbD_of_ge v i hi
  intro n hn
  induction n with
  | zero =>
    intro v hv
    have hv0 : v = 0 := BitVec.eq_of_getLsbD_eq fun i _ => by simpa using hv i (Nat.zero_le i)
    rw [hv0, hf.map_zero, hg.map_zero]
  | succ n ih =>
    intro v hv
    cases hbit : v.getLsbD n with
    | false =>
      refine ih (by omega) v fun i hi => ?_
      rcases Nat.eq_or_lt_of_le hi with rfl | hi
      · exact hbit
      · exact hv i hi
    | true =>
      have hlow : ∀ i, n ≤ i → (v ^^^ BitVec.twoPow 17 n).getLsbD i = false := by
        intro i hi
        rw [BitVec.getLsbD_xor, BitVec.getLsbD_twoPow]
        rcases Nat.eq_or_lt_of_le hi with rfl | hi
        · simp [hbit, Nat.lt_of_succ_le hn]
        · simp [hv i hi, Nat.ne_of_lt hi]
      have hsplit : v = (v ^^^ BitVec.twoPow 17 n) ^^^ BitVec.twoPow 17 n := by
        rw [BitVec.xor_assoc, BitVec.xor_self, BitVec.xor_zero]
      rw [hsplit, hf, hg, ih (by omega) _ hlow, h n hn]

/-- The XOR of the entries of a table whose bit is set in `v`. -/
def combine : List (BitVec 17) → BitVec 17 → BitVec 17
  | [], _ => 0
  | t :: T, v => (if v.getLsbD 0 then t else 0) ^^^ combine T (v >>> 1)

/-- The images of the registers with one bit. -/
def images (f : BitVec 17 → BitVec 17) : List (BitVec 17) := (List.range 17).map fun i => f (BitVec.twoPow 17 i)

theorem xorLinear_combine (T : List (BitVec 17)) : XorLinear (combine T) := by
  induction T with
  | nil => exact fun _ _ => (BitVec.xor_self (x := 0)).symm
  | cons t T ih =>
    intro x y
    have hshift : (x ^^^ y) >>> 1 = (x >>> 1) ^^^ (y >>> 1) := BitVec.ushiftRight_xor_distrib x y 1
    have hhead : (if (x ^^^ y).getLsbD 0 then t else 0) =
        (if x.getLsbD 0 then t else 0) ^^^ (if y.getLsbD 0 then t else 0) := by
      rw [BitVec.getLsbD_xor]
      cases x.getLsbD 0 <;> cases y.getLsbD 0 <;> simp
    simp only [combine]
    rw [hshift, ih, hhead]
    ac_rfl

/-- A linear map is the combination of its images. -/
theorem XorLinear.combine_images (hf : XorLinear f) : combine (images f) = f := by
  refine (xorLinear_combine _).ext hf fun i hi => ?_
  interval_cases i <;> simp [images, List.range_succ, combine]

end

theorem xorLinear_lfsrShift : XorLinear lfsrShift := by
  intro x y
  refine BitVec.eq_of_getLsbD_eq fun i hi => ?_
  rw [BitVec.getLsbD_xor]
  rcases Nat.eq_or_lt_of_le (Nat.le_of_lt_succ hi) with rfl | hlt
  · simp only [getLsbD_lfsrShift_top, BitVec.getLsbD_xor, Bool.xor_assoc, Bool.xor_left_comm (y.getLsbD 0)]
  · simp only [getLsbD_lfsrShift_lt _ hlt, BitVec.getLsbD_xor]

/-- The images under `f ∘ f`, from those under `f`. -/
def square (T : List (BitVec 17)) : List (BitVec 17) := T.map (combine T)

theorem square_images {f : BitVec 17 → BitVec 17} (hf : XorLinear f) : square (images f) = images (f ∘ f) := by
  rw [square, hf.combine_images, images, List.map_map]
  rfl

theorem iterate_square_images {f : BitVec 17 → BitVec 17} (hf : XorLinear f) (k : Nat) :
    XorLinear f^[2 ^ k] ∧ square^[k] (images f) = images f^[2 ^ k] := by
  induction k with
  | zero => exact ⟨hf, rfl⟩
  | succ k ih =>
    have hdouble : f^[2 ^ (k + 1)] = f^[2 ^ k] ∘ f^[2 ^ k] := by rw [pow_succ, Nat.mul_two, Function.iterate_add]
    rw [Function.iterate_succ_apply', ih.2, square_images ih.1, hdouble]
    exact ⟨ih.1.comp ih.1, rfl⟩

/-- 2^17 shifts are one shift: the seventeen squarings of the images, computed. -/
theorem iterate_lfsrShift_two_pow : lfsrShift^[2 ^ 17] = lfsrShift := by
  obtain ⟨hlin, himages⟩ := iterate_square_images xorLinear_lfsrShift 17
  have hclosed : square^[17] (images lfsrShift) = images lfsrShift := by decide +kernel
  rw [← hlin.combine_images, ← himages, hclosed, xorLinear_lfsrShift.combine_images]

theorem lfsrShift_injective : Function.Injective lfsrShift := by
  intro x y h
  by_contra hne
  refine lfsrShift_ne_zero (v := x ^^^ y) (fun h0 => hne ?_) ?_
  · exact BitVec.xor_eq_zero_iff.1 h0
  · rw [xorLinear_lfsrShift, h, BitVec.xor_self]
    rfl

theorem lfsrShift_period (v : BitVec 17) : lfsrShift^[131071] v = v := by
  apply lfsrShift_injective
  rw [← Function.iterate_succ_apply' lfsrShift]
  exact congrFun iterate_lfsrShift_two_pow v

/-- A register that a shift keeps has all its bits equal, and bit 16 is then 0. -/
theorem eq_zero_of_lfsrShift_eq {v : BitVec 17} (h : lfsrShift v = v) : v = 0 := by
  have hlt : ∀ i < 16, v.getLsbD i = v.getLsbD (i + 1) := fun i hi => by rw [← getLsbD_lfsrShift_lt v hi, h]
  have htop : v.getLsbD 16 = (v.getLsbD 0 ^^ v.getLsbD 3) := by rw [← getLsbD_lfsrShift_top, h]
  have hall : ∀ i ≤ 16, v.getLsbD i = v.getLsbD 0 := by
    intro i hi
    induction i with
    | zero => rfl
    | succ i ih => rw [← hlt i (by omega), ih (by omega)]
  rw [hall 16 le_rfl, hall 3 (by decide), Bool.xor_self] at htop
  refine BitVec.eq_of_getLsbD_eq fun i hi => ?_
  rw [hall i (by omega), htop]
  exact BitVec.getLsbD_zero.symm

/-- Settles O24: the period divides the prime 131071, and no nonzero register is a fixed point. -/
theorem lfsrMaximalPeriod : Obligations.LfsrMaximalPeriod := by
  refine ⟨fun v => ⟨fun i hi => getLsbD_lfsrShift_lt v hi, getLsbD_lfsrShift_top v⟩,
    fun v hv => ⟨iterate_lfsrShift_ne_zero hv, fun n => ?_⟩⟩
  have hprime : Nat.Prime 131071 := by norm_num
  have hdvd : Function.minimalPeriod lfsrShift v ∣ 131071 :=
    Function.IsPeriodicPt.minimalPeriod_dvd (lfsrShift_period v)
  have hperiod : Function.minimalPeriod lfsrShift v = 131071 := by
    refine ((Nat.dvd_prime hprime).1 hdvd).resolve_left fun hone => hv ?_
    exact eq_zero_of_lfsrShift_eq (Function.minimalPeriod_eq_one_iff_isFixedPt.1 hone)
  rw [← hperiod]
  exact Function.isPeriodicPt_iff_minimalPeriod_dvd

/-! ### The envelope's shapes (43_envelope.md R80, R84) -/

section

variable {c : ChipState}

theorem envAdvance_of_hold (h : c.ehold = true) : envAdvance c = c := by
  rw [envAdvance, if_pos h]

theorem envAdvance_of_lt (h : c.ehold = false) (hs : c.estep.toNat < 31) :
    envAdvance c = { c with estep := c.estep + 1 } := by
  rw [envAdvance, if_neg (by simp [h]), if_pos hs]

theorem envAdvance_of_not_cont (h : c.ehold = false) (hs : c.estep.toNat = 31) (hc : shapeCont c.reg = false) :
    envAdvance c = { c with eup := false, estep := 31, ehold := true } := by
  rw [envAdvance, if_neg (by simp [h]), if_neg (by omega), if_pos (by simp [hc])]

theorem envAdvance_of_cont_hold (h : c.ehold = false) (hs : c.estep.toNat = 31) (hc : shapeCont c.reg = true)
    (hh : shapeHold c.reg = true) : envAdvance c = { c with eup := c.eup ^^ shapeAlt c.reg, ehold := true } := by
  rw [envAdvance, if_neg (by simp [h]), if_neg (by omega), if_neg (by simp [hc]), if_pos hh]
  cases shapeAlt c.reg <;> simp

theorem envAdvance_of_repeat (h : c.ehold = false) (hs : c.estep.toNat = 31) (hc : shapeCont c.reg = true)
    (hh : shapeHold c.reg = false) : envAdvance c = { c with eup := c.eup ^^ shapeAlt c.reg, estep := 0 } := by
  rw [envAdvance, if_neg (by simp [h]), if_neg (by omega), if_neg (by simp [hc]), if_neg (by simp [hh])]
  cases shapeAlt c.reg <;> simp

end

/-- The shape goes on after its first 32 steps. -/
def shapeRepeats (reg : Bytes16) : Bool := shapeCont reg && !shapeHold reg

/-- The envelope runs, `n` steps after a restart under the registers `r`: after each 32 steps the step starts again,
and the direction turns over when ALT is set. -/
structure RunsAt (r : Bytes16) (n : Nat) (d : ChipState) : Prop where
  reg   : d.reg = r
  hold  : d.ehold = false
  step  : d.estep.toNat = n % 32
  up    : d.eup = (shapeAtt r ^^ (shapeAlt r && decide (n / 32 % 2 = 1)))

/-- The envelope is held, after a restart under the registers `r`. -/
structure HeldAt (r : Bytes16) (d : ChipState) : Prop where
  reg   : d.reg = r
  hold  : d.ehold = true
  step  : d.estep.toNat = 31
  up    : d.eup = (shapeCont r && (shapeAtt r ^^ shapeAlt r))

theorem runsAt_envRestart (c : ChipState) : RunsAt c.reg 0 (envRestart c) :=
  ⟨rfl, rfl, rfl, by simp [envRestart]⟩

theorem RunsAt.next {r : Bytes16} {n : Nat} {d : ChipState} (h : RunsAt r n d)
    (hn : n + 1 < 32 ∨ shapeRepeats r = true) : RunsAt r (n + 1) (envAdvance d) := by
  obtain ⟨rfl, hhold, hstep, hup⟩ := h
  by_cases hlt : n % 32 < 31
  · rw [envAdvance_of_lt hhold (by omega)]
    refine ⟨rfl, hhold, ?_, ?_⟩
    · show (d.estep + 1).toNat = _
      rw [BitVec.toNat_add, hstep]
      change (n % 32 + 1) % 32 = _
      omega
    · rw [hup, show (n + 1) / 32 = n / 32 by omega]
  · obtain ⟨hcont, hshape⟩ : shapeCont d.reg = true ∧ shapeHold d.reg = false := by
      simpa [shapeRepeats] using hn.resolve_left (by omega)
    rw [envAdvance_of_repeat hhold (by omega) hcont hshape]
    refine ⟨rfl, hhold, ?_, ?_⟩
    · show (0 : Nat) = _
      omega
    · show (d.eup ^^ _) = _
      rw [hup, show (n + 1) / 32 = n / 32 + 1 by omega]
      rcases Nat.mod_two_eq_zero_or_one (n / 32) with h2 | h2 <;> cases shapeAlt d.reg <;> simp [h2, Nat.add_mod]

theorem RunsAt.held {r : Bytes16} {d : ChipState} (h : RunsAt r 31 d) (hn : shapeRepeats r = false) :
    HeldAt r (envAdvance d) := by
  obtain ⟨rfl, hhold, hstep, hup⟩ := h
  cases hcont : shapeCont d.reg with
  | false =>
    rw [envAdvance_of_not_cont hhold hstep hcont]
    exact ⟨rfl, rfl, rfl, by simp [hcont]⟩
  | true =>
    have hshape : shapeHold d.reg = true := by simpa [shapeRepeats, hcont] using hn
    rw [envAdvance_of_cont_hold hhold hstep hcont hshape]
    exact ⟨rfl, rfl, hstep, by simp [hcont, hup]⟩

theorem HeldAt.next {r : Bytes16} {d : ChipState} (h : HeldAt r d) : HeldAt r (envAdvance d) := by
  rwa [envAdvance_of_hold h.hold]

theorem runsAt_iterate (c : ChipState) (n : Nat) (h : n < 32 ∨ shapeRepeats c.reg = true) :
    RunsAt c.reg n (envAdvance^[n] (envRestart c)) := by
  induction n with
  | zero => exact runsAt_envRestart c
  | succ n ih =>
    rw [Function.iterate_succ_apply']
    exact (ih (h.imp_left (by omega))).next h

theorem heldAt_iterate (c : ChipState) {n : Nat} (hn : 32 ≤ n) (h : shapeRepeats c.reg = false) :
    HeldAt c.reg (envAdvance^[n] (envRestart c)) := by
  induction n, hn using Nat.le_induction with
  | base =>
    rw [Function.iterate_succ_apply']
    exact (runsAt_iterate c 31 (.inl (by decide))).held h
  | succ n hn ih =>
    rw [Function.iterate_succ_apply']
    exact ih.next

/-- The first 32 steps in the table of R84, by the bits CONT, ATT, ALT and HOLD of the shape: ATT gives the direction. -/
theorem shapeLevel_of_lt {n : Nat} (hn : n < 32) (cont att alt hold : Bool) :
    shapeLevel (8 * cont.toNat + 4 * att.toNat + 2 * alt.toNat + hold.toNat) n =
      if att then n % 32 else 31 - n % 32 := by
  have hdiv : n / 32 = 0 := Nat.div_eq_of_lt hn
  cases cont <;> cases att <;> cases alt <;> cases hold <;> simp [shapeLevel, upLevel, downLevel, hdiv, hn]

/-- The later steps in the table of R84, by the same bits: they repeat, or stay at 0 or 31. -/
theorem shapeLevel_of_le {n : Nat} (hn : 32 ≤ n) (cont att alt hold : Bool) :
    shapeLevel (8 * cont.toNat + 4 * att.toNat + 2 * alt.toNat + hold.toNat) n =
      if cont && !hold then (if att ^^ (alt && decide (n / 32 % 2 = 1)) then n % 32 else 31 - n % 32)
      else if cont && (att ^^ alt) then 31 else 0 := by
  rcases Nat.mod_two_eq_zero_or_one (n / 32) with hodd | hodd
  · cases cont <;> cases att <;> cases alt <;> cases hold <;> simp [shapeLevel, upLevel, downLevel, hodd, hn]
  · cases cont <;> cases att <;> cases alt <;> cases hold <;> simp [shapeLevel, upLevel, downLevel, hodd, hn]

/-- The shape's number is made of CONT, ATT, ALT and HOLD (10_state.md R21). -/
theorem shape_number (reg : Bytes16) :
    (regAt reg 13).toNat % 16 =
      8 * (shapeCont reg).toNat + 4 * (shapeAtt reg).toNat + 2 * (shapeAlt reg).toNat + (shapeHold reg).toNat := by
  simp only [shapeCont, shapeAtt, shapeAlt, shapeHold]
  generalize regAt reg 13 = b
  revert b
  decide

/-- Settles O26: the level of a running and of a held envelope, against the table bit by bit of the shape. -/
theorem envelopeShapes : Obligations.EnvelopeShapes := by
  refine fun c n => ⟨toNat_envLevel c, ?_⟩
  rw [toNat_envLevel, shape_number]
  rcases Nat.lt_or_ge n 32 with hn | hn
  · have hruns := runsAt_iterate c n (.inl hn)
    rw [shapeLevel_of_lt hn, hruns.step, hruns.up, Nat.div_eq_of_lt hn]
    simp
  · rw [shapeLevel_of_le hn]
    cases hrep : shapeRepeats c.reg with
    | true =>
      have hruns := runsAt_iterate c n (.inr hrep)
      rw [hruns.step, hruns.up]
      exact (if_pos hrep).symm
    | false =>
      have hheld := heldAt_iterate c hn hrep
      rw [hheld.step, hheld.up]
      exact (if_neg (ne_true_of_eq_false hrep)).symm

end Sys2Proof.Machine
end

section
/-! Proofs that `f32` rounds to nearest, ties to even (44_mixer_chip.md R99). -/

namespace Sys2Proof.Machine

/-! ### The exponent -/

theorem zpow_two_eq (e : ℤ) : (2 : ℚ) ^ e = 2 ^ e.toNat / 2 ^ (-e).toNat := by
  rw [← zpow_natCast, ← zpow_natCast, ← zpow_sub₀ two_ne_zero]
  congr 1
  omega

/-- `2^e` against a quotient, in naturals. -/
theorem mul_lt_mul_toNat_iff (a d : Nat) (e : ℤ) :
    a * 2 ^ (-e).toNat < d * 2 ^ e.toNat ↔ (a : ℚ) < 2 ^ e * d := by
  have hpos : (0 : ℚ) < 2 ^ (-e).toNat := by positivity
  rw [zpow_two_eq, div_mul_eq_mul_div, lt_div_iff₀ hpos, mul_comm _ (d : ℚ)]
  exact_mod_cast Iff.rfl

theorem two_zpow_log2_le {n : Nat} (h : n ≠ 0) :
    (2 : ℚ) ^ (n.log2 : ℤ) ≤ n ∧ (n : ℚ) < 2 ^ ((n.log2 : ℤ) + 1) := by
  constructor
  · rw [zpow_natCast]
    exact_mod_cast Nat.log2_self_le h
  · rw [← Nat.cast_succ, zpow_natCast]
    exact_mod_cast Nat.lt_log2_self

/-- The exponent of a positive quotient. -/
theorem floorLog2_spec {a d : Nat} (ha : a ≠ 0) (hd : d ≠ 0) :
    (2 : ℚ) ^ floorLog2 a d * d ≤ a ∧ (a : ℚ) < 2 ^ (floorLog2 a d + 1) * d := by
  obtain ⟨ha1, ha2⟩ := two_zpow_log2_le ha
  obtain ⟨hd1, hd2⟩ := two_zpow_log2_le hd
  have hsplit : ∀ x y : ℤ, (2 : ℚ) ^ (x + y) = 2 ^ x * 2 ^ y := zpow_add₀ two_ne_zero
  unfold floorLog2
  dsimp only
  split <;> rename_i h <;> rw [mul_lt_mul_toNat_iff] at h
  · refine ⟨?_, by simpa using h⟩
    calc (2 : ℚ) ^ ((a.log2 : ℤ) - d.log2 - 1) * d
        ≤ 2 ^ ((a.log2 : ℤ) - d.log2 - 1) * 2 ^ ((d.log2 : ℤ) + 1) := by gcongr
      _ = 2 ^ (a.log2 : ℤ) := by rw [← hsplit]; congr 1; ring
      _ ≤ a := ha1
  · refine ⟨not_lt.1 h, ?_⟩
    calc (a : ℚ) < 2 ^ ((a.log2 : ℤ) + 1) := ha2
      _ = 2 ^ ((a.log2 : ℤ) - d.log2 + 1) * 2 ^ (d.log2 : ℤ) := by rw [← hsplit]; congr 1; ring
      _ ≤ 2 ^ ((a.log2 : ℤ) - d.log2 + 1) * d := by gcongr

/-! ### Rounding to an integer -/

/-- A quotient of naturals, split into its whole part and the rest. -/
theorem cast_div_eq (n : Nat) {d : Nat} (hd : 0 < d) : (n : ℚ) / d = (n / d : Nat) + ((n % d : Nat) : ℚ) / d := by
  have hd' : (d : ℚ) ≠ 0 := by exact_mod_cast hd.ne'
  rw [div_eq_iff hd', add_mul, div_mul_cancel₀ _ hd']
  exact_mod_cast (Nat.div_add_mod' n d).symm

/-- `roundDiv` is at most one half away, and even when it is one half away. -/
theorem abs_sub_roundDiv {d : Nat} (hd : 0 < d) (n : Nat) :
    |(n : ℚ) / d - roundDiv n d| ≤ 1 / 2 ∧ (|(n : ℚ) / d - roundDiv n d| = 1 / 2 → roundDiv n d % 2 = 0) := by
  have hd' : (0 : ℚ) < d := by exact_mod_cast hd
  have hrest : (0 : ℚ) ≤ ((n % d : Nat) : ℚ) / d := by positivity
  have hlt : ((n % d : Nat) : ℚ) / d < 1 := by
    rw [div_lt_one hd']
    exact_mod_cast Nat.mod_lt n hd
  rw [cast_div_eq n hd, roundDiv]
  split
  · next h =>
    have hhalf : ((n % d : Nat) : ℚ) / d < 1 / 2 := by
      rw [div_lt_iff₀ hd', ← mul_lt_mul_iff_right₀ (two_pos (α := ℚ))]
      have : (2 * (n % d : Nat) : ℚ) < d := by exact_mod_cast h
      linarith
    rw [add_sub_cancel_left, abs_of_nonneg hrest]
    exact ⟨hhalf.le, fun heq => absurd heq hhalf.ne⟩
  · split
    · next h =>
      have hhalf : 1 / 2 < ((n % d : Nat) : ℚ) / d := by
        rw [lt_div_iff₀ hd']
        have : (d : ℚ) < 2 * (n % d : Nat) := by exact_mod_cast h
        linarith
      rw [Nat.cast_succ, add_sub_add_left_eq_sub, abs_of_neg (by linarith)]
      exact ⟨by linarith, fun heq => absurd heq (by linarith)⟩
    · next h1 h2 =>
      have hhalf : ((n % d : Nat) : ℚ) / d = 1 / 2 := by
        rw [div_eq_iff hd'.ne']
        have : (2 * (n % d : Nat) : ℚ) = d := by exact_mod_cast (by omega : 2 * (n % d) = d)
        linarith
      rw [hhalf, Nat.cast_add, add_sub_add_left_eq_sub]
      rcases Nat.mod_two_eq_zero_or_one (n / d) with h | h <;> rw [h] <;> norm_num <;> omega

/-- `roundDiv` is nearest, and even when another natural is as near. -/
theorem roundDiv_nearest {d : Nat} (hd : 0 < d) (n j : Nat) :
    |(n : ℚ) / d - roundDiv n d| ≤ |(n : ℚ) / d - j| ∧
      (|(n : ℚ) / d - roundDiv n d| = |(n : ℚ) / d - j| → j ≠ roundDiv n d → roundDiv n d % 2 = 0) := by
  obtain ⟨hle, heven⟩ := abs_sub_roundDiv hd n
  by_cases hj : j = roundDiv n d
  · exact ⟨by rw [hj], fun _ h => absurd hj h⟩
  · have hapart : (1 : ℚ) ≤ |(j : ℚ) - roundDiv n d| := by
      have : (1 : ℤ) ≤ |(j : ℤ) - roundDiv n d| := Int.one_le_abs (by omega)
      exact_mod_cast this
    have htri := abs_sub_le (j : ℚ) ((n : ℚ) / d) (roundDiv n d)
    rw [abs_sub_comm (j : ℚ) (n / d)] at htri
    exact ⟨by linarith, fun heq _ => heven (le_antisymm hle (by linarith))⟩

/-! ### The magnitudes of the patterns -/

/-- The number that the pattern `k` with its sign bit clear stands for. -/
def magnitude (k : Nat) : ℚ :=
  if k / 2 ^ 23 = 0 then ((k % 2 ^ 23 : Nat) : ℚ) / 2 ^ 149
  else (2 ^ 23 + ((k % 2 ^ 23 : Nat) : ℚ)) * 2 ^ (k / 2 ^ 23) / 2 ^ 150

theorem f32Value_eq (x : F32) :
    f32Value x = if x.toNat / 2 ^ 31 = 1 then -magnitude (x.toNat % 2 ^ 31) else magnitude (x.toNat % 2 ^ 31) := by
  have hexp : x.toNat % 2 ^ 31 / 2 ^ 23 = x.toNat / 2 ^ 23 % 2 ^ 8 := by omega
  have hman : x.toNat % 2 ^ 31 % 2 ^ 23 = x.toNat % 2 ^ 23 := by omega
  rw [magnitude, hexp, hman, f32Value]

theorem magnitude_nonneg (k : Nat) : 0 ≤ magnitude k := by
  unfold magnitude
  split <;> positivity

theorem magnitude_zero : magnitude 0 = 0 := by
  simp [magnitude]

/-- The step between two neighbouring patterns of exponent field `E + 1`, and for `E = 0` of the subnormal ones. -/
def unitAt (E : Nat) : ℚ := 2 ^ (E + 1) / 2 ^ 150

theorem unitAt_pos (E : Nat) : 0 < unitAt E := by
  unfold unitAt
  positivity

theorem unitAt_mono {E E' : Nat} (h : E ≤ E') : unitAt E ≤ unitAt E' := by
  unfold unitAt
  gcongr
  exact one_le_two

/-- `M` units, in the pattern's form; at `M = 2^24` the sum carries into the next exponent field. -/
theorem magnitude_add {E M : Nat} (hM : M ≤ 2 ^ 24) (h : E = 0 ∨ 2 ^ 23 ≤ M) :
    magnitude (E * 2 ^ 23 + M) = M * unitAt E := by
  unfold magnitude unitAt
  rcases Nat.lt_or_ge M (2 ^ 23) with hlt | hge
  · obtain rfl : E = 0 := by omega
    rw [if_pos (by omega), show (0 * 2 ^ 23 + M) % 2 ^ 23 = M by omega]
    ring
  · rcases Nat.lt_or_eq_of_le hM with hlt | rfl
    · rw [if_neg (by omega), show (E * 2 ^ 23 + M) / 2 ^ 23 = E + 1 by omega,
        show (E * 2 ^ 23 + M) % 2 ^ 23 = M - 2 ^ 23 by omega, Nat.cast_sub hge]
      push_cast
      ring
    · rw [if_neg (by omega), show (E * 2 ^ 23 + 2 ^ 24) / 2 ^ 23 = E + 2 by omega,
        show (E * 2 ^ 23 + 2 ^ 24) % 2 ^ 23 = 0 by omega]
      push_cast
      ring

/-- Every magnitude is a whole number of units, or lies below the exponent of the unit. -/
theorem magnitude_grid (E k : Nat) :
    (∃ j : Nat, magnitude k = j * unitAt E) ∨ (0 < E ∧ magnitude k < 2 ^ 23 * unitAt E) := by
  have hman : ((k % 2 ^ 23 : Nat) : ℚ) < 2 ^ 23 := by exact_mod_cast Nat.mod_lt k (by positivity)
  unfold magnitude
  split
  · rcases Nat.eq_zero_or_pos E with rfl | hE
    · refine .inl ⟨k % 2 ^ 23, ?_⟩
      unfold unitAt
      ring
    · refine .inr ⟨hE, ?_⟩
      calc ((k % 2 ^ 23 : Nat) : ℚ) / 2 ^ 149 = (k % 2 ^ 23 : Nat) * unitAt 0 := by unfold unitAt; ring
        _ < 2 ^ 23 * unitAt 0 := by gcongr; exact unitAt_pos 0
        _ ≤ 2 ^ 23 * unitAt E := by gcongr; exact unitAt_mono E.zero_le
  · next hk =>
    rcases Nat.lt_or_ge E (k / 2 ^ 23) with hlt | hge
    · obtain ⟨i, hi⟩ := Nat.exists_eq_add_of_lt hlt
      refine .inl ⟨(2 ^ 23 + k % 2 ^ 23) * 2 ^ i, ?_⟩
      rw [hi, unitAt]
      push_cast
      ring
    · refine .inr ⟨by omega, ?_⟩
      calc (2 ^ 23 + ((k % 2 ^ 23 : Nat) : ℚ)) * 2 ^ (k / 2 ^ 23) / 2 ^ 150
          < (2 ^ 23 + 2 ^ 23) * 2 ^ (k / 2 ^ 23) / 2 ^ 150 := by gcongr
        _ = 2 ^ 23 * unitAt (k / 2 ^ 23) := by unfold unitAt; ring
        _ ≤ 2 ^ 23 * unitAt E := by gcongr; exact unitAt_mono hge

/-! ### The pattern nearest a quotient -/

theorem roundDiv_le {n d k : Nat} (hd : 0 < d) (h : (n : ℚ) / d ≤ k) : roundDiv n d ≤ k := by
  have hnear := (abs_le.1 (abs_sub_roundDiv hd n).1).1
  have : (roundDiv n d : ℚ) < k + 1 := by linarith
  exact Nat.lt_succ_iff.1 (by exact_mod_cast this)

theorem le_roundDiv {n d k : Nat} (hd : 0 < d) (h : (k : ℚ) ≤ n / d) : k ≤ roundDiv n d := by
  have hnear := (abs_le.1 (abs_sub_roundDiv hd n).1).2
  have : (k : ℚ) < roundDiv n d + 1 := by linarith
  exact Nat.lt_succ_iff.1 (by exact_mod_cast this)

/-- The exponent field, less one while the quotient is normal: `max (floorLog2 a d) (-126) + 126`. -/
def expField (a d : Nat) : Nat := (floorLog2 a d + 126).toNat

/-- The quotient in units. -/
theorem quotient_eq {a d E : Nat} (hE : E ≤ 149) :
    (a : ℚ) / d = (a * 2 ^ (149 - E) : Nat) / d * unitAt E := by
  have hpow : (2 : ℚ) ^ (149 - E) * 2 ^ (E + 1) = 2 ^ 150 := by
    rw [← pow_add]
    congr 1
    omega
  unfold unitAt
  rw [Nat.cast_mul, Nat.cast_pow, div_mul_div_comm, mul_assoc, Nat.cast_two, hpow,
    mul_div_mul_right _ _ (by positivity)]

/-- A quotient of at most 100 has the exponent 6 at most. -/
theorem expField_le {a d : Nat} (ha : a ≠ 0) (hd : d ≠ 0) (h : a ≤ 100 * d) : expField a d ≤ 132 := by
  have hpos : (0 : ℚ) < d := by exact_mod_cast Nat.pos_of_ne_zero hd
  have hlow := (floorLog2_spec ha hd).1
  have hle : (a : ℚ) ≤ 100 * d := by exact_mod_cast h
  have hlt : (2 : ℚ) ^ floorLog2 a d < 2 ^ (7 : ℤ) := by
    refine lt_of_mul_lt_mul_right (hlow.trans_lt (hle.trans_lt ?_)) hpos.le
    exact mul_lt_mul_of_pos_right (by norm_num) hpos
  have := (zpow_lt_zpow_iff_right₀ one_lt_two).1 hlt
  unfold expField
  omega

theorem two_zpow_eq_unitAt {E : Nat} {e : ℤ} (h : e = (E : ℤ) - 126) : (2 : ℚ) ^ e = 2 ^ 23 * unitAt E := by
  unfold unitAt
  rw [h, show (E : ℤ) - 126 = (23 + (E + 1) : Nat) - (150 : Nat) by push_cast; ring, zpow_sub₀ two_ne_zero,
    zpow_natCast, zpow_natCast, pow_add]
  ring

/-- Where the quotient lies among the units of its exponent. -/
theorem quotient_bounds {a d : Nat} (ha : a ≠ 0) (hd : d ≠ 0) :
    (a : ℚ) / d ≤ 2 ^ 24 * unitAt (expField a d) ∧
      (expField a d = 0 ∨ 2 ^ 23 * unitAt (expField a d) ≤ (a : ℚ) / d) := by
  have hpos : (0 : ℚ) < d := by exact_mod_cast Nat.pos_of_ne_zero hd
  obtain ⟨hlow, hhigh⟩ := floorLog2_spec ha hd
  rw [← le_div_iff₀ hpos] at hlow
  rw [← div_lt_iff₀ hpos] at hhigh
  constructor
  · calc (a : ℚ) / d ≤ 2 ^ (floorLog2 a d + 1) := hhigh.le
      _ ≤ 2 ^ ((expField a d : ℤ) - 126 + 1) :=
        zpow_le_zpow_right₀ one_le_two (by unfold expField; omega)
      _ = 2 ^ 24 * unitAt (expField a d) := by
        rw [zpow_add_one₀ two_ne_zero, two_zpow_eq_unitAt rfl]
        ring
  · refine (Nat.eq_zero_or_pos _).imp_right fun hE => ?_
    rw [← two_zpow_eq_unitAt (e := floorLog2 a d) (by unfold expField at *; omega)]
    exact hlow

/-- The significand of the pattern nearest the quotient, in units. -/
def significand (a d : Nat) : Nat := roundDiv (a * 2 ^ (149 - expField a d)) d

section

variable {a d : Nat} (ha : a ≠ 0) (hd : d ≠ 0) (h : a ≤ 100 * d)

include ha hd h

theorem significand_bounds :
    significand a d ≤ 2 ^ 24 ∧ (expField a d = 0 ∨ 2 ^ 23 ≤ significand a d) := by
  have hpos := Nat.pos_of_ne_zero hd
  obtain ⟨hhigh, hlow⟩ := quotient_bounds ha hd
  rw [quotient_eq ((expField_le ha hd h).trans (by norm_num))] at hhigh hlow
  rw [mul_le_mul_iff_left₀ (unitAt_pos _)] at hhigh hlow
  exact ⟨roundDiv_le hpos (by exact_mod_cast hhigh), hlow.imp_right fun hlow => le_roundDiv hpos (by exact_mod_cast hlow)⟩

theorem f32Magnitude_eq : f32Magnitude a d = expField a d * 2 ^ 23 + significand a d := by
  have hE := expField_le ha hd h
  have hM := (significand_bounds ha hd h).1
  have hlog : floorLog2 a d ≤ 6 := by unfold expField at hE; omega
  have hexp : (max (floorLog2 a d) (-126) + 126).toNat = expField a d := by unfold expField; omega
  have hup : (23 - max (floorLog2 a d) (-126)).toNat = 149 - expField a d := by unfold expField; omega
  have hdown : (max (floorLog2 a d) (-126) - 23).toNat = 0 := by omega
  rw [f32Magnitude, if_neg (by omega)]
  dsimp only
  rw [hexp, hup, hdown, pow_zero, mul_one, min_eq_left]
  · rfl
  · unfold significand at hM
    omega

/-- No magnitude is nearer to the quotient than the pattern's, and the pattern is even when another is as near. -/
theorem f32Magnitude_nearest (k : Nat) :
    |(a : ℚ) / d - magnitude (f32Magnitude a d)| ≤ |(a : ℚ) / d - magnitude k| ∧
      (|(a : ℚ) / d - magnitude (f32Magnitude a d)| = |(a : ℚ) / d - magnitude k| →
        magnitude k ≠ magnitude (f32Magnitude a d) → f32Magnitude a d % 2 = 0) := by
  have hpos := Nat.pos_of_ne_zero hd
  have hunit := unitAt_pos (expField a d)
  obtain ⟨hM, hE⟩ := significand_bounds ha hd h
  have hnear := roundDiv_nearest hpos (a * 2 ^ (149 - expField a d))
  have hq := quotient_eq (a := a) (d := d) ((expField_le ha hd h).trans (by norm_num))
  have hscale : ∀ j : Nat, |(a : ℚ) / d - j * unitAt (expField a d)| =
      |((a * 2 ^ (149 - expField a d) : Nat) : ℚ) / d - j| * unitAt (expField a d) := fun j => by
    rw [hq, ← sub_mul, abs_mul, abs_of_pos hunit]
  rw [f32Magnitude_eq ha hd h, magnitude_add hM hE, hscale]
  rcases magnitude_grid (expField a d) k with ⟨j, hj⟩ | ⟨hEpos, hlt⟩
  · rw [hj, hscale, mul_le_mul_iff_left₀ hunit, mul_left_inj' hunit.ne']
    refine ⟨(hnear j).1, fun heq hne => ?_⟩
    have := (hnear j).2 heq fun hj => hne (by rw [hj, significand])
    unfold significand
    omega
  · have hlow := (quotient_bounds ha hd).2.resolve_left hEpos.ne'
    have hfar : |((a * 2 ^ (149 - expField a d) : Nat) : ℚ) / d - significand a d| * unitAt (expField a d) <
        |(a : ℚ) / d - magnitude k| := by
      refine (mul_le_mul_of_nonneg_right (hnear (2 ^ 23)).1 hunit.le).trans_lt ?_
      rw [← hscale, Nat.cast_pow, Nat.cast_two, abs_of_nonneg (by linarith), abs_of_pos (by linarith)]
      linarith
    exact ⟨hfar.le, fun heq => absurd heq hfar.ne⟩

end

/-- A magnitude of the other sign is no nearer than 0. -/
theorem abs_sub_le_add {q v m : ℚ} (hq : 0 ≤ q) (hv : 0 ≤ v) (h : |q - m| ≤ |q - 0|) :
    |q - m| ≤ |q - -v| ∧ (|q - m| = |q - -v| → v = 0 ∧ |q - m| = |q - 0|) := by
  rw [sub_neg_eq_add, abs_of_nonneg (a := q + v) (by linarith)]
  rw [sub_zero, abs_of_nonneg hq] at *
  exact ⟨by linarith, fun heq => ⟨by linarith, by linarith⟩⟩

/-- A magnitude with either sign. -/
def signed (neg : Prop) [Decidable neg] (k : Nat) : ℚ := if neg then -magnitude k else magnitude k

/-- The nearest magnitude, against the values of both signs. -/
theorem f32Magnitude_nearest_signed {a d : Nat} (hd : d ≠ 0) (h : a ≤ 100 * d) (neg : Prop) [Decidable neg] (k : Nat) :
    |(a : ℚ) / d - magnitude (f32Magnitude a d)| ≤ |(a : ℚ) / d - signed neg k| ∧
      (|(a : ℚ) / d - magnitude (f32Magnitude a d)| = |(a : ℚ) / d - signed neg k| →
        signed neg k ≠ magnitude (f32Magnitude a d) → f32Magnitude a d % 2 = 0) := by
  rcases Nat.eq_zero_or_pos a with rfl | ha
  · rw [show f32Magnitude 0 d = 0 from if_pos (.inl rfl), magnitude_zero, Nat.cast_zero, zero_div, sub_zero, abs_zero]
    exact ⟨abs_nonneg _, fun _ _ => rfl⟩
  · have hnear := f32Magnitude_nearest ha.ne' hd h
    unfold signed
    split
    · obtain ⟨hzero, hzero_even⟩ := hnear 0
      rw [magnitude_zero] at hzero hzero_even
      obtain ⟨hle, heq⟩ := abs_sub_le_add (by positivity : (0 : ℚ) ≤ a / d) (magnitude_nonneg k) hzero
      refine ⟨hle, fun h hne => ?_⟩
      obtain ⟨hk, h0⟩ := heq h
      rw [hk, neg_zero] at hne
      exact hzero_even h0 hne
    · exact hnear k

/-! ### `f32` -/

theorem f32Magnitude_lt {a d : Nat} (hd : d ≠ 0) (h : a ≤ 100 * d) : f32Magnitude a d < 255 * 2 ^ 23 := by
  rcases Nat.eq_zero_or_pos a with rfl | ha
  · rw [show f32Magnitude 0 d = 0 from if_pos (.inl rfl)]
    norm_num
  · have hE := expField_le ha.ne' hd h
    have hM := (significand_bounds ha.ne' hd h).1
    rw [f32Magnitude_eq ha.ne' hd h]
    omega

/-- The result's pattern: the magnitude's, and the sign bit for a negative quotient that does not round to 0. -/
theorem toNat_f32 {num : Int} {den : Nat} (hd : den ≠ 0) (h : num.natAbs ≤ 100 * den) :
    (f32 num den).toNat =
      (if num < 0 ∧ f32Magnitude num.natAbs den ≠ 0 then 2 ^ 31 else 0) + f32Magnitude num.natAbs den := by
  have hlt := f32Magnitude_lt hd h
  unfold f32
  dsimp only
  split
  · rw [BitVec.toNat_ofNat]
    omega
  · rw [BitVec.toNat_ofNat]
    omega

theorem f32Value_f32 {num : Int} {den : Nat} (hd : den ≠ 0) (h : num.natAbs ≤ 100 * den) :
    f32Value (f32 num den) =
      if num < 0 then -magnitude (f32Magnitude num.natAbs den) else magnitude (f32Magnitude num.natAbs den) := by
  have hlt := f32Magnitude_lt hd h
  rw [f32Value_eq, toNat_f32 hd h]
  by_cases hm : f32Magnitude num.natAbs den = 0
  · rw [hm, magnitude_zero]
    simp [magnitude_zero]
  · by_cases hneg : num < 0
    · rw [if_pos (c := _ ∧ _) ⟨hneg, hm⟩, if_pos (by omega), if_pos hneg, Nat.add_mod_left, Nat.mod_eq_of_lt (by omega)]
    · rw [if_neg (c := _ ∧ _) fun h => hneg h.1, if_neg (by omega), if_neg hneg, Nat.zero_add,
        Nat.mod_eq_of_lt (by omega)]

/-- The distance from a negative quotient is the distance from its absolute value, with the signs turned over. -/
theorem abs_quotient_sub {num : Int} (h : num < 0) (den : Nat) (v : ℚ) :
    |(num : ℚ) / den - v| = |(num.natAbs : ℚ) / den - -v| := by
  rw [Nat.cast_natAbs, abs_of_neg h, ← abs_neg]
  congr 1
  push_cast
  ring

/-- The nearest value, against every pattern. -/
theorem f32_nearest {num : Int} {den : Nat} (hd : den ≠ 0) (h : num.natAbs ≤ 100 * den) (x : F32) :
    |(num : ℚ) / den - f32Value (f32 num den)| ≤ |(num : ℚ) / den - f32Value x| ∧
      (|(num : ℚ) / den - f32Value (f32 num den)| = |(num : ℚ) / den - f32Value x| →
        f32Value x ≠ f32Value (f32 num den) → f32Magnitude num.natAbs den % 2 = 0) := by
  rw [f32Value_f32 hd h, f32Value_eq x]
  by_cases hneg : num < 0
  · have hx : -(if x.toNat / 2 ^ 31 = 1 then -magnitude (x.toNat % 2 ^ 31) else magnitude (x.toNat % 2 ^ 31)) =
        signed (x.toNat / 2 ^ 31 ≠ 1) (x.toNat % 2 ^ 31) := by
      by_cases hx : x.toNat / 2 ^ 31 = 1
      · rw [signed, if_pos hx, if_neg (not_not.2 hx), neg_neg]
      · rw [signed, if_neg hx, if_pos hx]
    rw [if_pos hneg, abs_quotient_sub hneg, abs_quotient_sub hneg, neg_neg, hx]
    obtain ⟨hle, heven⟩ := f32Magnitude_nearest_signed hd h (x.toNat / 2 ^ 31 ≠ 1) (x.toNat % 2 ^ 31)
    exact ⟨hle, fun heq hne => heven heq fun hsame => hne (by rw [← neg_neg (ite _ _ _), hx, hsame])⟩
  · rw [if_neg hneg, show (num : ℚ) = (num.natAbs : ℚ) by rw [Nat.cast_natAbs, abs_of_nonneg (by omega)]]
    exact f32Magnitude_nearest_signed hd h (x.toNat / 2 ^ 31 = 1) _

/-- Settles O30: the significand is the natural nearest to the quotient in units of its exponent, and no other
exponent's patterns are nearer. -/
theorem f32RoundsToNearestEven : Obligations.F32RoundsToNearestEven := by
  intro num den hden h
  have hd := hden.ne'
  have hlt := f32Magnitude_lt hd h
  have hpat := toNat_f32 hd h
  refine ⟨?_, fun hzero => ?_, ?_, fun x _ => ?_⟩
  · unfold f32Finite
    rw [hpat]
    split <;> omega
  · rw [hzero] at hpat
    change 2 ^ 31 = _ at hpat
    split at hpat <;> omega
  · rintro rfl
    rfl
  · obtain ⟨hle, heven⟩ := f32_nearest hd h x
    refine ⟨hle, fun heq hne => ?_⟩
    have hbit := heven heq hne
    rw [← BitVec.testBit_toNat, hpat, Nat.testBit_zero, decide_eq_false_iff_not]
    split <;> omega

/-! ### Exact quotients -/

/-- A quotient of 100 is exactly 100.0. -/
theorem f32_hundred {n : Nat} (h : 0 < n) : f32 ((100 * n : Nat) : Int) n = 0x42C80000 := by
  have hne : 100 * n ≠ 0 := by omega
  have hpos : (0 : ℚ) < n := by exact_mod_cast h
  have hE : expField (100 * n) n = 132 := by
    refine Nat.le_antisymm (expField_le hne h.ne' le_rfl) ?_
    have hhigh := (floorLog2_spec hne h.ne').2
    rw [Nat.cast_mul, mul_lt_mul_iff_left₀ hpos] at hhigh
    have hlt : (2 : ℚ) ^ (6 : ℤ) < 2 ^ (floorLog2 (100 * n) n + 1) := lt_trans (by norm_num) hhigh
    have := (zpow_lt_zpow_iff_right₀ one_lt_two).1 hlt
    unfold expField
    omega
  have hround : roundDiv (100 * n * 2 ^ (149 - 132)) n = 100 * 2 ^ 17 := by
    rw [roundDiv, show 100 * n * 2 ^ (149 - 132) = n * (100 * 2 ^ 17) by ring, Nat.mul_mod_right,
      Nat.mul_div_cancel_left _ h, if_pos (by omega)]
  rw [f32, Int.natAbs_natCast, f32Magnitude_eq hne h.ne' le_rfl, significand, hE, hround, if_neg (by omega)]
  rfl

end Sys2Proof.Machine
end

section
/-! Proofs about the ring's commands (47_ring_buffer.md R140 to R148). -/

namespace Sys2Proof.Machine

/-! ### Commands that nobody interrupts -/

section

variable {s : State} {a : Agent}

theorem carryOn_of_uninterrupted (h : s.uninterrupted a) (k : State → Outcome) :
    carryOn a s k = k (s.setSched s.sched.tail) := by
  rcases h with hs | ⟨l, hs⟩
  · have hsame : s.setSched s.sched.tail = s := by rw [hs, List.tail_nil, ← hs]; rfl
    rw [carryOn, hsame, hs]
  · rw [carryOn, hs]
    exact if_pos rfl

theorem uninterrupted_setBusy (b : Agent) (op : Option RingOp) (h : s.uninterrupted a) :
    (s.setBusy b op).uninterrupted a := by
  unfold State.uninterrupted
  rwa [State.sched_setBusy]

/-- A command that nobody interrupts goes from its load to its commit. -/
theorem carryOn_setBusy (h : s.uninterrupted a) (op : Option RingOp) (k : State → Outcome) :
    carryOn a (s.setBusy a op) k = k ((s.setSched s.sched.tail).setBusy a op) := by
  rw [carryOn_of_uninterrupted (uninterrupted_setBusy a op h), State.sched_setBusy]
  cases a <;> rfl

/-- A command that another agent interrupts stands in its port after its load. -/
theorem carryOn_of_interrupted {b : Agent} {l : List Agent} (h : s.sched = b :: l) (hb : b ≠ a) (op : Option RingOp)
    (k : State → Outcome) : carryOn a (s.setBusy a op) k = .next (s.setBusy a op) := by
  rw [carryOn, State.sched_setBusy, h]
  exact if_neg hb

/-! ### The commits -/

/-- A commit that forgets the command under way does not depend on it. -/
theorem finishWrite_setBusy (op : Option RingOp) (xs : List F32) (n : Nat) :
    finishWrite xs n (s.setBusy .producer op) = finishWrite xs n s := rfl

theorem finishWriteBlk_setBusy (op : Option RingOp) (rest : List F32) (n done sleeps : Nat) :
    finishWriteBlk rest n done sleeps (s.setBusy .producer op) = finishWriteBlk rest n done sleeps s := rfl

theorem finishRead_setBusy (op : Option RingOp) (count n : Nat) :
    finishRead count n (s.setBusy .consumer op) = finishRead count n s := rfl

theorem finishFlush_setBusy (op : Option RingOp) (wa : Nat) :
    finishFlush wa (s.setBusy .consumer op) = finishFlush wa s := rfl

theorem finishStats_setBusy (op : Option RingOp) (played : BitVec 64) :
    finishStats played (s.setBusy .producer op) = finishStats played s := rfl

/-- RB_READ's commit in a ring in range: no slot it reads is unwritten. -/
theorem finishRead_eq {n : Nat} (h : s.ring.Inv s.cfg) (count : Nat) (hn : n ≤ availRead s.ring) :
    finishRead count n s =
      .next (((s.setRing (advanceRead count n s.ring)).setBusy .consumer none).deliver .consumer
        (.read n ((pending s.ring).take n))) := by
  rw [finishRead, (readFrom_take h hn).1]

/-! ### The commands, uninterrupted -/

theorem exec_rbWriteNb (h : s.issuer = .producer) (hu : s.uninterrupted .producer) (xs : List F32) :
    exec (.rbWriteNb xs) s = finishWrite xs (fitting s.ring xs.length) (s.setSched s.sched.tail) := by
  refine (hasRole_of_issuer h _).trans ?_
  rw [carryOn_setBusy hu, finishWrite_setBusy]

theorem attemptWriteBlk_of_uninterrupted (hu : s.uninterrupted .producer) (rest : List F32) (done sleeps : Nat) :
    attemptWriteBlk rest done sleeps s =
      finishWriteBlk rest (fitting s.ring rest.length) done sleeps (s.setSched s.sched.tail) := by
  rw [attemptWriteBlk, carryOn_setBusy hu, finishWriteBlk_setBusy]

theorem exec_rbWriteBlk (h : s.issuer = .producer) (hu : s.uninterrupted .producer) (xs : List F32) :
    exec (.rbWriteBlk xs) s = finishWriteBlk xs (fitting s.ring xs.length) 0 0 (s.setSched s.sched.tail) :=
  (hasRole_of_issuer h _).trans (attemptWriteBlk_of_uninterrupted hu xs 0 0)

theorem exec_rbRead (h : s.issuer = .consumer) (hu : s.uninterrupted .consumer) (n : Count) :
    exec (.rbRead n) s = finishRead n.toNat (min n.toNat (availRead s.ring)) (s.setSched s.sched.tail) := by
  refine (hasRole_of_issuer h _).trans ?_
  rw [carryOn_setBusy hu, finishRead_setBusy]

theorem exec_rbFlush (h : s.issuer = .consumer) (hu : s.uninterrupted .consumer) :
    exec .rbFlush s = finishFlush s.ring.w (s.setSched s.sched.tail) := by
  refine (hasRole_of_issuer h _).trans ?_
  rw [carryOn_setBusy hu, finishFlush_setBusy]

theorem exec_rbStats_of_consumer (h : s.issuer = .consumer) :
    exec .rbStats s = .next (s.deliver .consumer (.stats s.ring.played s.ring.under)) := by
  change execRbStats s = _
  rw [execRbStats, h]

theorem exec_rbStats_of_producer (h : s.issuer = .producer) :
    exec .rbStats s =
      carryOn .producer (s.setBusy .producer (some (.stats s.ring.played))) (finishStats s.ring.played) := by
  change execRbStats s = _
  rw [execRbStats, h]

end

/-! ### RB_WRITE_NB and RB_READ (R141, R143) -/

/-- What a write puts into slot `i + k`. -/
theorem Memory.read_writeFrom {cap : Nat} (m : Memory) (i : Nat) {xs : List F32} (h : xs.length ≤ cap) {k : Nat}
    (hk : k < xs.length) : Memory.read (Memory.writeFrom cap m i xs) ((i + k) % cap) = xs[k]? := by
  induction xs generalizing m i k with
  | nil => cases hk
  | cons x xs ih =>
    rw [List.length_cons] at h hk
    cases k with
    | zero =>
      rw [Memory.writeFrom, Memory.read_writeFrom_ne, Nat.add_zero, Memory.read_write_same]
      · rfl
      · intro j hj
        rw [Nat.add_zero, show i + 1 + j = i + (j + 1) by omega]
        exact Memory.mod_ne_of_lt (Nat.succ_pos _) (by omega)
    | succ k =>
      rw [Memory.writeFrom, show i + (k + 1) = i + 1 + k by omega, ih _ _ (by omega) (by omega)]
      rfl

/-- Settles O52: the load finds what fits, and the commit writes that many slots. -/
theorem ringWrite : Obligations.RingWrite := by
  intro s xs hinv h hu g n
  have hn : n ≤ xs.length ∧ n ≤ g.cap - 1 := by omega
  have hcap := hinv.ring_inv.cap_pos
  have hlen : (xs.take n).length = n := by rw [List.length_take]; omega
  refine ⟨_, exec_rbWriteNb h hu xs, fun i hi => ?_, fun j hj => ?_, rfl, rfl, rfl⟩
  · refine (Memory.read_writeFrom (cap := g.cap) g.buf g.w (xs := xs.take n) (by omega) (by omega)).trans ?_
    rw [List.getElem?_take_of_lt hi]
  · refine Memory.read_writeFrom_ne (cap := g.cap) g.buf g.w (xs.take n) j fun k hk => hj k ?_
    rwa [hlen] at hk

theorem Memory.getElem?_readFrom {cap : Nat} {m : Memory} {i n : Nat} {xs : List F32}
    (h : Memory.readFrom cap m i n = some xs) {k : Nat} (hk : k < n) : xs[k]? = Memory.read m ((i + k) % cap) := by
  induction n generalizing i xs k with
  | zero => cases hk
  | succ n ih =>
    rw [Memory.readFrom] at h
    split at h
    · rename_i x ys hx hys
      cases h
      cases k with
      | zero => exact hx.symm
      | succ k =>
        rw [List.getElem?_cons_succ, ih hys (by omega), show i + 1 + k = i + (k + 1) by omega]
    · cases h

/-- Settles O53: the load finds what is there, and the commit reads written slots alone. -/
theorem ringRead : Obligations.RingRead := by
  intro s count hinv h hu g n
  have hn : n ≤ availRead g := Nat.min_le_right _ _
  have hread := (readFrom_take hinv.ring_inv hn).1
  refine ⟨_, (pending g).take n, ?_, Memory.readFrom_length hread, fun i hi => Memory.getElem?_readFrom hread hi, rfl,
    rfl, rfl⟩
  exact (exec_rbRead h hu count).trans (finishRead_eq (s := s.setSched s.sched.tail) hinv.ring_inv _ hn)

/-! ### The queries (R144 to R146) -/

theorem availWrite_add_availRead {cfg : Config} {g : RingState} (h : g.Inv cfg) :
    availWrite g + availRead g = g.cap - 1 := by
  have := availRead_lt h
  unfold availWrite
  omega

theorem exec_rbFillPct {s : State} (h : s.allows .eitherRole) :
    exec .rbFillPct s =
      .next (s.deliver s.issuer (.sample (f32 (100 * availRead s.ring : Nat) (s.ring.cap - 1)))) :=
  hasEitherRole_of_allows h _

/-- Settles O54: one snapshot, whose two counts leave one slot empty. -/
theorem ringQueries : Obligations.RingQueries := by
  intro s hinv h
  have hcap := ringCapacity_pos s.cfg.rbRequestedSize
  rw [← hinv.ring_inv.cap_eq] at hcap
  have hsum := availWrite_add_availRead hinv.ring_inv
  refine ⟨_, _, hasEitherRole_of_allows h _, hasEitherRole_of_allows h _, rfl, rfl, rfl, hsum, exec_rbFillPct h,
    fun ha => ?_, fun hb => ?_⟩
  · rw [exec_rbFillPct h, show availRead s.ring = s.ring.cap - 1 by omega, f32_hundred (by omega)]
  · rw [exec_rbFillPct h, hb]
    rfl

/-- Settles O55: the commits of the flush and of the counters' loads. -/
theorem ringFlushAndStats : Obligations.RingFlushAndStats := by
  intro s
  refine ⟨exec_rbFlush, exec_rbStats_of_consumer, fun h hu => ?_, fun _ => rfl⟩
  rw [exec_rbStats_of_producer h, carryOn_setBusy hu, finishStats_setBusy]
  rfl

/-- Settles O57: an interrupted command stands after its load, and its commit acts on the ring as it then is. -/
theorem ringSubSteps : Obligations.RingSubSteps := by
  refine ⟨fun s b l hs hb h => ⟨fun xs => ?_, fun xs => ?_, ?_, fun rest done sleeps => ?_⟩,
    fun s b l hs hb h => ⟨fun n => ?_, ?_⟩,
    fun s hinv => ⟨fun xs n _ => rfl, fun rest n done sleeps _ => ?_, fun count n hbusy => ?_, fun wa _ => rfl⟩⟩
  · exact (hasRole_of_issuer h _).trans (carryOn_of_interrupted hs hb _ _)
  · exact (hasRole_of_issuer h _).trans (carryOn_of_interrupted hs hb _ _)
  · exact (exec_rbStats_of_producer h).trans (carryOn_of_interrupted hs hb _ _)
  · exact carryOn_of_interrupted hs hb _ _
  · exact (hasRole_of_issuer h _).trans (carryOn_of_interrupted hs hb _ _)
  · exact (hasRole_of_issuer h _).trans (carryOn_of_interrupted hs hb _ _)
  · change finishWriteBlk rest n done sleeps s = _
    unfold finishWriteBlk
    dsimp only
    split <;> rfl
  · exact finishRead_eq hinv.ring_inv count (hinv.cons_op _ hbusy).2

end Sys2Proof.Machine
end

section
/-! Proofs that the ring is a FIFO in every interleaving, and that a blocking write ends (47_ring_buffer.md R142,
R149). -/

namespace Sys2Proof.Machine

/-! ### RB_WRITE_BLK (R142) -/

section

variable {s : State} {rest : List F32} {n done sleeps : Nat}

theorem finishWriteBlk_of_done (h : n = rest.length ∨ sleeps = s.cfg.rbRetryLimit) :
    finishWriteBlk rest n done sleeps s =
      .next (((s.setRing (commitWrite rest n s.ring)).setBusy .producer none).deliver .producer (.nat (done + n))) :=
  if_pos h

theorem finishWriteBlk_of_short (h : ¬ (n = rest.length ∨ sleeps = s.cfg.rbRetryLimit)) :
    finishWriteBlk rest n done sleeps s =
      .next ((s.setRing (commitWrite rest n s.ring)).setBusy .producer
        (some (.asleep (rest.drop n) (done + n) (sleeps + 1)))) :=
  if_neg h

/-- A sleeping write whose agent has the next two turns makes its attempt in one step. -/
theorem step_of_asleep {l : List Agent} (hq : s.eng.fxq = none) (hs : s.sched = .producer :: .producer :: l)
    (hb : (s.port .producer).busy = some (.asleep rest done sleeps)) :
    step s = finishWriteBlk rest (fitting s.ring rest.length) done sleeps ((s.turn .producer).setSched l) := by
  have hturn : (s.turn .producer).sched = .producer :: l := by
    change s.sched.tail = _
    rw [hs]
    rfl
  refine (step_of_busy hq (nextAgent_of_sched hs) hb).trans ?_
  refine (attemptWriteBlk_of_uninterrupted (.inr ⟨l, hturn⟩) rest done sleeps).trans ?_
  rw [hturn]
  rfl

/-- An attempt that leaves samples unwritten and sleeps unused goes to sleep again. -/
theorem step_of_asleep_short {l : List Agent} (hq : s.eng.fxq = none) (hs : s.sched = .producer :: .producer :: l)
    (hb : (s.port .producer).busy = some (.asleep rest done sleeps))
    (h : ¬ (fitting s.ring rest.length = rest.length ∨ sleeps = s.cfg.rbRetryLimit)) :
    ∃ t, step s = .next t ∧ t.cfg = s.cfg ∧ t.eng.fxq = none ∧ t.sched = l ∧
      (t.port .producer).answers = (s.port .producer).answers ∧
      (t.port .producer).busy = some (.asleep (rest.drop (fitting s.ring rest.length))
        (done + fitting s.ring rest.length) (sleeps + 1)) :=
  ⟨_, (step_of_asleep hq hs hb).trans (finishWriteBlk_of_short h), rfl, hq, rfl, rfl, rfl⟩

theorem steps_succ_of_next {s t : State} (h : step s = .next t) (k : Nat) : steps (k + 1) s = steps k t := by
  rw [steps, h]

end

/-- A sleeping write with two turns for each attempt it has left answers. -/
theorem asleep_answers (left : Nat) : ∀ {s : State} {rest : List F32} {done sleeps m : Nat},
    s.cfg.rbRetryLimit = sleeps + left → s.eng.fxq = none →
    (s.port .producer).busy = some (.asleep rest done sleeps) →
    s.sched = List.replicate (2 * (left + 1) + m) .producer →
    ∃ k t written, k ≤ left + 1 ∧ steps k s = .next t ∧ (t.port .producer).busy = none ∧
      (t.port .producer).answers = (s.port .producer).answers ++ [.nat written] ∧
      done ≤ written ∧ written ≤ done + rest.length := by
  induction left with
  | zero =>
    intro s rest done sleeps m hlimit hq hb hs
    have hs' : s.sched = .producer :: .producer :: List.replicate m .producer := by
      rw [hs, Nat.add_comm]
      rfl
    have hstep := (step_of_asleep hq hs' hb).trans (finishWriteBlk_of_done (.inr hlimit.symm))
    refine ⟨1, _, done + fitting s.ring rest.length, le_rfl, steps_succ_of_next hstep 0, rfl, rfl, ?_⟩
    have := fitting_le s.ring rest.length
    omega
  | succ left ih =>
    intro s rest done sleeps m hlimit hq hb hs
    have hfit := (fitting_le s.ring rest.length).1
    have hs' : s.sched = .producer :: .producer :: List.replicate (2 * (left + 1) + m) .producer := by
      rw [hs, show 2 * (left + 1 + 1) + m = 2 * (left + 1) + m + 1 + 1 by omega]
      rfl
    by_cases hn : fitting s.ring rest.length = rest.length
    · have hstep := (step_of_asleep hq hs' hb).trans (finishWriteBlk_of_done (.inl hn))
      exact ⟨1, _, done + fitting s.ring rest.length, by omega, steps_succ_of_next hstep 0, rfl, rfl, by omega⟩
    · have hne : sleeps ≠ s.cfg.rbRetryLimit := by omega
      obtain ⟨u, hstep, hcfg, hfxq, hsched, hanswers, hbusy⟩ := step_of_asleep_short hq hs' hb (not_or.2 ⟨hn, hne⟩)
      obtain ⟨k, t, written, hk, hsteps, htbusy, htanswers, hlow, hhigh⟩ :=
        ih (by rw [hcfg, hlimit]; omega) hfxq hbusy hsched
      rw [List.length_drop] at hhigh
      exact ⟨k + 1, t, written, by omega, (steps_succ_of_next hstep k).trans hsteps, htbusy,
        htanswers.trans (by rw [hanswers]), by omega, by omega⟩

/-- Settles O56: the commit of each attempt, and induction on the sleeps that are left. -/
theorem ringBlockingWrite : Obligations.RingBlockingWrite := by
  intro s hinv h hu
  refine ⟨fun xs hdone => ?_, fun xs hshort hlimit => ?_, fun rest done sleeps _ => ?_,
    fun rest done sleeps hq hb ⟨m, hs⟩ => ?_⟩
  · have hend : fitting s.ring xs.length = xs.length ∨ 0 = s.cfg.rbRetryLimit :=
      hdone.imp Nat.min_eq_left Eq.symm
    rw [exec_rbWriteBlk h hu, exec_rbWriteNb h hu]
    refine (finishWriteBlk_of_done (s := s.setSched s.sched.tail) hend).trans ?_
    rw [Nat.zero_add]
    rfl
  · have hfit : fitting s.ring xs.length = availWrite s.ring := Nat.min_eq_right hshort.le
    rw [exec_rbWriteBlk h hu, hfit]
    refine (finishWriteBlk_of_short (s := s.setSched s.sched.tail) (not_or.2 ⟨hshort.ne, hlimit.ne⟩)).trans ?_
    rw [Nat.zero_add]
    rfl
  · refine (attemptWriteBlk_of_uninterrupted hu rest done sleeps).trans ?_
    by_cases hend : fitting s.ring rest.length = rest.length ∨ sleeps = s.cfg.rbRetryLimit
    · exact (finishWriteBlk_of_done (s := s.setSched s.sched.tail) hend).trans (congrArg _ (if_pos hend).symm)
    · exact (finishWriteBlk_of_short (s := s.setSched s.sched.tail) hend).trans (congrArg _ (if_neg hend).symm)
  · have hsleeps : sleeps ≤ s.cfg.rbRetryLimit := hinv.prod_op _ hb
    obtain ⟨k, t, written, hk, hrest⟩ := asleep_answers (s.cfg.rbRetryLimit - sleeps)
      (m := 2 * sleeps + m) (by omega) hq hb (by rw [hs]; congr 1; omega)
    exact ⟨k, t, written, by omega, hrest⟩

end Sys2Proof.Machine
end

section
/-! Proofs that the ring is a FIFO in every interleaving of sub-steps (47_ring_buffer.md R149). -/

namespace Sys2Proof.Machine

/-! ### Commits -/

/-- `u` is `s` in the moment of a commit: the parameters, the ring and the answers are those of `s`. -/
structure AtCommit (s u : State) : Prop where
  cfg     : u.cfg = s.cfg
  ring    : u.ring = s.ring
  answers : ∀ a, (u.port a).answers = (s.port a).answers

theorem atCommit_turn (a : Agent) (s : State) : AtCommit s (s.turn a) := ⟨rfl, rfl, fun b => by cases b <;> rfl⟩

theorem answers_setInput (a b : Agent) (l : List Item) (s : State) :
    ((s.setInput a l).port b).answers = (s.port b).answers := by
  cases a <;> cases b <;> rfl

theorem answers_setBusy (a b : Agent) (op : Option RingOp) (s : State) :
    ((s.setBusy a op).port b).answers = (s.port b).answers := by
  cases a <;> cases b <;> rfl

theorem AtCommit.setSched {s u : State} (h : AtCommit s u) (l : List Agent) : AtCommit s (u.setSched l) :=
  ⟨h.cfg, h.ring, fun b => by rw [State.port_setSched, h.answers]⟩

theorem AtCommit.setInput {s u : State} (h : AtCommit s u) (a : Agent) (l : List Item) : AtCommit s (u.setInput a l) :=
  ⟨by rw [State.cfg_setInput, h.cfg], by rw [State.ring_setInput, h.ring], fun b => by rw [answers_setInput, h.answers]⟩

section

variable {s t : State}

/-- The turn of an agent that begins a command is interrupted when the turn of the agent is. -/
theorem uninterrupted_begun {a : Agent} (h : (s.setSched s.sched.tail).uninterrupted a) (rest : List Item) :
    State.uninterrupted a ((s.turn a).setInput a rest) := by
  unfold State.uninterrupted at *
  rwa [State.sched_setInput]

/-- What a write's commit is, whether the write began in this step or before it. -/
theorem step_of_commitsWrite (hinv : s.Inv) {xs : List F32} {n done : Nat} (h : s.commitsWrite xs n done) :
    ∃ u, AtCommit s u ∧ n ≤ xs.length ∧ n ≤ availWrite s.ring ∧
      (step s = finishWrite xs n u ∧ done = 0 ∨ ∃ sleeps, step s = finishWriteBlk xs n done sleeps u) := by
  have hturn := atCommit_turn .producer s
  obtain ⟨hq, ha, (⟨hb, hdone⟩ | ⟨sleeps, hb⟩) | ⟨hn, hu, h⟩⟩ := h
  · obtain ⟨hx, hn⟩ := hinv.prod_op _ hb
    exact ⟨_, hturn, hx, hn, .inl ⟨step_of_busy hq ha hb, hdone⟩⟩
  · obtain ⟨hx, hn, -⟩ := hinv.prod_op _ hb
    exact ⟨_, hturn, hx, hn, .inr ⟨sleeps, step_of_busy hq ha hb⟩⟩
  · obtain ⟨hx, hroom⟩ : n ≤ xs.length ∧ n ≤ availWrite s.ring := by omega
    rcases h with ⟨sleeps, hb⟩ | ⟨hb, rfl, rest, hd⟩
    · refine ⟨_, hturn.setSched s.sched.tail.tail, hx, hroom, .inr ⟨sleeps, ?_⟩⟩
      rw [hn, step_of_busy hq ha hb]
      exact attemptWriteBlk_of_uninterrupted (s := s.turn .producer) hu xs done sleeps
    · have hbegun := (hturn.setInput .producer rest).setSched s.sched.tail.tail
      refine ⟨_, hbegun, hx, hroom, ?_⟩
      rcases hd with hd | hd
      · refine .inl ⟨?_, rfl⟩
        rw [hn, step_of_decoded hq ha hb hd, setIssuer_setInput]
        exact exec_rbWriteNb rfl (uninterrupted_begun hu rest) xs
      · refine .inr ⟨0, ?_⟩
        rw [hn, step_of_decoded hq ha hb hd, setIssuer_setInput]
        exact exec_rbWriteBlk rfl (uninterrupted_begun hu rest) xs

theorem step_of_commitsRead (hinv : s.Inv) {count n : Nat} (h : s.commitsRead count n) :
    ∃ u, AtCommit s u ∧ n ≤ count ∧ n ≤ availRead s.ring ∧ step s = finishRead count n u := by
  have hturn := atCommit_turn .consumer s
  obtain ⟨hq, ha, hb | ⟨hn, hu, hb, c, rest, rfl, hd⟩⟩ := h
  · obtain ⟨hcount, hn⟩ := hinv.cons_op _ hb
    exact ⟨_, hturn, hcount, hn, step_of_busy hq ha hb⟩
  · refine ⟨_, (hturn.setInput .consumer rest).setSched s.sched.tail.tail, by omega, by omega, ?_⟩
    rw [hn, step_of_decoded hq ha hb hd, setIssuer_setInput]
    exact exec_rbRead rfl (uninterrupted_begun hu rest) c

theorem step_of_commitsFlush (hinv : s.Inv) {wa : Nat} (h : s.commitsFlush wa) :
    ∃ u, AtCommit s u ∧ wa < s.ring.cap ∧ cursorGap s.ring.cap wa s.ring.r ≤ availRead s.ring ∧
      step s = finishFlush wa u := by
  have hturn := atCommit_turn .consumer s
  obtain ⟨hq, ha, hb | ⟨rfl, hu, hb, rest, hd⟩⟩ := h
  · obtain ⟨hwa, hgap⟩ := hinv.cons_op _ hb
    exact ⟨_, hturn, hwa, hgap, step_of_busy hq ha hb⟩
  · refine ⟨_, (hturn.setInput .consumer rest).setSched s.sched.tail.tail, hinv.ring_inv.w_lt, le_rfl, ?_⟩
    rw [step_of_decoded hq ha hb hd, setIssuer_setInput]
    exact exec_rbFlush rfl (uninterrupted_begun hu rest)

end

/-- A flush discards the unread samples before the write cursor it loaded. -/
theorem pending_commitFlush {cfg : Config} {g : RingState} (h : g.Inv cfg) {wa : Nat} (ha : wa < g.cap)
    (hle : cursorGap g.cap wa g.r ≤ availRead g) :
    pending (commitFlush wa g) = (pending g).drop (cursorGap g.cap wa g.r) := by
  change (Memory.readFrom g.cap g.buf wa (availRead (commitFlush wa g))).getD [] = _
  rw [availRead_commitFlush h ha hle, ← cursorGap_reach ha h.r_lt, Memory.readFrom_mod, cursorGap_reach ha h.r_lt,
    (readFrom_take h hle).2]
  rfl

/-! ### Steps that commit nothing -/

/-- The ring and the samples returned by the consumer's reads are those of `s`. -/
structure Untouched (s t : State) : Prop where
  ring  : t.ring = s.ring
  reads : (t.port .consumer).reads = (s.port .consumer).reads

namespace Untouched

variable {s t : State}

theorem setPlayer (h : Untouched s t) (p : Player) : Untouched s (t.setPlayer p) := ⟨h.ring, h.reads⟩

theorem setChip (h : Untouched s t) (c : ChipState) : Untouched s (t.setChip c) := ⟨h.ring, h.reads⟩

theorem setDraws (h : Untouched s t) (n : Nat) : Untouched s (t.setDraws n) := ⟨h.ring, h.reads⟩

theorem setSched (h : Untouched s t) (l : List Agent) : Untouched s (t.setSched l) := ⟨h.ring, h.reads⟩

theorem setBusy (h : Untouched s t) (a : Agent) (op : Option RingOp) : Untouched s (t.setBusy a op) :=
  ⟨by rw [State.ring_setBusy, h.ring], by rw [← h.reads, Port.reads, answers_setBusy]; rfl⟩

/-- An answer that is not a read's. -/
theorem deliver (h : Untouched s t) (a : Agent) {x : Answer} (hx : ∀ n xs, x ≠ .read n xs) :
    Untouched s (t.deliver a x) := by
  refine ⟨by rw [State.ring_deliver, h.ring], ?_⟩
  rw [State.port_deliver, ← h.reads]
  split
  · next ha =>
    rw [← ha, Port.reads, List.filterMap_append]
    cases x with
    | read n xs => exact absurd rfl (hx n xs)
    | byte | bytes | sample | samples | nat | stats => exact List.append_nil _
  · rfl

end Untouched

theorem untouched_refl (s : State) : Untouched s s := ⟨rfl, rfl⟩

theorem carryOn_of_not_uninterrupted {a : Agent} {s : State} (h : ¬ s.uninterrupted a) (op : Option RingOp)
    (k : State → Outcome) : carryOn a (s.setBusy a op) k = .next (s.setBusy a op) := by
  cases hs : s.sched with
  | nil => exact absurd (.inl hs) h
  | cons b l => exact carryOn_of_interrupted hs (fun hb => h (.inr ⟨l, by rw [hs, hb]⟩)) op k

/-- An instruction that commits no write, read or flush leaves the ring and the reads alone. -/
theorem exec_untouched {i : Instr} {s t : State} (e : exec i s = .next t)
    (hp : s.issuer = .producer → s.uninterrupted .producer → ∀ xs, i ≠ .rbWriteNb xs ∧ i ≠ .rbWriteBlk xs)
    (hc : s.issuer = .consumer → s.uninterrupted .consumer → i ≠ .rbFlush ∧ ∀ n, i ≠ .rbRead n) : Untouched s t := by
  have hs := untouched_refl s
  cases i
  case writeReg | loadRegs | clock | triggerEnv | setMixerOvr | clrMixerOvr | setDrumOvr | clrDrumOvr | setMute
      | pbSetMute =>
    cases (owned_next e).2
    exact hs.setChip _
  case pbPlay | pbPause | pbStop | pbSeek =>
    cases (owned_next e).2
    exact hs.setPlayer _
  case chipGenerate =>
    cases (owned_next e).2
    exact (hs.setChip _).deliver _ nofun
  case pbGenerate =>
    cases (owned_next e).2
    exact (hs.setPlayer _).deliver _ nofun
  case reset =>
    cases (owned_next e).2
    exact (hs.setChip _).setDraws _
  case readReg | dumpRegs | getSample | pbPosition | pbState =>
    cases inspected_next e
    exact hs.deliver _ nofun
  case rbAvailWrite | rbAvailRead | rbFillPct =>
    cases hasEitherRole_next e
    exact hs.deliver _ nofun
  case fxNop | fxDigidrum | fxSid | fxSyncbuzz =>
    cases e
    exact hs.setPlayer _
  case rbWriteNb xs =>
    obtain ⟨hi, e⟩ := hasRole_next e
    rw [carryOn_of_not_uninterrupted fun hu => (hp hi hu xs).1 rfl] at e
    cases e
    exact hs.setBusy _ _
  case rbWriteBlk xs =>
    obtain ⟨hi, e⟩ := hasRole_next e
    rw [attemptWriteBlk, carryOn_of_not_uninterrupted fun hu => (hp hi hu xs).2 rfl] at e
    cases e
    exact hs.setBusy _ _
  case rbRead n =>
    obtain ⟨hi, e⟩ := hasRole_next e
    rw [carryOn_of_not_uninterrupted fun hu => (hc hi hu).2 n rfl] at e
    cases e
    exact hs.setBusy _ _
  case rbFlush =>
    obtain ⟨hi, e⟩ := hasRole_next e
    rw [carryOn_of_not_uninterrupted fun hu => (hc hi hu).1 rfl] at e
    cases e
    exact hs.setBusy _ _
  case rbStats =>
    cases hi : s.issuer with
    | consumer =>
      rw [exec_rbStats_of_consumer hi] at e
      cases e
      exact hs.deliver _ nofun
    | producer =>
      rw [exec_rbStats_of_producer hi] at e
      rcases carryOn_next e with rfl | ⟨l, e⟩
      · exact hs.setBusy _ _
      · cases e
        exact (((hs.setBusy _ _).setSched _).setBusy _ _).deliver _ nofun
    | other =>
      change execRbStats s = _ at e
      rw [execRbStats, hi] at e
      cases e

/-- A sub-step that commits no write, read or flush leaves the ring and the reads alone. -/
theorem resumeOp_untouched {s t : State} {op : RingOp} (e : resumeOp op s = .next t)
    (hw : ∀ xs n, op ≠ .write xs n) (hwb : ∀ xs n done sleeps, op ≠ .writeBlk xs n done sleeps)
    (hsl : s.uninterrupted .producer → ∀ xs done sleeps, op ≠ .asleep xs done sleeps)
    (hr : ∀ count n, op ≠ .read count n) (hf : ∀ wa, op ≠ .flush wa) : Untouched s t := by
  have hs := untouched_refl s
  cases op with
  | write xs n => exact absurd rfl (hw xs n)
  | writeBlk xs n done sleeps => exact absurd rfl (hwb xs n done sleeps)
  | read count n => exact absurd rfl (hr count n)
  | flush wa => exact absurd rfl (hf wa)
  | asleep xs done sleeps =>
    rw [resumeOp, attemptWriteBlk, carryOn_of_not_uninterrupted fun hu => hsl hu xs done sleeps rfl] at e
    cases e
    exact hs.setBusy _ _
  | stats played =>
    cases e
    exact (hs.setBusy _ _).deliver _ nofun

section

variable {s t : State} (hw : ∀ xs n done, ¬ s.commitsWrite xs n done) (hr : ∀ count n, ¬ s.commitsRead count n)
  (hf : ∀ wa, ¬ s.commitsFlush wa)

include hw hr hf

/-- A command under way whose sub-step in this step commits nothing. -/
theorem resumeOp_turn_untouched (hinv : s.Inv) (hq : s.eng.fxq = none) {a : Agent} {op : RingOp}
    (ha : nextAgent s = some a) (hb : (s.port a).busy = some op) (e : resumeOp op (s.turn a) = .next t) :
    Untouched s t := by
  suffices h : Untouched (s.turn a) t from ⟨h.ring, h.reads⟩
  cases a with
  | producer =>
    refine resumeOp_untouched e ?_ ?_ ?_ ?_ ?_
    · rintro xs n rfl
      exact hw xs n 0 ⟨hq, ha, .inl (.inl ⟨hb, rfl⟩)⟩
    · rintro xs n done sleeps rfl
      exact hw xs n done ⟨hq, ha, .inl (.inr ⟨sleeps, hb⟩)⟩
    · rintro hu xs done sleeps rfl
      exact hw xs _ done ⟨hq, ha, .inr ⟨rfl, hu, .inl ⟨sleeps, hb⟩⟩⟩
    · rintro count n rfl
      exact hinv.prod_op _ hb
    · rintro wa rfl
      exact hinv.prod_op _ hb
  | consumer =>
    refine resumeOp_untouched e ?_ ?_ ?_ ?_ ?_
    · rintro xs n rfl
      exact hinv.cons_op _ hb
    · rintro xs n done sleeps rfl
      exact hinv.cons_op _ hb
    · rintro hu xs done sleeps rfl
      exact hinv.cons_op _ hb
    · rintro count n rfl
      exact hr count n ⟨hq, ha, .inl hb⟩
    · rintro wa rfl
      exact hf wa ⟨hq, ha, .inl hb⟩
  | other => exact absurd (hinv.other_op.symm.trans hb) nofun

/-- A command that begins in this step and commits nothing in it. -/
theorem exec_begun_untouched (hq : s.eng.fxq = none) {a : Agent} {i : Instr} {rest : List Item}
    (ha : nextAgent s = some a) (hb : (s.port a).busy = none) (hd : decode (s.port a).input = .ok (i, rest))
    (e : exec i ((s.turn a).setInput a rest) = .next t) : Untouched s t := by
  have hissuer : ((s.turn a).setInput a rest).issuer = a := State.issuer_setInput ..
  have hturn : ∀ b, ((s.turn a).setInput a rest).uninterrupted b → (s.setSched s.sched.tail).uninterrupted b :=
    fun b hu => by
      unfold State.uninterrupted at *
      rwa [State.sched_setInput] at hu
  have h : Untouched ((s.turn a).setInput a rest) t := by
    refine exec_untouched e (fun hi hu xs => ⟨?_, ?_⟩) (fun hi hu => ⟨?_, fun n => ?_⟩)
    · rintro rfl
      obtain rfl := hissuer.symm.trans hi
      exact hw xs _ 0 ⟨hq, ha, .inr ⟨rfl, hturn _ hu, .inr ⟨hb, rfl, rest, .inl hd⟩⟩⟩
    · rintro rfl
      obtain rfl := hissuer.symm.trans hi
      exact hw xs _ 0 ⟨hq, ha, .inr ⟨rfl, hturn _ hu, .inr ⟨hb, rfl, rest, .inr hd⟩⟩⟩
    · rintro rfl
      obtain rfl := hissuer.symm.trans hi
      exact hf _ ⟨hq, ha, .inr ⟨rfl, hturn _ hu, hb, rest, hd⟩⟩
    · rintro rfl
      obtain rfl := hissuer.symm.trans hi
      exact hr _ _ ⟨hq, ha, .inr ⟨rfl, hturn _ hu, hb, n, rest, rfl, hd⟩⟩
  refine ⟨h.ring.trans (State.ring_setInput _ _ _), h.reads.trans ?_⟩
  rw [Port.reads, answers_setInput]
  rfl

theorem step_untouched (hinv : s.Inv) (e : step s = .next t) : Untouched s t := by
  rcases step_next e with ⟨w, ws, -, e⟩ | ⟨-, rfl⟩ | ⟨hq, a, op, ha, hb, e⟩ | ⟨hq, a, i, rest, ha, hb, hd, e⟩ | ⟨-, l, rfl⟩
  · have hne : ∀ i : Instr, i.isEffect = false → decodeEffect w ≠ i := fun i hi h =>
      Bool.false_ne_true (hi.symm.trans ((congrArg Instr.isEffect h).symm.trans (isEffect_decodeEffect w)))
    obtain ⟨hring, hreads⟩ := exec_untouched e (fun _ _ xs => ⟨hne _ rfl, hne _ rfl⟩)
      fun _ _ => ⟨hne _ rfl, fun n => hne _ rfl⟩
    exact ⟨hring, hreads⟩
  · exact (untouched_refl s).setPlayer _
  · exact resumeOp_turn_untouched hw hr hf hinv hq ha hb e
  · exact exec_begun_untouched hw hr hf hq ha hb hd e
  · exact (untouched_refl s).setSched l

end

/-! ### The FIFO (R149) -/

section

variable {s t : State}

/-- What a step that commits a write appends, and what the producer is told or goes on with. -/
theorem step_commitsWrite (hinv : s.Inv) (e : step s = .next t) {xs : List F32} {n done : Nat}
    (h : s.commitsWrite xs n done) :
    n ≤ xs.length ∧ pending t.ring = pending s.ring ++ xs.take n ∧ t.ring.r = s.ring.r ∧
      t.ring.played = s.ring.played ∧ t.ring.under = s.ring.under ∧
      (t.port .consumer).answers = (s.port .consumer).answers ∧
      ((t.port .producer).busy = none ∧
          (t.port .producer).answers = (s.port .producer).answers ++ [.nat (done + n)] ∨
        (∃ sleeps, (t.port .producer).busy = some (.asleep (xs.drop n) (done + n) sleeps)) ∧
          (t.port .producer).answers = (s.port .producer).answers) := by
  obtain ⟨u, ⟨-, hring, hanswers⟩, hx, hn, hstep⟩ := step_of_commitsWrite hinv h
  have hpending := pending_commitWrite hinv.ring_inv xs hx hn
  rw [← hring] at hpending ⊢
  rw [← hanswers, ← hanswers]
  rcases hstep with ⟨hstep, rfl⟩ | ⟨sleeps, hstep⟩
  · cases hstep.symm.trans e
    exact ⟨hx, hpending, rfl, rfl, rfl, rfl, .inl ⟨rfl, by rw [Nat.zero_add]; rfl⟩⟩
  · by_cases hend : n = xs.length ∨ sleeps = u.cfg.rbRetryLimit
    · rw [finishWriteBlk_of_done hend] at hstep
      cases hstep.symm.trans e
      exact ⟨hx, hpending, rfl, rfl, rfl, rfl, .inl ⟨rfl, rfl⟩⟩
    · rw [finishWriteBlk_of_short hend] at hstep
      cases hstep.symm.trans e
      exact ⟨hx, hpending, rfl, rfl, rfl, rfl, .inr ⟨⟨sleeps + 1, rfl⟩, rfl⟩⟩

/-- What a step that commits a read takes, counts and returns. -/
theorem step_commitsRead (hinv : s.Inv) (e : step s = .next t) {count n : Nat} (h : s.commitsRead count n) :
    n ≤ count ∧ n ≤ (pending s.ring).length ∧ pending t.ring = (pending s.ring).drop n ∧ t.ring.w = s.ring.w ∧
      t.ring.played = s.ring.played + BitVec.ofNat 64 n ∧
      t.ring.under = (if n < count then s.ring.under + 1 else s.ring.under) ∧
      (t.port .consumer).answers = (s.port .consumer).answers ++ [.read n ((pending s.ring).take n)] := by
  obtain ⟨u, ⟨hcfg, hring, hanswers⟩, hcount, hn, hstep⟩ := step_of_commitsRead hinv h
  have hringInv := hinv.ring_inv
  rw [← hring] at hn hringInv ⊢
  rw [← hcfg] at hringInv
  rw [finishRead_eq hringInv count hn] at hstep
  cases hstep.symm.trans e
  rw [length_pending hringInv, ← hanswers]
  exact ⟨hcount, hn, pending_advanceRead hringInv count hn, rfl, rfl, rfl, rfl⟩

/-- What a step that commits a flush discards. -/
theorem step_commitsFlush (hinv : s.Inv) (e : step s = .next t) {wa : Nat} (h : s.commitsFlush wa) :
    pending t.ring = (pending s.ring).drop ((wa + s.ring.cap - s.ring.r) % s.ring.cap) ∧
      t.ring = { s.ring with r := wa } ∧ (t.port .consumer).answers = (s.port .consumer).answers := by
  obtain ⟨u, ⟨-, hring, hanswers⟩, hwa, hgap, hstep⟩ := step_of_commitsFlush hinv h
  cases hstep.symm.trans e
  have hpending := pending_commitFlush hinv.ring_inv hwa hgap
  rw [← hanswers, ← hring]
  rw [← hring] at hpending
  exact ⟨hpending, rfl, rfl⟩

end

/-- Equal cursors: nothing is unread. -/
theorem availRead_of_cursors_eq {g : RingState} (hw : g.w = g.r) : availRead g = 0 := by
  rw [availRead, hw, cursorGap, Nat.add_sub_cancel_left, Nat.mod_self]

/-- A read of as many samples as are unread returns them all. -/
theorem exec_rbRead_all {s : State} (h : s.issuer = .consumer) (hu : s.uninterrupted .consumer)
    (hinv : s.ring.Inv s.cfg) {n : Count} (hn : n.toNat = availRead s.ring) :
    ∃ u, exec (.rbRead n) s = .next u ∧
      (u.port .consumer).answers = (s.port .consumer).answers ++ [.read n.toNat (pending s.ring)] := by
  have hread := exec_rbRead h hu n
  rw [← hn, min_self, finishRead_eq (s := s.setSched s.sched.tail) hinv _ hn.le] at hread
  refine ⟨_, hread, ?_⟩
  rw [State.ring_setSched, List.take_of_length_le (by rw [length_pending hinv, hn])]
  rfl

/-- A write that fits into an empty ring comes back whole from a read of its length. -/
theorem read_of_write {s : State} {xs : List F32} {count : Count} (hinv : s.Inv) (h : s.issuer = .producer)
    (hs : s.sched = []) (hw : s.ring.w = s.ring.r) (hx : xs.length ≤ s.ring.cap - 1) (hcount : count.toNat = xs.length) :
    ∃ t u, exec (.rbWriteNb xs) s = .next t ∧
      (t.port .producer).answers = (s.port .producer).answers ++ [.nat xs.length] ∧
      exec (.rbRead count) (t.setIssuer .consumer) = .next u ∧
      (u.port .consumer).answers = (s.port .consumer).answers ++ [.read xs.length xs] := by
  have hringInv := hinv.ring_inv
  have hempty := availRead_of_cursors_eq hw
  have hroom : xs.length ≤ availWrite s.ring := by
    have := availWrite_add_availRead hringInv
    omega
  have hafter := inv_commitWrite hringInv xs le_rfl hroom
  have havail := availRead_commitWrite hringInv xs hroom
  have hpending := pending_commitWrite hringInv xs le_rfl hroom
  have hnone : pending s.ring = [] := List.length_eq_zero_iff.1 ((length_pending hringInv).trans hempty)
  rw [hnone, List.nil_append, List.take_length] at hpending
  rw [hempty, Nat.zero_add] at havail
  have hwrite := exec_rbWriteNb h (.inl hs) xs
  rw [show fitting s.ring xs.length = xs.length from Nat.min_eq_left hroom] at hwrite
  obtain ⟨t, hwrite, hring, hcfg, hsched, hprod, hcons⟩ : ∃ t, exec (.rbWriteNb xs) s = .next t ∧
      t.ring = commitWrite xs xs.length s.ring ∧ t.cfg = s.cfg ∧ t.sched = [] ∧
      (t.port .producer).answers = (s.port .producer).answers ++ [.nat xs.length] ∧
      (t.port .consumer).answers = (s.port .consumer).answers :=
    ⟨_, hwrite, rfl, rfl, congrArg List.tail hs, rfl, rfl⟩
  rw [← hring] at hafter havail hpending
  rw [← hcfg] at hafter
  obtain ⟨u, hread, hanswers⟩ := exec_rbRead_all (s := t.setIssuer .consumer) rfl (.inl hsched) hafter
    (hcount.trans havail.symm)
  refine ⟨t, u, hwrite, hprod, hread, ?_⟩
  rw [hanswers, hcount, State.ring_setIssuer, hpending, State.port_setIssuer, hcons]

/-- Settles O58: a step commits a write, a read, a flush or nothing, and each has its effect on the unread samples. -/
theorem ringIsFifo : Obligations.RingIsFifo := by
  refine ⟨fun s hinv => ?_, fun s t hinv e => ⟨fun xs n done => step_commitsWrite hinv e,
    fun count n => step_commitsRead hinv e, fun wa => step_commitsFlush hinv e, fun hw hr hf => ?_⟩,
    fun s xs count => read_of_write⟩
  · have := Nat.mod_lt (s.ring.w + s.ring.cap - s.ring.r) hinv.ring_inv.cap_pos
    omega
  · obtain ⟨hring, hreads⟩ := step_untouched hw hr hf hinv e
    exact ⟨hring, hreads⟩

end Sys2Proof.Machine
end

section
/-! Proofs about the length of a song and its loop (45_playback.md R128). -/

namespace Sys2Proof.Machine

/-! ### A looping song (R128 item 1) -/

section

variable {cfg : Config} {p : Player}

theorem state_sampleStep_of_loop (hl : loopEnabled cfg = true) (h : p.eng.state = .playing) :
    (sampleStep cfg p).eng.state = .playing := by
  rw [state_sampleStep, hl, if_neg (by simp), h]

theorem state_generateEngine_of_loop (hl : loopEnabled cfg = true) (h : p.eng.state = .playing) (n : Nat) :
    (generateEngine cfg n p).1.eng.state = .playing := by
  induction n generalizing p with
  | zero => exact h
  | succ n ih =>
    rw [generateEngine_succ_of_playing cfg n h]
    exact ih (state_sampleStep_of_loop hl h)

/-- The frame of the next sample, in a song that loops. -/
theorem cursor_sampleStep_of_loop (hl : loopEnabled cfg = true) :
    (sampleStep cfg p).eng.cursor =
      if p.eng.sif + 1 = p.eng.flen then
        (if p.eng.cursor + 1 = frameCount cfg then loopStart cfg else p.eng.cursor + 1)
      else p.eng.cursor := by
  have hcursor := (advanceSample_sameSequencer cfg p).cursor
  split
  · next hend =>
    rw [sampleStep_frame_end hend]
    split
    · next hlast =>
      rw [endFrame_loop (by rwa [hcursor]) hl, cursor_frameLoad]
      rfl
    · next hnext =>
      rw [endFrame_next (by rwa [hcursor]), cursor_frameLoad, hcursor]
      rfl
  · next hwithin =>
    rw [sampleStep_within_frame hwithin]
    exact hcursor

end

/-- Settles O45: no sample of a looping song finishes it, so that the invariant bounds the cursor. -/
theorem loopNeverFinishes : Obligations.LoopNeverFinishes := by
  intro cfg p n hcfg hl hinv h
  have hstate := state_generateEngine_of_loop hl h n
  refine ⟨hstate, cursor_sampleStep_of_loop hl, ?_⟩
  exact (inv_generateEngine (engineOk_of_configOk hcfg) n hinv).eng.cursor_lt (by rw [hstate]; nofun)

/-! ### A song that does not loop (R128 item 2) -/

/-- The player after `i` samples of a song that began at frame 0 with remainder 0: the frames up to and with the
current one account for their share of the samples. -/
structure SongAt (cfg : Config) (i : Nat) (p : Player) : Prop where
  state     : p.eng.state = .playing
  cursor_lt : p.eng.cursor < frameCount cfg
  sif_lt    : p.eng.sif < p.eng.flen
  racc_lt   : p.eng.racc < cfg.tickRate
  balance   : p.eng.racc + cfg.tickRate * (i + p.eng.flen) =
    (p.eng.cursor + 1) * cfg.sampleRate + cfg.tickRate * p.eng.sif

/-- The number of samples in the song. -/
def songLen (cfg : Config) : Nat := frameCount cfg * cfg.sampleRate / cfg.tickRate

section

variable {cfg : Config} {i : Nat} {p : Player}

theorem SongAt.lt_songLen (h : SongAt cfg i p) : i < songLen cfg := by
  obtain ⟨-, hcursor, hsif, hracc, hbalance⟩ := h
  have ht : 0 < cfg.tickRate := by omega
  refine (Nat.le_div_iff_mul_le ht).2 ?_
  have hframes : (p.eng.cursor + 1) * cfg.sampleRate ≤ frameCount cfg * cfg.sampleRate := Nat.mul_le_mul_right _ hcursor
  have hleft : cfg.tickRate * (p.eng.sif + 1) ≤ cfg.tickRate * p.eng.flen := Nat.mul_le_mul_left _ hsif
  rw [Nat.mul_add_one] at hleft
  rw [Nat.mul_add] at hbalance
  rw [Nat.succ_mul, Nat.mul_comm i]
  omega

/-- FRAME_LEN in a frame load. -/
theorem frameLoad_balance (hr : 0 < cfg.sampleRate) (k : Nat) (p : Player) :
    (frameLoad cfg k p).eng.racc + cfg.tickRate * (frameLoad cfg k p).eng.flen = p.eng.racc + cfg.sampleRate := by
  obtain ⟨-, -, -, hflen, hracc, -⟩ := frameLoad_eng hr k p
  rw [hflen, hracc, frameLen_balance]

theorem racc_frameLoad_lt (hk : EngineOk cfg) (k : Nat) (h : p.eng.racc < cfg.tickRate) :
    (frameLoad cfg k p).eng.racc < cfg.tickRate := by
  obtain ⟨-, -, -, -, hracc, -⟩ := frameLoad_eng hk.chip.rate_pos k p
  rw [hracc]
  exact frameLen_racc_lt hk h

theorem flen_frameLoad_pos (hk : EngineOk cfg) (k : Nat) (p : Player) : 0 < (frameLoad cfg k p).eng.flen := by
  obtain ⟨-, -, -, hflen, -⟩ := frameLoad_eng hk.chip.rate_pos k p
  rw [hflen]
  exact frameLen_pos hk _

/-- A player as a frame load leaves it, at sample 0 of frame `c`, when the frames before it account for the samples. -/
theorem songAt_of_load (hk : EngineOk cfg) {k c : Nat} {q : Player} (hlt : p.eng.racc < cfg.tickRate)
    (hbefore : p.eng.racc + cfg.tickRate * i = c * cfg.sampleRate) (hc : c < frameCount cfg)
    (hstate : q.eng.state = .playing) (hcursor : q.eng.cursor = c) (hsif : q.eng.sif = 0)
    (hracc : q.eng.racc = (frameLoad cfg k p).eng.racc) (hflen : q.eng.flen = (frameLoad cfg k p).eng.flen) :
    SongAt cfg i q := by
  have hbalance := frameLoad_balance hk.chip.rate_pos k p
  refine ⟨hstate, hcursor.trans_lt hc, ?_, ?_, ?_⟩
  · rw [hsif, hflen]
    exact flen_frameLoad_pos hk k p
  · rw [hracc]
    exact racc_frameLoad_lt hk k hlt
  · rw [hcursor, hsif, hracc, hflen, Nat.mul_add, Nat.add_one_mul]
    omega

/-- PLAY at the start of the song. -/
theorem songAt_play (hk : EngineOk cfg) (hst : p.eng.state = .idle ∨ p.eng.state = .finished)
    (hstart : playStart cfg p = 0) (hracc : p.eng.racc = 0) : SongAt cfg 0 (play cfg p) := by
  rw [play_of_stopped cfg hst, hstart]
  have hlt : p.eng.racc < cfg.tickRate := hracc ▸ hk.tick_pos
  exact songAt_of_load (p := p.onEng fun e => { e with cursor := 0, sif := 0 }) hk hlt (by rw [Nat.zero_mul]; exact hracc)
    (Nat.pos_of_ne_zero hk.frames) rfl (cursor_frameLoad cfg 0 _) (sif_frameLoad cfg 0 _) rfl rfl

/-- A sample goes on with the song, or it is the last one and ends it. -/
theorem SongAt.sampleStep (hk : EngineOk cfg) (hl : loopEnabled cfg = false) (h : SongAt cfg i p) :
    SongAt cfg (i + 1) (sampleStep cfg p) ∨
      i + 1 = songLen cfg ∧ (sampleStep cfg p).eng.state = .finished ∧
        (sampleStep cfg p).eng.cursor = frameCount cfg := by
  have hlen := h.lt_songLen
  obtain ⟨hstate, hc, hsif, hracc, hbalance⟩ := h
  have hsame := advanceSample_sameSequencer cfg p
  by_cases hend : p.eng.sif + 1 = p.eng.flen
  · have hdone : p.eng.racc + cfg.tickRate * (i + 1) = (p.eng.cursor + 1) * cfg.sampleRate := by
      rw [← hend, Nat.mul_add, Nat.mul_add_one] at hbalance
      rw [Nat.mul_add_one]
      omega
    rw [sampleStep_frame_end hend]
    by_cases hlast : p.eng.cursor + 1 = frameCount cfg
    · right
      rw [endFrame_finish (by rwa [hsame.cursor]) hl, (releaseAll_sameSequencer _).state,
        (releaseAll_sameSequencer _).cursor]
      refine ⟨?_, rfl, rfl⟩
      rw [hlast] at hdone
      exact ((Nat.div_mod_unique hk.tick_pos).2 ⟨hdone, hracc⟩).1.symm
    · left
      rw [endFrame_next (by rwa [hsame.cursor]), hsame.cursor]
      exact songAt_of_load (c := p.eng.cursor + 1) hk (hsame.racc ▸ hracc) (hsame.racc ▸ hdone) (by omega)
        ((state_frameLoad ..).trans (hsame.state.trans hstate)) (cursor_frameLoad ..) (sif_frameLoad ..) rfl rfl
  · left
    rw [sampleStep_within_frame hend]
    refine ⟨hsame.state.trans hstate, hsame.cursor.trans_lt hc, ?_, hsame.racc.trans_lt hracc, ?_⟩
    · exact (lt_of_le_of_ne hsif hend).trans_eq hsame.flen.symm
    · change (advanceSample cfg p).eng.racc + cfg.tickRate * (i + 1 + (advanceSample cfg p).eng.flen) =
        ((advanceSample cfg p).eng.cursor + 1) * cfg.sampleRate + cfg.tickRate * (p.eng.sif + 1)
      rw [hsame.racc, hsame.flen, hsame.cursor, Nat.add_right_comm, Nat.mul_add_one, Nat.mul_add_one]
      omega

end

/-- Samples of a player that goes on playing. -/
theorem generateEngine_of_playing {cfg : Config} {n : Nat} : ∀ {q : Player},
    (∀ i < n, ((sampleStep cfg)^[i] q).eng.state = .playing) →
    (generateEngine cfg n q).1 = (sampleStep cfg)^[n] q ∧
      ∀ i < n, (generateEngine cfg n q).2[i]? = some (sampleOut cfg ((sampleStep cfg)^[i] q)) := by
  induction n with
  | zero => exact fun _ => ⟨rfl, nofun⟩
  | succ n ih =>
    intro q h
    obtain ⟨hplayer, hsamples⟩ := ih (q := sampleStep cfg q) fun i hi => h (i + 1) (Nat.succ_lt_succ hi)
    have hfirst : q.eng.state = .playing := h 0 (Nat.succ_pos n)
    rw [generateEngine_succ_of_playing cfg n hfirst]
    refine ⟨hplayer, fun i hi => ?_⟩
    cases i with
    | zero => rfl
    | succ i => exact hsamples i (Nat.lt_of_succ_lt_succ hi)

/-- The song's players, sample by sample. -/
theorem songAt_iterate {cfg : Config} {q : Player} (hk : EngineOk cfg) (hl : loopEnabled cfg = false)
    (h : SongAt cfg 0 q) {i : Nat} (hi : i < songLen cfg) : SongAt cfg i ((sampleStep cfg)^[i] q) := by
  induction i with
  | zero => exact h
  | succ i ih =>
    rw [Function.iterate_succ_apply']
    exact ((ih (by omega)).sampleStep hk hl).resolve_right fun hend => hi.ne hend.1

/-- The song's last sample. -/
theorem finished_iterate {cfg : Config} {q : Player} (hk : EngineOk cfg) (hl : loopEnabled cfg = false)
    (h : SongAt cfg 0 q) : ((sampleStep cfg)^[songLen cfg] q).eng.state = .finished ∧
      ((sampleStep cfg)^[songLen cfg] q).eng.cursor = frameCount cfg := by
  obtain ⟨n, hn⟩ := Nat.exists_eq_succ_of_ne_zero h.lt_songLen.ne'
  rw [hn, Function.iterate_succ_apply']
  rcases (songAt_iterate hk hl h (i := n) (by omega)).sampleStep hk hl with hnext | ⟨-, hend⟩
  · exact absurd hnext.lt_songLen (by omega)
  · exact hend

/-- Settles O44: each frame's samples and the remainder account for the rate, so that the last sample is number
`songLen`. -/
theorem songLength : Obligations.SongLength := by
  intro cfg p k hcfg _ hst hcursor hracc hl q len r
  have hk := engineOk_of_configOk hcfg
  have hstart : playStart cfg p = 0 := by
    unfold playStart
    split
    · rfl
    · exact hcursor.resolve_right ‹_›
  have hsong := songAt_play hk hst hstart hracc
  have hplaying : ∀ i < len, ((sampleStep cfg)^[i] q).eng.state = .playing := fun i hi =>
    (songAt_iterate hk hl hsong hi).state
  obtain ⟨hfinished, hcursor⟩ := finished_iterate hk hl hsong
  obtain ⟨hplayer, hsamples⟩ := generateEngine_of_playing hplaying
  have hrest := generateEngine_of_ne_playing cfg k (p := (generateEngine cfg len q).1)
    (by rw [hplayer]; exact fun h => absurd (hfinished.symm.trans h) nofun)
  have hr : r = ((sampleStep cfg)^[len] q, (generateEngine cfg len q).2 ++ List.replicate k 0) :=
    (generateEngine_add cfg len k q).trans (by rw [hrest, hplayer])
  have hlength := length_generateEngine cfg len q
  rw [hr]
  refine ⟨fun i hi => ⟨hplaying i hi, ?_⟩, ?_, fun i hi => ?_, rfl, hfinished, hcursor⟩
  · exact (List.getElem?_append_left (by omega)).trans (hsamples i hi)
  · exact (List.length_append).trans (by rw [hlength, List.length_replicate])
  · refine (List.getElem?_append_right (by omega)).trans ?_
    rw [hlength, Nat.add_sub_cancel_left, List.getElem?_replicate, if_pos hi]

end Sys2Proof.Machine
end

section
/-! Proofs about the effect words and FX_DECODE (46_effects.md R131). -/

namespace Sys2Proof.Machine

/-! ### A channel's entry set twice, and what a release leaves of it -/

theorem PerCh.set_set {α : Type} (v : PerCh α) (ch : Ch) (x y : α) : (v.set ch x).set ch y = v.set ch y := by
  cases ch <;> rfl

section

variable (ch : Ch) (p : Player)

theorem slot_set_release (x : Slot) : (release ch p).eng.slot.set ch x = p.eng.slot.set ch x := by
  unfold release
  cases p.slotOf ch with
  | empty => rfl
  | drum | sid | buzz => exact PerCh.set_set _ ch _ x

theorem drum_set_release (b : Option Byte) : (release ch p).chip.drum.set ch b = p.chip.drum.set ch b := by
  unfold release
  cases p.slotOf ch with
  | empty | sid | buzz => rfl
  | drum => exact PerCh.set_set _ ch _ b

theorem ovr_set_release (o : Option Override) : (release ch p).chip.ovr.set ch o = p.chip.ovr.set ch o := by
  unfold release
  cases p.slotOf ch with
  | empty | drum => rfl
  | sid | buzz => exact PerCh.set_set _ ch _ o

theorem eng_setSlot_release (x : Slot) :
    ((release ch p).setSlot ch x).eng = { p.eng with slot := p.eng.slot.set ch x } := by
  change { (release ch p).eng with slot := (release ch p).eng.slot.set ch x } = _
  rw [slot_set_release, (release_frame ch p).eng]

theorem release_markSeen (d : Ch) : release ch (p.markSeen d) = (release ch p).markSeen d := by
  unfold release
  rw [slotOf_markSeen]
  cases p.slotOf ch <;> rfl

end

/-! ### One effect word (R131) -/

section

variable {cfg : Config} {fch : BitVec 2} {id : Byte} {rate : BitVec 20} {ch : Ch} {p : Player}

theorem fxDigidrum_of_invalid (h : fch = 3 ∨ rate = 0) : fxDigidrum cfg fch id rate p = p := by
  unfold fxDigidrum
  split
  · next hch _ =>
    rcases h with rfl | h
    · cases hch
    · exact if_pos h
  · rfl

theorem fxDigidrum_of_no_bytes (h : drumSample cfg id = []) : fxDigidrum cfg fch id rate p = p := by
  rw [fxDigidrum, h]
  cases chOfNat fch.toNat <;> rfl

theorem fxDigidrum_of_valid (hch : fch.toNat = ch.num) (hr : rate ≠ 0) {b : Byte} {bs : List Byte}
    (h : drumSample cfg id = b :: bs) :
    fxDigidrum cfg fch id rate p = ((release ch p).setSlot ch (.drum id 0 0 rate)).onChip (setDrumOvr ch b) := by
  rw [fxDigidrum, h, hch, chOfNat_num]
  exact if_neg hr

theorem fxSid_of_invalid (h : fch = 3 ∨ rate = 0) : fxSid fch rate p = p := by
  unfold fxSid
  split
  · next hch =>
    rcases h with rfl | h
    · cases hch
    · exact if_pos h
  · rfl

theorem fxSid_of_sid (hch : fch.toNat = ch.num) (hr : rate ≠ 0) {high : Bool} {acc : Nat} {r : BitVec 20}
    (h : p.slotOf ch = .sid high acc r) : fxSid fch rate p = (p.markSeen ch).setSlot ch (.sid high acc rate) := by
  rw [fxSid, hch, chOfNat_num]
  dsimp only
  rw [if_neg hr, h]

theorem fxSid_of_not_sid (hch : fch.toNat = ch.num) (hr : rate ≠ 0) (h : ∀ high acc r, p.slotOf ch ≠ .sid high acc r) :
    fxSid fch rate p = ((release ch (p.markSeen ch)).setSlot ch (.sid true 0 rate)).onChip (setMixerOvr ch true true) := by
  rw [fxSid, hch, chOfNat_num]
  dsimp only
  rw [if_neg hr]
  cases hs : p.slotOf ch with
  | sid high acc r => exact absurd hs (h high acc r)
  | empty | drum | buzz => rfl

theorem fxSyncbuzz_of_invalid (h : fch = 3 ∨ rate = 0) : fxSyncbuzz fch rate p = p := by
  unfold fxSyncbuzz
  split
  · next hch =>
    rcases h with rfl | h
    · cases hch
    · exact if_pos h
  · rfl

theorem fxSyncbuzz_of_buzz (hch : fch.toNat = ch.num) (hr : rate ≠ 0) {acc : Nat} {r : BitVec 20}
    (h : p.slotOf ch = .buzz acc r) : fxSyncbuzz fch rate p = (p.markSeen ch).setSlot ch (.buzz acc rate) := by
  rw [fxSyncbuzz, hch, chOfNat_num]
  dsimp only
  rw [if_neg hr, h]

theorem fxSyncbuzz_of_not_buzz (hch : fch.toNat = ch.num) (hr : rate ≠ 0) (h : ∀ acc r, p.slotOf ch ≠ .buzz acc r) :
    fxSyncbuzz fch rate p =
      (((release ch (p.markSeen ch)).setSlot ch (.buzz 0 rate)).onChip (setMixerOvr ch true true)).onChip envRestart := by
  rw [fxSyncbuzz, hch, chOfNat_num]
  dsimp only
  rw [if_neg hr]
  cases hs : p.slotOf ch with
  | buzz acc r => exact absurd hs (h acc r)
  | empty | drum | sid => rfl

end

theorem drumSample_eq (cfg : Config) (id : Byte) : drumSample cfg id = (cfg.drumBank[id.toNat]?).getD [] :=
  List.getD_eq_getElem?_getD

theorem next_setPlayer_congr (s : State) {p q : Player} (h : p = q) :
    (.next (s.setPlayer p) : Outcome) = .next (s.setPlayer q) := by rw [h]

theorem next_setPlayer_self {s : State} {q : Player} (h : q = s.player) : (.next (s.setPlayer q) : Outcome) = .next s := by
  rw [h, State.setPlayer_player]

theorem reg_release (ch : Ch) (p : Player) : (release ch p).chip.reg = p.chip.reg :=
  (release_byEffects Config.default ch p).chip.reg

/-- A drum's start after the release. -/
theorem start_drum_eq (ch : Ch) (x : Slot) (b : Byte) (p : Player) :
    ((release ch p).setSlot ch x).onChip (setDrumOvr ch b) =
      { chip := { (release ch p).chip with drum := p.chip.drum.set ch (some b) },
        eng := { p.eng with slot := p.eng.slot.set ch x } } := by
  rw [← drum_set_release, ← eng_setSlot_release]
  rfl

/-- A Sid's or Buzz's start after the release, but for the envelope. -/
theorem start_sid_eq (ch : Ch) (x : Slot) (p : Player) :
    ((release ch (p.markSeen ch)).setSlot ch x).onChip (setMixerOvr ch true true) =
      { chip := { (release ch p).chip with ovr := p.chip.ovr.set ch (some ⟨true, true⟩) },
        eng := { p.eng with seen := p.eng.seen.set ch true, slot := p.eng.slot.set ch x } } := by
  have heng := eng_setSlot_release ch (p.markSeen ch) x
  rw [← ovr_set_release]
  rw [release_markSeen] at heng ⊢
  exact congrArg (Player.mk { (release ch p).chip with ovr := (release ch p).chip.ovr.set ch (some ⟨true, true⟩) }) heng

/-- Settles O47: the cases of each kind's word, and that a start overwrites what its release has changed. -/
theorem effectWords : Obligations.EffectWords := by
  intro s fch id rate
  refine ⟨rfl, fun h => ⟨next_setPlayer_self (fxDigidrum_of_invalid h), next_setPlayer_self (fxSid_of_invalid h),
    next_setPlayer_self (fxSyncbuzz_of_invalid h)⟩, fun h => next_setPlayer_self (fxDigidrum_of_no_bytes h),
    fun ch hch hr => ⟨fun b bs hb => ?_, fun high acc r h => ?_, fun h => ?_, fun acc r h => ?_, fun h => ?_⟩⟩
  · have hbytes : drumSample s.cfg id = b :: bs := by rw [drumSample_eq, hb]; rfl
    have hstart := (fxDigidrum_of_valid hch hr hbytes).trans (start_drum_eq ch _ b s.player)
    exact ⟨_, next_setPlayer_congr s hstart, rfl, rfl⟩
  · exact next_setPlayer_congr s (fxSid_of_sid hch hr h)
  · exact next_setPlayer_congr s ((fxSid_of_not_sid hch hr h).trans (start_sid_eq ch _ s.player))
  · exact next_setPlayer_congr s (fxSyncbuzz_of_buzz hch hr h)
  · refine next_setPlayer_congr s ((fxSyncbuzz_of_not_buzz hch hr h).trans ?_)
    rw [start_sid_eq, ← State.chip_eq, ← reg_release ch s.player]
    rfl

/-! ### A word and a channel -/

/-- The channel's slot, mark and overrides are the same in `p` and `q`. -/
structure SameAt (ch : Ch) (p q : Player) : Prop where
  slot : q.slotOf ch = p.slotOf ch
  seen : q.eng.seen.get ch = p.eng.seen.get ch
  ovr  : q.chip.ovr.get ch = p.chip.ovr.get ch
  drum : q.chip.drum.get ch = p.chip.drum.get ch

namespace SameAt

variable {ch d : Ch} {p q r : Player}

theorem refl (ch : Ch) (p : Player) : SameAt ch p p := ⟨rfl, rfl, rfl, rfl⟩

theorem trans (h : SameAt ch p q) (k : SameAt ch q r) : SameAt ch p r :=
  ⟨k.slot.trans h.slot, k.seen.trans h.seen, k.ovr.trans h.ovr, k.drum.trans h.drum⟩

theorem setSlot (h : ch ≠ d) (x : Slot) (p : Player) : SameAt ch p (p.setSlot d x) :=
  ⟨PerCh.get_set_ne _ _ h, rfl, rfl, rfl⟩

theorem markSeen (h : ch ≠ d) (p : Player) : SameAt ch p (p.markSeen d) := ⟨rfl, PerCh.get_set_ne _ _ h, rfl, rfl⟩

theorem setMixerOvr (h : ch ≠ d) (t n : Bool) (p : Player) : SameAt ch p (p.onChip (setMixerOvr d t n)) :=
  ⟨rfl, rfl, PerCh.get_set_ne _ _ h, rfl⟩

theorem setDrumOvr (h : ch ≠ d) (b : Byte) (p : Player) : SameAt ch p (p.onChip (setDrumOvr d b)) :=
  ⟨rfl, rfl, rfl, PerCh.get_set_ne _ _ h⟩

theorem envRestart (ch : Ch) (p : Player) : SameAt ch p (p.onChip envRestart) := ⟨rfl, rfl, rfl, rfl⟩

theorem release (h : ch ≠ d) (p : Player) : SameAt ch p (release d p) := by
  refine ⟨?_, congrArg (PerCh.get · ch) (release_keepsDecode d p).seen, ?_, ?_⟩
  · rw [slotOf_release, if_neg h]
  · rw [ovr_release, if_neg h]
  · rw [drum_release, if_neg h]

end SameAt

theorem eq_three_or_exists_num (fch : BitVec 2) : fch = 3 ∨ ∃ ch : Ch, fch.toNat = ch.num := by
  have hlt := fch.isLt
  by_cases h3 : fch.toNat = 3
  · exact .inl (BitVec.eq_of_toNat_eq h3)
  · right
    interval_cases fch.toNat
    · exact ⟨.A, rfl⟩
    · exact ⟨.B, rfl⟩
    · exact ⟨.C, rfl⟩
    · exact absurd rfl h3

section

variable (cfg : Config) (fch : BitVec 2) (id : Byte) (rate : BitVec 20) (ch : Ch) (p : Player)

/-- A DIGIDRUM word and a channel: nothing there, or the word is valid for it and starts a drum. -/
theorem fxDigidrum_at :
    SameAt ch p (fxDigidrum cfg fch id rate p) ∨
      fch.toNat = ch.num ∧ rate ≠ 0 ∧ drumSample cfg id ≠ [] ∧
        (fxDigidrum cfg fch id rate p).slotOf ch = .drum id 0 0 rate := by
  rcases eq_three_or_exists_num fch with h | ⟨d, hd⟩
  · rw [fxDigidrum_of_invalid (.inl h)]
    exact .inl (.refl _ _)
  · by_cases hr : rate = 0
    · rw [fxDigidrum_of_invalid (.inr hr)]
      exact .inl (.refl _ _)
    · cases hb : drumSample cfg id with
      | nil =>
        rw [fxDigidrum_of_no_bytes hb]
        exact .inl (.refl _ _)
      | cons b bs =>
        rw [fxDigidrum_of_valid hd hr hb]
        by_cases hne : ch = d
        · subst hne
          exact .inr ⟨hd, hr, nofun, PerCh.get_set_same _ _ _⟩
        · exact .inl ((SameAt.release hne p).trans ((SameAt.setSlot hne _ _).trans (.setDrumOvr hne _ _)))

/-- A SID word and a channel: nothing there, or the word is valid for it and a Sid runs. -/
theorem fxSid_at :
    SameAt ch p (fxSid fch rate p) ∨
      fch.toNat = ch.num ∧ rate ≠ 0 ∧ ∃ high acc, (fxSid fch rate p).slotOf ch = .sid high acc rate := by
  rcases eq_three_or_exists_num fch with h | ⟨d, hd⟩
  · rw [fxSid_of_invalid (.inl h)]
    exact .inl (.refl _ _)
  · by_cases hr : rate = 0
    · rw [fxSid_of_invalid (.inr hr)]
      exact .inl (.refl _ _)
    · by_cases hs : ∃ high acc r, p.slotOf d = .sid high acc r
      · obtain ⟨high, acc, r, hs⟩ := hs
        rw [fxSid_of_sid hd hr hs]
        by_cases hne : ch = d
        · subst hne
          exact .inr ⟨hd, hr, high, acc, PerCh.get_set_same _ _ _⟩
        · exact .inl ((SameAt.markSeen hne p).trans (.setSlot hne _ _))
      · rw [fxSid_of_not_sid hd hr fun high acc r h => hs ⟨high, acc, r, h⟩]
        by_cases hne : ch = d
        · subst hne
          exact .inr ⟨hd, hr, true, 0, PerCh.get_set_same _ _ _⟩
        · exact .inl ((SameAt.markSeen hne p).trans ((SameAt.release hne _).trans
            ((SameAt.setSlot hne _ _).trans (.setMixerOvr hne _ _ _))))

/-- A SYNCBUZZ word and a channel: nothing there, or the word is valid for it and a Buzz runs. -/
theorem fxSyncbuzz_at :
    SameAt ch p (fxSyncbuzz fch rate p) ∨
      fch.toNat = ch.num ∧ rate ≠ 0 ∧ ∃ acc, (fxSyncbuzz fch rate p).slotOf ch = .buzz acc rate := by
  rcases eq_three_or_exists_num fch with h | ⟨d, hd⟩
  · rw [fxSyncbuzz_of_invalid (.inl h)]
    exact .inl (.refl _ _)
  · by_cases hr : rate = 0
    · rw [fxSyncbuzz_of_invalid (.inr hr)]
      exact .inl (.refl _ _)
    · by_cases hs : ∃ acc r, p.slotOf d = .buzz acc r
      · obtain ⟨acc, r, hs⟩ := hs
        rw [fxSyncbuzz_of_buzz hd hr hs]
        by_cases hne : ch = d
        · subst hne
          exact .inr ⟨hd, hr, acc, PerCh.get_set_same _ _ _⟩
        · exact .inl ((SameAt.markSeen hne p).trans (.setSlot hne _ _))
      · rw [fxSyncbuzz_of_not_buzz hd hr fun acc r h => hs ⟨acc, r, h⟩]
        by_cases hne : ch = d
        · subst hne
          exact .inr ⟨hd, hr, 0, PerCh.get_set_same _ _ _⟩
        · exact .inl ((SameAt.markSeen hne p).trans ((SameAt.release hne _).trans
            ((SameAt.setSlot hne _ _).trans ((SameAt.setMixerOvr hne _ _ _).trans (.envRestart _ _)))))

end

/-! ### The fields of an effect word -/

theorem kindField_eq (w : Word) : field w 31 30 = w.toNat / 2 ^ 30 := by
  have := w.isLt
  simp only [field]
  omega

theorem toNat_idField (w : Word) : (idField w).toNat = w.toNat / 2 ^ 20 % 256 := by
  simp only [idField, field, BitVec.toNat_ofNat]
  omega

theorem toNat_rateField (w : Word) : (rateField w).toNat = w.toNat % 2 ^ 20 := by
  simp only [rateField, field, BitVec.toNat_ofNat]
  omega

theorem rateField_ne_zero_iff (w : Word) : rateField w ≠ 0 ↔ w.toNat % 2 ^ 20 ≠ 0 := by
  rw [← toNat_rateField, ne_eq, ← BitVec.toNat_inj]
  rfl

/-- The word names the channel, with a rate. -/
def NamesCh (w : Word) (ch : Ch) : Prop := w.toNat / 2 ^ 28 % 4 = ch.num ∧ w.toNat % 2 ^ 20 ≠ 0

theorem namesCh_of_fields {w : Word} {ch : Ch} (hch : (fchField w).toNat = ch.num) (hr : rateField w ≠ 0) :
    NamesCh w ch := by
  rw [toNat_fchField] at hch
  exact ⟨hch, (rateField_ne_zero_iff w).1 hr⟩

/-- An effect word and a channel: nothing there, or the word is valid for it and an effect of its kind runs. -/
theorem fxWord_at (cfg : Config) (w : Word) (ch : Ch) (p : Player) :
    SameAt ch p (fxWord cfg w p) ∨ NamesCh w ch ∧
      (w.toNat / 2 ^ 30 = 1 ∧ drumSample cfg (idField w) ≠ [] ∧
          (∃ id cur acc rate, (fxWord cfg w p).slotOf ch = .drum id cur acc rate) ∨
        w.toNat / 2 ^ 30 = 2 ∧ (∃ high acc rate, (fxWord cfg w p).slotOf ch = .sid high acc rate) ∨
        w.toNat / 2 ^ 30 = 3 ∧ ∃ acc rate, (fxWord cfg w p).slotOf ch = .buzz acc rate) := by
  have hkind := kindField_eq w
  have hlt := w.isLt
  unfold fxWord
  split
  · exact .inl (.refl _ _)
  · next h =>
    refine (fxDigidrum_at cfg (fchField w) (idField w) (rateField w) ch p).imp_right ?_
    rintro ⟨hch, hr, hb, hslot⟩
    exact ⟨namesCh_of_fields hch hr, .inl ⟨hkind.symm.trans h, hb, _, _, _, _, hslot⟩⟩
  · next h =>
    refine (fxSid_at (fchField w) (rateField w) ch p).imp_right ?_
    rintro ⟨hch, hr, high, acc, hslot⟩
    exact ⟨namesCh_of_fields hch hr, .inr (.inl ⟨hkind.symm.trans h, _, _, _, hslot⟩)⟩
  · next h0 h1 h2 =>
    refine (fxSyncbuzz_at (fchField w) (rateField w) ch p).imp_right ?_
    rintro ⟨hch, hr, acc, hslot⟩
    rw [hkind] at h0 h1 h2
    have h3 : w.toNat / 2 ^ 30 = 3 := by
      have h0' : w.toNat / 2 ^ 30 ≠ 0 := h0
      have h1' : w.toNat / 2 ^ 30 ≠ 1 := h1
      have h2' : w.toNat / 2 ^ 30 ≠ 2 := h2
      omega
    exact ⟨namesCh_of_fields hch hr, .inr (.inr ⟨h3, _, _, hslot⟩)⟩

end Sys2Proof.Machine
end

section
/-! Proofs that FX_DECODE runs its words in order and then releases what they did not renew (46_effects.md R131). -/

namespace Sys2Proof.Machine

/-! ### The words in order -/

theorem exec_decodeEffect (w : Word) (s : State) :
    exec (decodeEffect w) s = .next (s.setPlayer (fxWord s.cfg w s.player)) := by
  rw [decodeEffect, fxWord]
  generalize field w 31 30 = kind
  match kind with
  | 0 | 1 | 2 | _ + 3 => rfl

theorem execAll_decodeEffect (ws : List Word) (s : State) :
    execAll (ws.map decodeEffect) s = .next (s.setPlayer (ws.foldl (fun p w => fxWord s.cfg w p) s.player)) := by
  induction ws generalizing s with
  | nil => rfl
  | cons w ws ih =>
    rw [List.map_cons, execAll, exec_decodeEffect]
    exact ih _

/-! ### The release of what was not renewed -/

/-- A Sid or Buzz without a mark. -/
def Slot.unrenewed (x : Slot) (seen : Bool) : Bool :=
  match x with
  | .sid _ _ _ | .buzz _ _ => !seen
  | .empty | .drum _ _ _ _ => false

theorem Slot.releasedOvr_of_unrenewed {x : Slot} {seen : Bool} (h : x.unrenewed seen = true) (o : Option Override) :
    x.releasedOvr o = none := by
  cases x with
  | empty | drum => cases h
  | sid | buzz => rfl

theorem releaseUnseen_eq (ch : Ch) (p : Player) :
    releaseUnseen ch p = if (p.slotOf ch).unrenewed (p.eng.seen.get ch) then release ch p else p := by
  unfold releaseUnseen
  cases p.slotOf ch with
  | empty | drum => rfl
  | sid | buzz => cases p.eng.seen.get ch <;> rfl

/-- `q` is `p` but for the mixer overrides and the slots: the reach of the last loop of FX_DECODE. -/
structure SameButOvr (p q : Player) : Prop where
  chip : q.chip = { p.chip with ovr := q.chip.ovr }
  eng  : q.eng = { p.eng with slot := q.eng.slot }

theorem SameButOvr.trans {p q r : Player} (h : SameButOvr p q) (k : SameButOvr q r) : SameButOvr p r where
  chip := by rw [k.chip, h.chip]
  eng := by rw [k.eng, h.eng]

theorem releaseUnseen_frame (ch : Ch) (p : Player) : SameButOvr p (releaseUnseen ch p) := by
  unfold releaseUnseen
  cases h : p.slotOf ch with
  | empty | drum => exact ⟨rfl, rfl⟩
  | sid high acc rate =>
    dsimp only
    rw [release_of_sid h]
    split <;> exact ⟨rfl, rfl⟩
  | buzz acc rate =>
    dsimp only
    rw [release_of_buzz h]
    split <;> exact ⟨rfl, rfl⟩

theorem seen_releaseUnseen (ch : Ch) (p : Player) : (releaseUnseen ch p).eng.seen = p.eng.seen := by
  rw [(releaseUnseen_frame ch p).eng]

theorem slotOf_releaseUnseen (ch d : Ch) (p : Player) :
    (releaseUnseen ch p).slotOf d =
      if d = ch ∧ (p.slotOf ch).unrenewed (p.eng.seen.get ch) = true then .empty else p.slotOf d := by
  rw [releaseUnseen_eq]
  split
  · rw [slotOf_release]
    simp [*]
  · simp [*]

theorem ovr_releaseUnseen (ch d : Ch) (p : Player) :
    (releaseUnseen ch p).chip.ovr.get d =
      if d = ch ∧ (p.slotOf ch).unrenewed (p.eng.seen.get ch) = true then none else p.chip.ovr.get d := by
  rw [releaseUnseen_eq]
  split
  · next h =>
    rw [ovr_release, Slot.releasedOvr_of_unrenewed h]
    simp [*]
  · simp [*]

theorem fxFinish_frame (p : Player) :
    fxFinish p =
      { chip := { p.chip with ovr := (fxFinish p).chip.ovr },
        eng := { p.eng with slot := (fxFinish p).eng.slot, seen := PerCh.all false, fxq := none } } := by
  have h := (releaseUnseen_frame .A p).trans ((releaseUnseen_frame .B _).trans (releaseUnseen_frame .C _))
  refine congrArg₂ Player.mk h.chip ?_
  change { (releaseUnseen .C (releaseUnseen .B (releaseUnseen .A p))).eng with seen := PerCh.all false, fxq := none } = _
  rw [h.eng]
  rfl

theorem slotOf_fxFinish (ch : Ch) (p : Player) :
    (fxFinish p).slotOf ch = if (p.slotOf ch).unrenewed (p.eng.seen.get ch) then .empty else p.slotOf ch := by
  change (releaseUnseen .C (releaseUnseen .B (releaseUnseen .A p))).slotOf ch = _
  cases ch <;> simp [slotOf_releaseUnseen, seen_releaseUnseen]

theorem ovr_fxFinish (ch : Ch) (p : Player) :
    (fxFinish p).chip.ovr.get ch =
      if (p.slotOf ch).unrenewed (p.eng.seen.get ch) then none else p.chip.ovr.get ch := by
  change (releaseUnseen .C (releaseUnseen .B (releaseUnseen .A p))).chip.ovr.get ch = _
  cases ch <;> simp [ovr_releaseUnseen, slotOf_releaseUnseen, seen_releaseUnseen]

theorem drum_fxFinish (p : Player) : (fxFinish p).chip.drum = p.chip.drum := by
  rw [fxFinish_frame]

/-! ### What the words of a frame leave on a channel -/

/-- The players after the words of a frame. -/
def runWords (cfg : Config) (ws : List Word) (p : Player) : Player := ws.foldl (fun p w => fxWord cfg w p) p

theorem fxDecode_eq (cfg : Config) (ws : List Word) (p : Player) :
    fxDecode cfg ws p = fxFinish (runWords cfg ws p.clearDecode) := rfl

section

variable {cfg : Config} {ws : List Word} {p : Player} {ch : Ch}

/-- A marked slot after the words of a kind that only words of the number `kind` start: it was marked before, or such a
word names the channel. -/
theorem exists_word_of_runWords {IsKind : Slot → Prop} {kind : Nat}
    (hkind : ∀ w p, IsKind ((fxWord cfg w p).slotOf ch) →
      SameAt ch p (fxWord cfg w p) ∨ w.toNat / 2 ^ 30 = kind ∧ NamesCh w ch)
    (h : IsKind ((runWords cfg ws p).slotOf ch)) (hs : (runWords cfg ws p).eng.seen.get ch = true) :
    p.eng.seen.get ch = true ∨ ∃ w ∈ ws, w.toNat / 2 ^ 30 = kind ∧ NamesCh w ch := by
  induction ws using List.reverseRecOn with
  | nil => exact .inl hs
  | append_singleton ws w ih =>
    have hlast : runWords cfg (ws ++ [w]) p = fxWord cfg w (runWords cfg ws p) := List.foldl_append
    rw [hlast] at h hs
    rcases hkind w (runWords cfg ws p) h with hsame | hw
    · rw [hsame.slot] at h
      rw [hsame.seen] at hs
      exact (ih h hs).imp_right fun ⟨v, hv, hvk⟩ => ⟨v, List.mem_append_left _ hv, hvk⟩
    · exact .inr ⟨w, List.mem_append_right _ (List.mem_singleton_self w), hw⟩

theorem fxWord_at_of_sid {w : Word} (h : ∃ high acc rate, (fxWord cfg w p).slotOf ch = .sid high acc rate) :
    SameAt ch p (fxWord cfg w p) ∨ w.toNat / 2 ^ 30 = 2 ∧ NamesCh w ch := by
  obtain ⟨high, acc, rate, h⟩ := h
  refine (fxWord_at cfg w ch p).imp_right fun ⟨hnames, hkind⟩ => ⟨?_, hnames⟩
  rcases hkind with ⟨-, -, _, _, _, _, hslot⟩ | ⟨hkind, -⟩ | ⟨-, _, _, hslot⟩
  · exact absurd (h.symm.trans hslot) nofun
  · exact hkind
  · exact absurd (h.symm.trans hslot) nofun

theorem fxWord_at_of_buzz {w : Word} (h : ∃ acc rate, (fxWord cfg w p).slotOf ch = .buzz acc rate) :
    SameAt ch p (fxWord cfg w p) ∨ w.toNat / 2 ^ 30 = 3 ∧ NamesCh w ch := by
  obtain ⟨acc, rate, h⟩ := h
  refine (fxWord_at cfg w ch p).imp_right fun ⟨hnames, hkind⟩ => ⟨?_, hnames⟩
  rcases hkind with ⟨-, -, _, _, _, _, hslot⟩ | ⟨-, _, _, _, hslot⟩ | ⟨hkind, -⟩
  · exact absurd (h.symm.trans hslot) nofun
  · exact absurd (h.symm.trans hslot) nofun
  · exact hkind

/-- Words that are all ignored for a channel. -/
theorem sameAt_runWords (h : ∀ w ∈ ws, w.toNat / 2 ^ 30 = 0 ∨ w.toNat / 2 ^ 28 % 4 ≠ ch.num ∨ w.toNat % 2 ^ 20 = 0 ∨
    (w.toNat / 2 ^ 30 = 1 ∧ drumSample cfg (idField w) = [])) : SameAt ch p (runWords cfg ws p) := by
  induction ws generalizing p with
  | nil => exact .refl ch p
  | cons w ws ih =>
    have hword : SameAt ch p (fxWord cfg w p) := by
      refine (fxWord_at cfg w ch p).resolve_right ?_
      rintro ⟨⟨hch, hr⟩, hkind⟩
      rcases h w List.mem_cons_self with h0 | hne | hzero | ⟨h1, hb⟩
      · rcases hkind with ⟨hk, -⟩ | ⟨hk, -⟩ | ⟨hk, -⟩ <;> omega
      · exact hne hch
      · exact hr hzero
      · rcases hkind with ⟨-, hbytes, -⟩ | ⟨hk, -⟩ | ⟨hk, -⟩
        · exact hbytes hb
        · omega
        · omega
    exact hword.trans (ih fun v hv => h v (List.mem_cons_of_mem w hv))

/-! ### FX_DECODE -/

/-- A Sid or Buzz that is there after FX_DECODE was renewed. -/
theorem renewed_of_fxDecode (h : (fxDecode cfg ws p).slotOf ch ≠ .empty) :
    ((runWords cfg ws p.clearDecode).slotOf ch).unrenewed ((runWords cfg ws p.clearDecode).eng.seen.get ch) = false ∧
      (fxDecode cfg ws p).slotOf ch = (runWords cfg ws p.clearDecode).slotOf ch := by
  rw [fxDecode_eq, slotOf_fxFinish] at h ⊢
  split at h
  · exact absurd rfl h
  · next hrenewed => exact ⟨Bool.eq_false_of_not_eq_true hrenewed, if_neg hrenewed⟩

/-- A slot after FX_DECODE of a kind that needs renewal and that only words of the number `kind` start. -/
theorem exists_word_of_fxDecode {IsKind : Slot → Prop} {kind : Nat}
    (hkind : ∀ w p, IsKind ((fxWord cfg w p).slotOf ch) →
      SameAt ch p (fxWord cfg w p) ∨ w.toNat / 2 ^ 30 = kind ∧ NamesCh w ch)
    (hrenewal : ∀ x seen, IsKind x → x.unrenewed seen = !seen) (hempty : ¬ IsKind .empty)
    (h : IsKind ((fxDecode cfg ws p).slotOf ch)) : ∃ w ∈ ws, w.toNat / 2 ^ 30 = kind ∧ NamesCh w ch := by
  obtain ⟨hrenewed, hslot⟩ := renewed_of_fxDecode fun he => hempty (he ▸ h)
  rw [hslot] at h
  rw [hrenewal _ _ h, Bool.not_eq_false'] at hrenewed
  have hfree : p.clearDecode.eng.seen.get ch = false := PerCh.get_all false ch
  exact (exists_word_of_runWords hkind h hrenewed).resolve_left fun hs => absurd (hfree.symm.trans hs) nofun

/-- The slot and the mixer override of a channel that every word ignores. -/
theorem fxDecode_of_ignored (h : SameAt ch p.clearDecode (runWords cfg ws p.clearDecode)) :
    (fxDecode cfg ws p).slotOf ch = (if (p.slotOf ch).unrenewed false then .empty else p.slotOf ch) ∧
      (fxDecode cfg ws p).chip.ovr.get ch =
        (if (p.slotOf ch).unrenewed false then none else p.chip.ovr.get ch) ∧
      (fxDecode cfg ws p).chip.drum.get ch = p.chip.drum.get ch := by
  obtain ⟨hslot, hseen, hovr, hdrum⟩ := h
  have hfree : p.clearDecode.eng.seen.get ch = false := PerCh.get_all false ch
  rw [fxDecode_eq, slotOf_fxFinish, ovr_fxFinish, drum_fxFinish, hslot, hseen, hovr, hdrum, hfree]
  exact ⟨rfl, rfl, rfl⟩

end

/-- Settles O48: what each word does to one channel, by induction on the words, and what the last loop releases. -/
theorem sidBuzzNeedRenewal : Obligations.SidBuzzNeedRenewal := by
  refine ⟨fun s ws => ⟨_, execAll_decodeEffect ws _, rfl, rfl⟩, fun p => ⟨fxFinish_frame p, fun ch => ?_⟩,
    fun cfg ws p ch => ⟨fun high acc rate h => ?_, fun acc rate h => ?_, fun h => ?_⟩⟩
  · have hslot := slotOf_fxFinish ch p
    have hovr := ovr_fxFinish ch p
    unfold Player.slotOf at hslot hovr
    cases hx : p.eng.slot.get ch with
    | empty | drum =>
      rw [hx] at hslot hovr
      exact ⟨hslot, hovr⟩
    | sid | buzz =>
      rw [hx] at hslot hovr
      cases hs : p.eng.seen.get ch <;> rw [hs] at hslot hovr <;> exact ⟨hslot, hovr⟩
  · refine exists_word_of_fxDecode (IsKind := fun x => ∃ high acc rate, x = .sid high acc rate)
      (fun _ _ => fxWord_at_of_sid) ?_ nofun ⟨high, acc, rate, h⟩
    rintro _ seen ⟨high, acc, rate, rfl⟩
    rfl
  · refine exists_word_of_fxDecode (IsKind := fun x => ∃ acc rate, x = .buzz acc rate)
      (fun _ _ => fxWord_at_of_buzz) ?_ nofun ⟨acc, rate, h⟩
    rintro _ seen ⟨acc, rate, rfl⟩
    rfl
  · obtain ⟨hslot, hovr, hdrum⟩ := fxDecode_of_ignored (p := p) (sameAt_runWords (cfg := cfg) fun w hw => by
      rw [drumSample, toNat_idField]
      exact h w hw)
    refine ⟨hdrum, ?_⟩
    unfold Player.slotOf at hslot hovr
    cases hx : p.eng.slot.get ch with
    | empty | drum | sid | buzz =>
      rw [hx] at hslot hovr
      exact ⟨hslot, hovr⟩

end Sys2Proof.Machine
end

section
/-! Proofs about FX_ADVANCE over any number of samples (46_effects.md R132 to R135). -/

namespace Sys2Proof.Machine

/-! ### One channel's events and the other channels -/

section

variable {ch d : Ch} (cfg : Config)

theorem sameAt_fxEvent (h : ch ≠ d) (p : Player) : SameAt ch p (fxEvent cfg d p) := by
  unfold fxEvent
  split
  · exact .refl _ _
  · split
    · exact (SameAt.setSlot h _ p).trans (.setDrumOvr h _ _)
    · exact .release h p
  · exact (SameAt.setSlot h _ p).trans (.setMixerOvr h _ _ _)
  · exact .envRestart _ p

theorem sameAt_runEvents (h : ch ≠ d) (n : Nat) (p : Player) : SameAt ch p (runEvents cfg d n p) := by
  induction n generalizing p with
  | zero => exact .refl _ _
  | succ n ih =>
    unfold runEvents
    split
    · exact .refl _ _
    · split
      · exact (SameAt.setSlot h _ p).trans ((sameAt_fxEvent cfg h _).trans (ih _))
      · exact .refl _ _

theorem sameAt_fxAdvanceCh (h : ch ≠ d) (p : Player) : SameAt ch p (fxAdvanceCh cfg d p) := by
  unfold fxAdvanceCh
  split
  · exact .refl _ _
  · exact (SameAt.setSlot h _ p).trans (sameAt_runEvents cfg h _ _)

/-- `q` comes from `p` by other channels' advances. -/
structure ByOthers (ch : Ch) (p q : Player) : Prop where
  same  : SameAt ch p q
  hooks : SameButHooks p.chip q.chip

theorem ByOthers.refl (ch : Ch) (p : Player) : ByOthers ch p p := ⟨.refl _ _, .refl _⟩

theorem ByOthers.trans {p q r : Player} (h : ByOthers ch p q) (k : ByOthers ch q r) : ByOthers ch p r :=
  ⟨h.same.trans k.same, h.hooks.trans k.hooks⟩

theorem byOthers_fxAdvanceCh (h : ch ≠ d) (p : Player) : ByOthers ch p (fxAdvanceCh cfg d p) :=
  ⟨sameAt_fxAdvanceCh cfg h p, (fxAdvanceCh_byEvents cfg d p).chip⟩

/-- In FX_ADVANCE one channel's advance stands between those of the others. -/
theorem fxAdvance_at (ch : Ch) (p : Player) :
    ∃ q, ByOthers ch p q ∧ ByOthers ch (fxAdvanceCh cfg ch q) (fxAdvance cfg p) := by
  cases ch with
  | A =>
    exact ⟨p, .refl _ _, (byOthers_fxAdvanceCh cfg (ch := .A) (d := .B) nofun _).trans
      (byOthers_fxAdvanceCh cfg (ch := .A) (d := .C) nofun _)⟩
  | B =>
    exact ⟨_, byOthers_fxAdvanceCh cfg (ch := .B) (d := .A) nofun p,
      byOthers_fxAdvanceCh cfg (ch := .B) (d := .C) nofun _⟩
  | C =>
    exact ⟨_, (byOthers_fxAdvanceCh cfg (ch := .C) (d := .A) nofun p).trans
      (byOthers_fxAdvanceCh cfg (ch := .C) (d := .B) nofun _), .refl _ _⟩

end

/-! ### The loop of one channel -/

theorem slotOf_setSlot_same (ch : Ch) (x : Slot) (p : Player) : (p.setSlot ch x).slotOf ch = x :=
  PerCh.get_set_same _ _ _

section

variable {cfg : Config} {ch : Ch} {p : Player} {acc : Nat}

theorem runEvents_of_empty (h : p.slotOf ch = .empty) (n : Nat) : runEvents cfg ch (n + 1) p = p := by
  rw [runEvents, h]
  rfl

theorem runEvents_of_due (h : (p.slotOf ch).acc? = some acc) (hdue : cfg.sampleRate ≤ acc) (n : Nat) :
    runEvents cfg ch (n + 1) p =
      runEvents cfg ch n (fxEvent cfg ch (p.setSlot ch ((p.slotOf ch).withAcc (acc - cfg.sampleRate)))) := by
  rw [runEvents, h]
  exact if_pos hdue

theorem fxAdvanceCh_of_empty (h : p.slotOf ch = .empty) : fxAdvanceCh cfg ch p = p := by
  rw [fxAdvanceCh, h]
  rfl

theorem fxAdvanceCh_of_running (h : (p.slotOf ch).acc? = some acc) :
    fxAdvanceCh cfg ch p =
      runEvents cfg ch ((acc + (p.slotOf ch).rate) / cfg.sampleRate)
        (p.setSlot ch ((p.slotOf ch).withAcc (acc + (p.slotOf ch).rate))) := by
  rw [fxAdvanceCh, h]

end

/-! ### Counting events -/

/-- `A k acc p` says what `p` is on the channel after `k` events, with `acc` in the accumulator. An empty slot has no
further events, so that it stands for every later count. -/
structure EventCount (cfg : Config) (ch : Ch) (rate : Nat) (A : Nat → Nat → Player → Prop) : Prop where
  congr   : ∀ {k acc p q}, SameAt ch p q → A k acc p → A k acc q
  running : ∀ {k acc p}, A k acc p → p.slotOf ch = .empty ∨ (p.slotOf ch).acc? = some acc ∧ (p.slotOf ch).rate = rate
  empty   : ∀ {k k' acc acc' p}, A k acc p → p.slotOf ch = .empty → k ≤ k' → A k' acc' p
  withAcc : ∀ {k acc p} acc', A k acc p → A k acc' (p.setSlot ch ((p.slotOf ch).withAcc acc'))
  event   : ∀ {k acc p}, A k acc p → A (k + 1) acc (fxEvent cfg ch p)

namespace EventCount

variable {cfg : Config} {ch : Ch} {rate : Nat} {A : Nat → Nat → Player → Prop}

theorem runEvents (h : EventCount cfg ch rate A) (n : Nat) : ∀ {k acc : Nat} {p : Player}, A k acc p →
    acc / cfg.sampleRate = n → 0 < cfg.sampleRate → A (k + n) (acc % cfg.sampleRate) (runEvents cfg ch n p) := by
  induction n with
  | zero =>
    intro k acc p hp hn hr
    rwa [Nat.mod_eq_of_lt ((Nat.div_eq_zero_iff_lt hr).1 hn)]
  | succ n ih =>
    intro k acc p hp hn hr
    rcases h.running hp with hempty | ⟨hacc, -⟩
    · rw [runEvents_of_empty hempty]
      exact h.empty hp hempty (Nat.le_add_right _ _)
    · have hle : cfg.sampleRate ≤ acc := (Nat.div_pos_iff.1 (hn ▸ Nat.succ_pos n)).2
      have hstep := h.event (h.withAcc (acc - cfg.sampleRate) hp)
      rw [runEvents_of_due hacc hle, show k + (n + 1) = k + 1 + n by omega, Nat.mod_eq_sub_mod hle]
      exact ih hstep (by have := Nat.div_eq_sub_div hr hle; omega) hr

theorem fxAdvanceCh (h : EventCount cfg ch rate A) (hr : 0 < cfg.sampleRate) {k acc : Nat} {p : Player}
    (hp : A k acc p) :
    A (k + (acc + rate) / cfg.sampleRate) ((acc + rate) % cfg.sampleRate) (fxAdvanceCh cfg ch p) := by
  rcases h.running hp with hempty | ⟨hacc, hrate⟩
  · rw [fxAdvanceCh_of_empty hempty]
    exact h.empty hp hempty (Nat.le_add_right _ _)
  · rw [fxAdvanceCh_of_running hacc, hrate]
    exact h.runEvents _ (h.withAcc _ hp) rfl hr

theorem fxAdvance (h : EventCount cfg ch rate A) (hr : 0 < cfg.sampleRate) {k acc : Nat} {p : Player}
    (hp : A k acc p) :
    A (k + (acc + rate) / cfg.sampleRate) ((acc + rate) % cfg.sampleRate) (fxAdvance cfg p) := by
  obtain ⟨q, hbefore, hafter⟩ := fxAdvance_at cfg ch p
  exact h.congr hafter.same (h.fxAdvanceCh hr (h.congr hbefore.same hp))

/-- Over `n` samples the events are a quotient and the accumulator is its remainder. -/
theorem iterate (h : EventCount cfg ch rate A) (hr : 0 < cfg.sampleRate) {acc : Nat} {p : Player} (hp : A 0 acc p)
    (hacc : acc < cfg.sampleRate) (n : Nat) :
    A ((acc + n * rate) / cfg.sampleRate) ((acc + n * rate) % cfg.sampleRate) ((Machine.fxAdvance cfg)^[n] p) := by
  induction n with
  | zero => rwa [Nat.zero_mul, Nat.add_zero, Nat.div_eq_of_lt hacc, Nat.mod_eq_of_lt hacc]
  | succ n ih =>
    have hnext := h.fxAdvance hr ih
    have htotal : acc + (n + 1) * rate = acc + n * rate + rate := by rw [Nat.add_one_mul, Nat.add_assoc]
    rw [Function.iterate_succ_apply', htotal]
    rwa [Nat.mod_add_mod, ← Nat.mul_add_div hr, ← Nat.add_assoc, Nat.div_add_mod] at hnext

end EventCount

/-! ### The kinds of slot -/

section

variable (ch : Ch) (rate : BitVec 20) (o : Option Override) (b : Option Byte)

/-- A Sid after `k` events: its gate has turned over `k` times. -/
structure SidAfter (high : Bool) (k acc : Nat) (p : Player) : Prop where
  slot : p.slotOf ch = .sid (high ^^ decide (k % 2 = 1)) acc rate
  ovr  : p.chip.ovr.get ch =
    if k = 0 then o else some ⟨high ^^ decide (k % 2 = 1), high ^^ decide (k % 2 = 1)⟩
  drum : p.chip.drum.get ch = b

/-- A Buzz after any number of events. -/
structure BuzzAfter (_k acc : Nat) (p : Player) : Prop where
  slot : p.slotOf ch = .buzz acc rate
  ovr  : p.chip.ovr.get ch = o
  drum : p.chip.drum.get ch = b

/-- An empty slot. -/
structure EmptyAfter (_k _acc : Nat) (p : Player) : Prop where
  slot : p.slotOf ch = .empty
  ovr  : p.chip.ovr.get ch = o
  drum : p.chip.drum.get ch = b

/-- A drum after `k` events: it is at the byte `cur + k`, or past its last byte and released. -/
structure DrumAfter (cfg : Config) (id : Byte) (cur k acc : Nat) (p : Player) : Prop where
  ovr     : p.chip.ovr.get ch = o
  playing : cur + k < (drumSample cfg id).length →
    p.slotOf ch = .drum id (cur + k) acc rate ∧ p.chip.drum.get ch = (drumSample cfg id)[cur + k]?
  ended   : (drumSample cfg id).length ≤ cur + k → p.slotOf ch = .empty ∧ p.chip.drum.get ch = none

end

section

variable {cfg : Config} {ch : Ch}

theorem fxEvent_of_empty {p : Player} (h : p.slotOf ch = .empty) : fxEvent cfg ch p = p := by
  rw [fxEvent, h]

theorem fxEvent_of_sid {p : Player} {high : Bool} {acc : Nat} {rate : BitVec 20} (h : p.slotOf ch = .sid high acc rate) :
    fxEvent cfg ch p = (p.setSlot ch (.sid (!high) acc rate)).onChip (setMixerOvr ch (!high) (!high)) := by
  rw [fxEvent, h]

theorem fxEvent_of_buzz {p : Player} {acc : Nat} {rate : BitVec 20} (h : p.slotOf ch = .buzz acc rate) :
    fxEvent cfg ch p = p.onChip envRestart := by
  rw [fxEvent, h]

theorem fxEvent_of_drum_next {p : Player} {id : Byte} {cur acc : Nat} {rate : BitVec 20} {x : Byte}
    (h : p.slotOf ch = .drum id cur acc rate) (hx : (drumSample cfg id)[cur + 1]? = some x) :
    fxEvent cfg ch p = (p.setSlot ch (.drum id (cur + 1) acc rate)).onChip (setDrumOvr ch x) := by
  rw [fxEvent, h]
  dsimp only
  rw [hx]

theorem fxEvent_of_drum_end {p : Player} {id : Byte} {cur acc : Nat} {rate : BitVec 20}
    (h : p.slotOf ch = .drum id cur acc rate) (hx : (drumSample cfg id)[cur + 1]? = none) :
    fxEvent cfg ch p = release ch p := by
  rw [fxEvent, h]
  dsimp only
  rw [hx]

/-- One more event turns the parity over. -/
theorem xor_parity_succ (high : Bool) (k : Nat) :
    (high ^^ decide ((k + 1) % 2 = 1)) = !(high ^^ decide (k % 2 = 1)) := by
  rcases Nat.mod_two_eq_zero_or_one k with h | h <;> cases high <;> simp [Nat.add_mod, h]

theorem eventCount_sid (cfg : Config) (ch : Ch) (rate : BitVec 20) (o : Option Override) (b : Option Byte) (high : Bool) :
    EventCount cfg ch rate.toNat (SidAfter ch rate o b high) where
  congr h := fun ⟨hslot, hovr, hdrum⟩ => ⟨h.slot.trans hslot, h.ovr.trans hovr, h.drum.trans hdrum⟩
  running h := .inr (by rw [h.slot]; exact ⟨rfl, rfl⟩)
  empty h he := absurd (he.symm.trans h.slot) nofun
  withAcc acc' := fun ⟨hslot, hovr, hdrum⟩ => ⟨by rw [slotOf_setSlot_same, hslot]; rfl, hovr, hdrum⟩
  event := fun {k acc p} ⟨hslot, hovr, hdrum⟩ => by
    rw [fxEvent_of_sid hslot, ← xor_parity_succ]
    exact ⟨PerCh.get_set_same _ _ _, (PerCh.get_set_same _ _ _).trans (if_neg (Nat.succ_ne_zero k)).symm, hdrum⟩

theorem eventCount_buzz (cfg : Config) (ch : Ch) (rate : BitVec 20) (o : Option Override) (b : Option Byte) :
    EventCount cfg ch rate.toNat (BuzzAfter ch rate o b) where
  congr h := fun ⟨hslot, hovr, hdrum⟩ => ⟨h.slot.trans hslot, h.ovr.trans hovr, h.drum.trans hdrum⟩
  running h := .inr (by rw [h.slot]; exact ⟨rfl, rfl⟩)
  empty h he := absurd (he.symm.trans h.slot) nofun
  withAcc acc' := fun ⟨hslot, hovr, hdrum⟩ => ⟨by rw [slotOf_setSlot_same, hslot]; rfl, hovr, hdrum⟩
  event := fun ⟨hslot, hovr, hdrum⟩ => by
    rw [fxEvent_of_buzz hslot]
    exact ⟨hslot, hovr, hdrum⟩

theorem eventCount_empty (cfg : Config) (ch : Ch) (o : Option Override) (b : Option Byte) :
    EventCount cfg ch 0 (EmptyAfter ch o b) where
  congr h := fun ⟨hslot, hovr, hdrum⟩ => ⟨h.slot.trans hslot, h.ovr.trans hovr, h.drum.trans hdrum⟩
  running h := .inl h.slot
  empty h _ _ := ⟨h.slot, h.ovr, h.drum⟩
  withAcc acc' := fun ⟨hslot, hovr, hdrum⟩ => ⟨by rw [slotOf_setSlot_same, hslot]; rfl, hovr, hdrum⟩
  event := fun ⟨hslot, hovr, hdrum⟩ => by
    rw [fxEvent_of_empty hslot]
    exact ⟨hslot, hovr, hdrum⟩

/-- A drum's event: the next byte, or the release after the last one (R133). -/
theorem DrumAfter.event {rate : BitVec 20} {o : Option Override} {id : Byte} {cur k acc : Nat} {p : Player}
    (h : DrumAfter ch rate o cfg id cur k acc p) : DrumAfter ch rate o cfg id cur (k + 1) acc (fxEvent cfg ch p) := by
  obtain ⟨hovr, hplaying, hended⟩ := h
  rcases Nat.lt_or_ge (cur + k) (drumSample cfg id).length with hlt | hge
  · obtain ⟨hslot, -⟩ := hplaying hlt
    rcases Nat.lt_or_ge (cur + k + 1) (drumSample cfg id).length with hnext | hend
    · have hx := List.getElem?_eq_getElem hnext
      rw [fxEvent_of_drum_next hslot hx]
      refine ⟨hovr, fun _ => ⟨PerCh.get_set_same _ _ _, (PerCh.get_set_same _ _ _).trans hx.symm⟩, fun h => ?_⟩
      exact absurd h (Nat.not_le.2 hnext)
    · rw [fxEvent_of_drum_end hslot (List.getElem?_eq_none hend)]
      refine ⟨?_, fun h => absurd h (Nat.not_lt.2 hend), fun _ => ⟨?_, ?_⟩⟩
      · rw [ovr_release, if_pos rfl, hslot]
        exact hovr
      · rw [slotOf_release, if_pos rfl]
      · rw [drum_release, if_pos rfl, hslot]
        rfl
  · obtain ⟨hslot, hdrum⟩ := hended hge
    rw [fxEvent_of_empty hslot]
    exact ⟨hovr, fun h => absurd h (by omega), fun _ => ⟨hslot, hdrum⟩⟩

theorem eventCount_drum (cfg : Config) (ch : Ch) (rate : BitVec 20) (o : Option Override) (id : Byte) (cur : Nat) :
    EventCount cfg ch rate.toNat (DrumAfter ch rate o cfg id cur) where
  congr h := fun ⟨hovr, hplaying, hended⟩ =>
    ⟨h.ovr.trans hovr, fun hlt => by rw [h.slot, h.drum]; exact hplaying hlt,
      fun hle => by rw [h.slot, h.drum]; exact hended hle⟩
  running := fun {k acc p} ⟨_, hplaying, hended⟩ => by
    rcases Nat.lt_or_ge (cur + k) (drumSample cfg id).length with hlt | hge
    · rw [(hplaying hlt).1]
      exact .inr ⟨rfl, rfl⟩
    · exact .inl (hended hge).1
  empty := fun {k k' acc acc' p} ⟨hovr, hplaying, hended⟩ he hk => by
    have hge : (drumSample cfg id).length ≤ cur + k :=
      Nat.not_lt.1 fun hlt => absurd (he.symm.trans (hplaying hlt).1) nofun
    exact ⟨hovr, fun h => absurd h (by omega), fun _ => hended hge⟩
  withAcc := fun {k acc p} acc' ⟨hovr, hplaying, hended⟩ => by
    refine ⟨hovr, fun hlt => ⟨?_, (hplaying hlt).2⟩, fun hle => ⟨?_, (hended hle).2⟩⟩
    · rw [slotOf_setSlot_same, (hplaying hlt).1]
      rfl
    · rw [slotOf_setSlot_same, (hended hle).1]
      rfl
  event := DrumAfter.event

end

/-- Settles O50: a drum's state after `k` events, and the count of events over `n` samples. -/
theorem drumPlaysItsBytes : Obligations.DrumPlaysItsBytes := by
  intro cfg p ch id cur acc rate hr hslot hacc hcur hdrum n
  have hstart : DrumAfter ch rate (p.chip.ovr.get ch) cfg id cur 0 acc p :=
    ⟨rfl, fun _ => ⟨hslot, hdrum⟩, fun h => absurd hcur (Nat.not_lt.2 h)⟩
  obtain ⟨hovr, hplaying, hended⟩ := (eventCount_drum cfg ch rate _ id cur).iterate hr hstart hacc n
  exact ⟨drumSample_eq cfg id, hovr, hplaying, hended⟩

/-! ### The envelope's restarts (R135) -/

section

variable {cfg : Config} {ch : Ch} {p : Player}

theorem withAcc_buzz (acc acc' : Nat) (rate : BitVec 20) : (Slot.buzz acc rate).withAcc acc' = .buzz acc' rate := rfl

/-- The slot holds a Buzz. -/
def Slot.isBuzz : Slot → Bool
  | .buzz _ _ => true
  | .empty | .drum _ _ _ _ | .sid _ _ _ => false

theorem isBuzz_withAcc (x : Slot) (acc : Nat) : (x.withAcc acc).isBuzz = x.isBuzz := by
  cases x <;> rfl

/-- An event of a slot that holds no Buzz. -/
theorem fxEvent_of_not_buzz (h : (p.slotOf ch).isBuzz = false) :
    SameEnv p.chip (fxEvent cfg ch p).chip ∧ ((fxEvent cfg ch p).slotOf ch).isBuzz = false := by
  unfold fxEvent
  split
  · exact ⟨.refl _, h⟩
  · split
    · exact ⟨⟨rfl, rfl, rfl, rfl⟩, congrArg Slot.isBuzz (PerCh.get_set_same _ _ _)⟩
    · refine ⟨sameEnv_release ch p, ?_⟩
      rw [slotOf_release, if_pos rfl]
      rfl
  · exact ⟨⟨rfl, rfl, rfl, rfl⟩, congrArg Slot.isBuzz (PerCh.get_set_same _ _ _)⟩
  · next hs =>
    rw [hs] at h
    cases h

theorem runEvents_of_not_buzz (n : Nat) (h : (p.slotOf ch).isBuzz = false) :
    SameEnv p.chip (runEvents cfg ch n p).chip := by
  induction n generalizing p with
  | zero => exact .refl _
  | succ n ih =>
    unfold runEvents
    split
    · exact .refl _
    · next acc _ =>
      split
      · have hset : ((p.setSlot ch ((p.slotOf ch).withAcc (acc - cfg.sampleRate))).slotOf ch).isBuzz = false := by
          rw [slotOf_setSlot_same, isBuzz_withAcc, h]
        obtain ⟨hsame, hnext⟩ := fxEvent_of_not_buzz (cfg := cfg) hset
        exact hsame.trans (ih hnext)
      · exact .refl _

theorem fxAdvanceCh_of_not_buzz (h : (p.slotOf ch).isBuzz = false) : SameEnv p.chip (fxAdvanceCh cfg ch p).chip := by
  cases hacc : (p.slotOf ch).acc? with
  | none =>
    rw [fxAdvanceCh, hacc]
    exact .refl _
  | some acc =>
    rw [fxAdvanceCh_of_running hacc]
    have hset : ((p.setSlot ch ((p.slotOf ch).withAcc (acc + (p.slotOf ch).rate))).slotOf ch).isBuzz = false := by
      rw [slotOf_setSlot_same, isBuzz_withAcc, h]
    obtain ⟨hecnt, hestep, heup, hehold⟩ := runEvents_of_not_buzz (cfg := cfg) _ hset
    exact ⟨hecnt, hestep, heup, hehold⟩

/-- One channel's advance with no Buzz event due. -/
theorem sameEnv_fxAdvanceCh (h : ∀ acc rate, p.slotOf ch = .buzz acc rate → acc + rate.toNat < cfg.sampleRate) :
    SameEnv p.chip (fxAdvanceCh cfg ch p).chip := by
  cases hs : p.slotOf ch with
  | buzz acc rate =>
    rw [fxAdvanceCh_of_running (acc := acc) (by rw [hs]; rfl), hs]
    change SameEnv _ (runEvents cfg ch ((acc + rate.toNat) / cfg.sampleRate) _).chip
    rw [Nat.div_eq_of_lt (h acc rate hs)]
    exact .refl _
  | empty | drum | sid => exact fxAdvanceCh_of_not_buzz (congrArg Slot.isBuzz hs)

theorem sameEnv_fxAdvance
    (h : ∀ ch acc rate, p.slotOf ch = .buzz acc rate → acc + rate.toNat < cfg.sampleRate) :
    SameEnv p.chip (fxAdvance cfg p).chip := by
  have hA := sameAt_fxAdvanceCh cfg (ch := .B) (d := .A) nofun p
  have hAC := (sameAt_fxAdvanceCh cfg (ch := .C) (d := .A) nofun p).trans
    (sameAt_fxAdvanceCh cfg (ch := .C) (d := .B) nofun _)
  refine (sameEnv_fxAdvanceCh (h .A)).trans ((sameEnv_fxAdvanceCh fun acc rate hs => ?_).trans
    (sameEnv_fxAdvanceCh fun acc rate hs => ?_))
  · exact h .B acc rate (hA.slot.symm.trans hs)
  · exact h .C acc rate (hAC.slot.symm.trans hs)

/-- After a restart whatever the hooks do is a restart of the first state. -/
theorem SameEnv.restart_hooks {c d e : ChipState} (hreg : d.reg = c.reg) (h : SameEnv (envRestart c) d)
    (k : SameButHooks d e) : SameEnv (envRestart c) e :=
  k.env.elim h.trans fun hrestart => (SameEnv.restart hreg).trans hrestart

/-- One channel's advance with a Buzz event due. -/
theorem restart_fxAdvanceCh {acc : Nat} {rate : BitVec 20} (hr : 0 < cfg.sampleRate) (hs : p.slotOf ch = .buzz acc rate)
    (hdue : cfg.sampleRate ≤ acc + rate.toNat) : SameEnv (envRestart p.chip) (fxAdvanceCh cfg ch p).chip := by
  obtain ⟨n, hn⟩ := Nat.exists_eq_succ_of_ne_zero (Nat.div_pos hdue hr).ne'
  have hslot := slotOf_setSlot_same ch (.buzz (acc + rate.toNat) rate) p
  rw [fxAdvanceCh_of_running (acc := acc) (by rw [hs]; rfl), hs]
  change SameEnv _ (runEvents cfg ch ((acc + rate.toNat) / cfg.sampleRate) (p.setSlot ch (.buzz (acc + rate.toNat) rate))).chip
  rw [hn, runEvents_of_due (acc := acc + rate.toNat) (by rw [hslot]; rfl) hdue, hslot,
    withAcc_buzz, fxEvent_of_buzz (slotOf_setSlot_same ch _ _)]
  generalize hq : Player.setSlot ch _ (Player.setSlot ch _ p) = q
  have hchip : q.chip = p.chip := by rw [← hq]; rfl
  rw [← hchip]
  exact SameEnv.restart_hooks (d := envRestart q.chip) rfl (.refl _)
    (runEvents_byEvents cfg ch n (q.onChip envRestart)).chip

theorem restart_fxAdvance {acc : Nat} {rate : BitVec 20} (hr : 0 < cfg.sampleRate) (hs : p.slotOf ch = .buzz acc rate)
    (hdue : cfg.sampleRate ≤ acc + rate.toNat) : SameEnv (envRestart p.chip) (fxAdvance cfg p).chip := by
  obtain ⟨q, hbefore, hafter⟩ := fxAdvance_at cfg ch p
  have hrestart := restart_fxAdvanceCh (cfg := cfg) hr (hbefore.same.slot.trans hs) hdue
  exact SameEnv.restart_hooks (((fxAdvanceCh_byEvents cfg ch q).chip.reg).trans hbefore.hooks.reg)
    ((SameEnv.restart hbefore.hooks.reg).trans hrestart) hafter.hooks

end

/-- The engine of a player that one channel's events leave. -/
theorem ByEvents.eng_eq {ch : Ch} {p q : Player} (h : ByEvents ch p q) : q.eng = { p.eng with slot := q.eng.slot } := by
  obtain ⟨-, hstate, hcursor, hsif, hflen, hracc, -, hseen, hfxq⟩ := h
  change _ = EngineState.mk p.eng.state p.eng.cursor p.eng.sif p.eng.flen p.eng.racc q.eng.slot p.eng.seen p.eng.fxq
  rw [← hstate, ← hcursor, ← hsif, ← hflen, ← hracc, ← hseen, ← hfxq]

theorem eng_fxAdvance (cfg : Config) (p : Player) :
    (fxAdvance cfg p).eng = { p.eng with slot := (fxAdvance cfg p).eng.slot } := by
  have hA := (fxAdvanceCh_byEvents cfg .A p).eng_eq
  have hB := (fxAdvanceCh_byEvents cfg .B (fxAdvanceCh cfg .A p)).eng_eq
  have hC := (fxAdvanceCh_byEvents cfg .C (fxAdvanceCh cfg .B (fxAdvanceCh cfg .A p))).eng_eq
  rw [hB, hA] at hC
  exact hC

/-- Settles O49: the state of each kind of slot after `k` events, and the envelope through the channels in turn. -/
theorem sidAndBuzzEvents : Obligations.SidAndBuzzEvents := by
  refine ⟨fun cfg p ch hr => ⟨fun high acc rate hslot hacc n => ?_, fun acc rate hslot hacc n => ?_,
    fun acc rate hslot hdue => ?_, fun hslot n => ?_⟩, fun cfg p => ⟨fun h => ?_, eng_fxAdvance cfg p⟩⟩
  · have hstart : SidAfter ch rate (p.chip.ovr.get ch) (p.chip.drum.get ch) high 0 acc p :=
      ⟨hslot.trans (by simp), rfl, rfl⟩
    obtain ⟨hslot, hovr, hdrum⟩ := (eventCount_sid cfg ch rate _ _ high).iterate hr hstart hacc n
    exact ⟨hslot, hovr, hdrum⟩
  · have hstart : BuzzAfter ch rate (p.chip.ovr.get ch) (p.chip.drum.get ch) 0 acc p := ⟨hslot, rfl, rfl⟩
    obtain ⟨hslot, hovr, hdrum⟩ := (eventCount_buzz cfg ch rate _ _).iterate hr hstart hacc n
    exact ⟨hslot, hovr, hdrum⟩
  · obtain ⟨hecnt, hestep, heup, hehold⟩ := restart_fxAdvance hr hslot hdue
    exact ⟨hecnt, hestep, heup, hehold⟩
  · have hstart : EmptyAfter ch (p.chip.ovr.get ch) (p.chip.drum.get ch) 0 0 p := ⟨hslot, rfl, rfl⟩
    obtain ⟨hslot, hovr, hdrum⟩ := (eventCount_empty cfg ch _ _).iterate hr hstart hr n
    exact ⟨hslot, hovr, hdrum⟩
  · obtain ⟨hecnt, hestep, heup, hehold⟩ := sameEnv_fxAdvance h
    exact ⟨hecnt, hestep, heup, hehold⟩

end Sys2Proof.Machine
end
